-- ==== Sys2Proof/Word.lean ====
section
/-! DEFINITION. Word.lean: the words of this hardware. R10: bit 0 is the least significant bit and every value is an
unsigned natural number. A scan is a sequence of bits, first bit shifted first (R55); the registers of fixed width are bit
vectors. -/

namespace Sys2Proof

/-- A scan on the wire or a shift register: its bits in the order they are shifted, bit 0 first (R10, R55). -/
abbrev Bits := List Bool

/-- A JTAG instruction code, `IR_WIDTH` = 5 bits (R53, R74). -/
abbrev IrCode := BitVec 5

/-- One DMI datum (R54), and the width of IDCODE and DTMCS (R21). -/
abbrev Word32 := BitVec 32

/-- The host's scan word `wdata` (R160), `MAX_SCAN_LEN` = 64 bits (R8). -/
abbrev ScanWord := BitVec 64

end Sys2Proof
end

