-- ==== Sys2Proof/Config.lean ====
section
/-! DEFINITION. Config.lean: the constants of 00_scope.md rule R8 that this hardware fixes, the construction parameters a
machine is built with, and the free values (opaque: nothing can evaluate one). -/

namespace Sys2Proof

namespace Config

/-- `TCK_HALF_MULT` = 2 (R8, conflict C1): TCK half-period in main-clock half-periods. -/
def tckHalfMult : Nat := 2

/-- `RESET_TCK_HALVES` = 10 (R8): the reset window in TCK half-periods. -/
def resetTckHalves : Nat := 10

/-- `MAX_SCAN_LEN` = 64 (R8): the longest DR scan the host engine accepts. -/
def maxScanLen : Nat := 64

/-- `DTMCS_VERSION` = 1 (R8, R32). -/
def dtmcsVersion : Nat := 1

/-- `DRV_INIT_WIDTH` = 42 (R8): the host's DMI scan width before `Dtm.reset`. -/
def drvInitWidth : Nat := 42

/-- `DRV_INIT_IDLE` = 1 (R8): the host's dwell count before `Dtm.reset`. -/
def drvInitIdle : Nat := 1

/-- The host's address mask before `Dtm.reset` (R26, decision D27). -/
def drvInitMask : Nat := 0xff

/-- `RETRY_LIMIT` = none (R8, R177): the RETRY loops have no ceiling. -/
def retryLimit : Option Nat := none

/-! ### Free values (log entries 7 and 8)

Each is applied to the counter `State.free`, which the step advances at every draw, so no two draws are tied together. -/

/-- TDO at a falling edge outside Shift-IR and Shift-DR (R124, D31). -/
opaque freeTdo : Nat → Bool

/-- The IR shift register while `rst_n` is low (R49). -/
opaque freeIrSr : Nat → IrCode

/-- The DR shift register while `rst_n` is low (R49). -/
opaque freeDrSr : Nat → Word32

/-- `t.resp_addr` while `rst_n` is low (R154). -/
opaque freeRespAddr : Nat → Nat

/-- `t.resp_data` while `rst_n` is low (R154) and after a WRITE (R147, R150). -/
opaque freeRespData : Nat → Word32

/-- The bit a scan reads in a cycle that had no falling edge (outside the precondition of R157; log entry 12). -/
opaque freeSample : Nat → Bool

/-- `DM_LATENCY` (R148): TCK cycles the Debug Module takes over a request. -/
opaque dmLatency : Nat → Nat

/-- The read data of the Debug Module's answer (R148). -/
opaque dmReadData : Nat → Word32

/-- `DM_RESP` (R148): whether the Debug Module answers with success. -/
opaque dmOk : Nat → Bool

end Config

/-- The construction parameters (R8, R101). `periodNs` is the main-clock period of R101; `MAIN_HALF_NS` is half of it. -/
structure Params where
  /-- Main-clock period in ticks; `MAIN_HALF_NS` is half of it (R101). -/
  periodNs : Nat
  /-- `TCK_HALF_MULT`. -/
  tckHalfMult : Nat
  /-- `RESET_TCK_HALVES`. -/
  resetTckHalves : Nat
  /-- `MAX_TIME_NS`, 0 = unbounded. -/
  maxTime : Nat
  /-- `ABITS`, the DMI address width. -/
  abits : Nat
  /-- `DTMCS_IDLE`. -/
  idle : Nat
  /-- `IDCODE_VALUE`. -/
  idcode : Word32
  /-- `IR_CAPTURE`. -/
  irCapture : IrCode
  deriving DecidableEq, Repr

/-- `MAIN_HALF_NS` (R101: "the period divided by 2"). -/
def Params.mainHalf (p : Params) : Nat := p.periodNs / 2

/-- `TCK_HALF_NS` (R8, R101). -/
def Params.tckHalf (p : Params) : Nat := p.tckHalfMult * p.mainHalf

/-- `RESET_NS` (R8, R101). -/
def Params.resetDur (p : Params) : Nat := p.resetTckHalves * p.tckHalf

namespace Config

/-- The parameters `State.reset` is constructed with: the values 95_test_vectors.md states as its defaults. The clock is the
spec's default (R8); `ABITS`, `DTMCS_IDLE`, `IDCODE_VALUE` and `IR_CAPTURE` are open in the spec (DESIGN CHOICE, log entry
4). -/
def defaultParams : Params where
  periodNs := 10
  tckHalfMult := tckHalfMult
  resetTckHalves := resetTckHalves
  maxTime := 0
  abits := 7
  idle := 1
  idcode := 0x1e200a6f#32
  irCapture := 0b00101#5

end Config

/-- One row of the DMI address map (R58): the registers from `lo` to `hi` under one name. -/
structure DmiMapRow where
  lo : Nat
  hi : Nat
  name : String
  deriving DecidableEq, Repr

/-- The DMI address map (R58). The transport does not interpret it (R156); what the registers mean is the Debug Module's
(R6). -/
def Config.dmiMap : List DmiMapRow :=
  [⟨0x04, 0x0f, "data"⟩, ⟨0x10, 0x10, "dmcontrol"⟩, ⟨0x11, 0x11, "dmstatus"⟩, ⟨0x12, 0x12, "hartinfo"⟩,
    ⟨0x13, 0x13, "haltsum1"⟩, ⟨0x14, 0x14, "hawindowsel"⟩, ⟨0x15, 0x15, "hawindow"⟩, ⟨0x16, 0x16, "abstractcs"⟩,
    ⟨0x17, 0x17, "command"⟩, ⟨0x18, 0x18, "abstractauto"⟩, ⟨0x19, 0x1c, "confstrptr"⟩, ⟨0x1d, 0x1d, "nextdm"⟩,
    ⟨0x20, 0x2f, "progbuf"⟩] ++
  [⟨0x30, 0x30, "authdata"⟩, ⟨0x34, 0x34, "haltsum2"⟩, ⟨0x35, 0x35, "haltsum3"⟩, ⟨0x37, 0x37, "sbaddress3"⟩,
    ⟨0x38, 0x38, "sbcs"⟩, ⟨0x39, 0x3b, "sbaddress"⟩, ⟨0x3c, 0x3f, "sbdata"⟩, ⟨0x40, 0x40, "haltsum0"⟩]

end Sys2Proof
end

