-- ==== Sys2Proof/Syntax.lean ====
section
/-! DEFINITION. Syntax.lean: one constructor per row of spec/opcode_table.json, in the table's order.

The rows are of four kinds (R87). An IR code (format IR5) is the host's register access through the data register that code
selects: its operands are the scan length and the DR scan-in (42_jtag_registers.md: "operands (the IR code, the DR scan-in `w`
of `len` bits)"). A DMI op (format DMI) and a DTMCS command (format DR32-DTMCS) are what the device performs at Update-DR on
the word scanned in (R136-R139, R128). A TCK cycle (format CYC) is one pin pair (R70, R157). Log entry 1. -/

namespace Sys2Proof

/-- The instructions. `len` and `wdata` are R160's operands; `addr` and `data` the fields of the DMI register (R39); `u` the
32-bit DTMCS scan word (R128); `tms` and `tdi` the pins of the cycle (R70). -/
inductive Instr where
  /-- `BYPASS0`, IR code 0x00 (R125). -/
  | bypass0 (len : Nat) (wdata : ScanWord)
  /-- `IDCODE`, IR code 0x01 (R126). -/
  | idcode (len : Nat) (wdata : ScanWord)
  /-- `IR_UNUSED_02`, IR code 0x02 (R132). -/
  | irUnused02 (len : Nat) (wdata : ScanWord)
  /-- `IR_UNUSED_03`, IR code 0x03 (R132). -/
  | irUnused03 (len : Nat) (wdata : ScanWord)
  /-- `IR_UNUSED_04`, IR code 0x04 (R132). -/
  | irUnused04 (len : Nat) (wdata : ScanWord)
  /-- `IR_UNUSED_05`, IR code 0x05 (R132). -/
  | irUnused05 (len : Nat) (wdata : ScanWord)
  /-- `IR_UNUSED_06`, IR code 0x06 (R132). -/
  | irUnused06 (len : Nat) (wdata : ScanWord)
  /-- `IR_UNUSED_07`, IR code 0x07 (R132). -/
  | irUnused07 (len : Nat) (wdata : ScanWord)
  /-- `IR_UNUSED_08`, IR code 0x08 (R132). -/
  | irUnused08 (len : Nat) (wdata : ScanWord)
  /-- `IR_UNUSED_09`, IR code 0x09 (R132). -/
  | irUnused09 (len : Nat) (wdata : ScanWord)
  /-- `IR_UNUSED_0A`, IR code 0x0a (R132). -/
  | irUnused0A (len : Nat) (wdata : ScanWord)
  /-- `IR_UNUSED_0B`, IR code 0x0b (R132). -/
  | irUnused0B (len : Nat) (wdata : ScanWord)
  /-- `IR_UNUSED_0C`, IR code 0x0c (R132). -/
  | irUnused0C (len : Nat) (wdata : ScanWord)
  /-- `IR_UNUSED_0D`, IR code 0x0d (R132). -/
  | irUnused0D (len : Nat) (wdata : ScanWord)
  /-- `IR_UNUSED_0E`, IR code 0x0e (R132). -/
  | irUnused0E (len : Nat) (wdata : ScanWord)
  /-- `IR_UNUSED_0F`, IR code 0x0f (R132). -/
  | irUnused0F (len : Nat) (wdata : ScanWord)
  /-- `DTMCS`, IR code 0x10 (R127). -/
  | dtmcs (len : Nat) (wdata : ScanWord)
  /-- `DMIACCESS`, IR code 0x11 (R129). -/
  | dmiaccess (len : Nat) (wdata : ScanWord)
  /-- `IR_UNUSED_12`, IR code 0x12 (R132). -/
  | irUnused12 (len : Nat) (wdata : ScanWord)
  /-- `IR_UNUSED_13`, IR code 0x13 (R132). -/
  | irUnused13 (len : Nat) (wdata : ScanWord)
  /-- `IR_UNUSED_14`, IR code 0x14 (R132). -/
  | irUnused14 (len : Nat) (wdata : ScanWord)
  /-- `IR_UNUSED_15`, IR code 0x15 (R132). -/
  | irUnused15 (len : Nat) (wdata : ScanWord)
  /-- `IR_UNUSED_16`, IR code 0x16 (R132). -/
  | irUnused16 (len : Nat) (wdata : ScanWord)
  /-- `IR_UNUSED_17`, IR code 0x17 (R132). -/
  | irUnused17 (len : Nat) (wdata : ScanWord)
  /-- `IR_UNUSED_18`, IR code 0x18 (R132). -/
  | irUnused18 (len : Nat) (wdata : ScanWord)
  /-- `IR_UNUSED_19`, IR code 0x19 (R132). -/
  | irUnused19 (len : Nat) (wdata : ScanWord)
  /-- `IR_UNUSED_1A`, IR code 0x1a (R132). -/
  | irUnused1A (len : Nat) (wdata : ScanWord)
  /-- `IR_UNUSED_1B`, IR code 0x1b (R132). -/
  | irUnused1B (len : Nat) (wdata : ScanWord)
  /-- `IR_UNUSED_1C`, IR code 0x1c (R132). -/
  | irUnused1C (len : Nat) (wdata : ScanWord)
  /-- `IR_UNUSED_1D`, IR code 0x1d (R132). -/
  | irUnused1D (len : Nat) (wdata : ScanWord)
  /-- `IR_UNUSED_1E`, IR code 0x1e (R132). -/
  | irUnused1E (len : Nat) (wdata : ScanWord)
  /-- `BYPASS1`, IR code 0x1f (R131). -/
  | bypass1 (len : Nat) (wdata : ScanWord)
  /-- `DMI_NOP`, op 0 (R136). -/
  | dmiNop (addr : Nat) (data : Word32)
  /-- `DMI_READ`, op 1 (R137). -/
  | dmiRead (addr : Nat) (data : Word32)
  /-- `DMI_WRITE`, op 2 (R138). -/
  | dmiWrite (addr : Nat) (data : Word32)
  /-- `DMI_OP3_RESERVED`, op 3 (R139). -/
  | dmiOp3 (addr : Nat) (data : Word32)
  /-- `DTMCS_DMIRESET`, bit 16 of the DTMCS word (R128, R144). -/
  | dtmcsDmireset (u : Word32)
  /-- `DTMCS_DMIHARDRESET`, bit 17 of the DTMCS word, alone or with bit 16 (R128, R145, R146). -/
  | dtmcsDmihardreset (u : Word32)
  /-- `TCK_CYCLE` (R157). -/
  | tckCycle (tms tdi : Bool)
  deriving DecidableEq, Repr

end Sys2Proof
end

