-- ==== Sys2Proof/WellFormed.lean ====
section
/-! DEFINITION. WellFormed.lean: which instructions have an encoding, for a device with `abits` DMI address bits. -/

namespace Sys2Proof

/-- A scan of 1 to 64 bits (R73) whose scan-in has no bit above its length. -/
def wfScan (len : Nat) (wdata : ScanWord) : Bool :=
  decide (1 ≤ len) && decide (len ≤ Config.maxScanLen) && decide (wdata.toNat < 2 ^ len)

/-- A DMI address of `abits` bits (R39). -/
def wfAddr (abits addr : Nat) : Bool := decide (addr < 2 ^ abits)

/-- The DTMCS words whose command is DMIRESET: bit 16 set and bit 17 clear (R128). -/
def wfDmireset (u : Word32) : Bool := u.getLsbD 16 && !u.getLsbD 17

/-- The DTMCS words whose command is DMIHARDRESET: bit 17 set, bit 16 either (R128, R146). -/
def wfDmihardreset (u : Word32) : Bool := u.getLsbD 17

/-- The instruction has an encoding. -/
def WellFormed (abits : Nat) (i : Instr) : Bool :=
  match i with
  | .bypass0 len wdata => wfScan len wdata
  | .idcode len wdata => wfScan len wdata
  | .irUnused02 len wdata => wfScan len wdata
  | .irUnused03 len wdata => wfScan len wdata
  | .irUnused04 len wdata => wfScan len wdata
  | .irUnused05 len wdata => wfScan len wdata
  | .irUnused06 len wdata => wfScan len wdata
  | .irUnused07 len wdata => wfScan len wdata
  | .irUnused08 len wdata => wfScan len wdata
  | .irUnused09 len wdata => wfScan len wdata
  | .irUnused0A len wdata => wfScan len wdata
  | .irUnused0B len wdata => wfScan len wdata
  | .irUnused0C len wdata => wfScan len wdata
  | .irUnused0D len wdata => wfScan len wdata
  | .irUnused0E len wdata => wfScan len wdata
  | .irUnused0F len wdata => wfScan len wdata
  | .dtmcs len wdata => wfScan len wdata
  | .dmiaccess len wdata => wfScan len wdata
  | .irUnused12 len wdata => wfScan len wdata
  | .irUnused13 len wdata => wfScan len wdata
  | .irUnused14 len wdata => wfScan len wdata
  | .irUnused15 len wdata => wfScan len wdata
  | .irUnused16 len wdata => wfScan len wdata
  | .irUnused17 len wdata => wfScan len wdata
  | .irUnused18 len wdata => wfScan len wdata
  | .irUnused19 len wdata => wfScan len wdata
  | .irUnused1A len wdata => wfScan len wdata
  | .irUnused1B len wdata => wfScan len wdata
  | .irUnused1C len wdata => wfScan len wdata
  | .irUnused1D len wdata => wfScan len wdata
  | .irUnused1E len wdata => wfScan len wdata
  | .bypass1 len wdata => wfScan len wdata
  | .dmiNop addr _ => wfAddr abits addr
  | .dmiRead addr _ => wfAddr abits addr
  | .dmiWrite addr _ => wfAddr abits addr
  | .dmiOp3 addr _ => wfAddr abits addr
  | .dtmcsDmireset u => wfDmireset u
  | .dtmcsDmihardreset u => wfDmihardreset u
  | .tckCycle _ _ => true

end Sys2Proof
end

