-- ==== Sys2Proof/Decode.lean ====
section
/-! DEFINITION. Decode.lean: words on the wire to instructions, total and rejecting by name, and the encoder beside it; both
from 30_encoding.md. Every list of bits is in the order the bits are shifted, bit 0 first (R55). -/

namespace Sys2Proof

/-! ### Bits and numbers -/

/-- The `n` low bits of `v`, bit 0 first (R10). -/
def natBits : Nat → Nat → Bits
  | 0, _ => []
  | n + 1, v => (v % 2 == 1) :: natBits n (v / 2)

/-- The number whose bits these are, bit 0 first (R10). -/
def bitsVal : Bits → Nat
  | [] => 0
  | b :: bs => b.toNat + 2 * bitsVal bs

/-! ### Words -/

/-- The formats of R69. -/
inductive Format where
  /-- One TCK cycle: the bits are `tms`, `tdi` (R70). -/
  | cyc
  /-- A register access: the 5 bits of the IR scan, then the bits of the DR scan of the same access (R71, R73, R160). -/
  | ir5
  /-- A DR scan word of BYPASS. -/
  | dr1
  /-- A DR scan word of IDCODE. -/
  | dr32Idcode
  /-- A DR scan word of DTMCS (R82). -/
  | dr32Dtmcs
  /-- A DR scan word of the DMI register (R77). -/
  | dmi
  deriving DecidableEq, Repr

/-- A word in a format: its bits in the order they are shifted. -/
structure Word where
  fmt : Format
  bits : Bits
  deriving DecidableEq, Repr

/-- Why a word is no instruction. -/
inductive DecodeError where
  /-- The word has not the number of bits its format has (R69, R73). -/
  | badLength (fmt : Format) (found : Nat)
  /-- A DTMCS word with neither bit 16 nor bit 17 set: no command (R128). -/
  | noCommand
  /-- A DR scan word of BYPASS or IDCODE: the update has no effect, so it carries no instruction (R125, R126). -/
  | noInstruction
  deriving DecidableEq, Repr

/-! ### Fields -/

/-- The op of a DMI word, `op[1:0]` (R77, R78). -/
def dmiOpField (u : Bits) : Nat := bitsVal (u.take 2)

/-- The data of a DMI word, `data[33:2]` (R77). -/
def dmiDataField (u : Bits) : Word32 := BitVec.ofNat 32 (bitsVal ((u.drop 2).take 32))

/-- The address of a DMI word, `address[33+ABITS:34]` (R77). -/
def dmiAddrField (abits : Nat) (u : Bits) : Nat := bitsVal ((u.drop 34).take abits)

/-- The 32 bits of a DTMCS word (R69). -/
def dtmcsField (u : Bits) : Word32 := BitVec.ofNat 32 (bitsVal (u.take 32))

/-! ### Decoding -/

/-- The IR codes (R74, R75), with the operands of the access (R160). -/
def decodeIr (code : IrCode) (len : Nat) (wdata : ScanWord) : Instr :=
  match code.toNat with
  | 0x00 => .bypass0 len wdata
  | 0x01 => .idcode len wdata
  | 0x02 => .irUnused02 len wdata
  | 0x03 => .irUnused03 len wdata
  | 0x04 => .irUnused04 len wdata
  | 0x05 => .irUnused05 len wdata
  | 0x06 => .irUnused06 len wdata
  | 0x07 => .irUnused07 len wdata
  | 0x08 => .irUnused08 len wdata
  | 0x09 => .irUnused09 len wdata
  | 0x0a => .irUnused0A len wdata
  | 0x0b => .irUnused0B len wdata
  | 0x0c => .irUnused0C len wdata
  | 0x0d => .irUnused0D len wdata
  | 0x0e => .irUnused0E len wdata
  | 0x0f => .irUnused0F len wdata
  | 0x10 => .dtmcs len wdata
  | 0x11 => .dmiaccess len wdata
  | 0x12 => .irUnused12 len wdata
  | 0x13 => .irUnused13 len wdata
  | 0x14 => .irUnused14 len wdata
  | 0x15 => .irUnused15 len wdata
  | 0x16 => .irUnused16 len wdata
  | 0x17 => .irUnused17 len wdata
  | 0x18 => .irUnused18 len wdata
  | 0x19 => .irUnused19 len wdata
  | 0x1a => .irUnused1A len wdata
  | 0x1b => .irUnused1B len wdata
  | 0x1c => .irUnused1C len wdata
  | 0x1d => .irUnused1D len wdata
  | 0x1e => .irUnused1E len wdata
  | _ => .bypass1 len wdata

/-- The DMI op codes (R78). -/
def decodeDmi (abits : Nat) (u : Bits) : Instr :=
  match dmiOpField u with
  | 0 => .dmiNop (dmiAddrField abits u) (dmiDataField u)
  | 1 => .dmiRead (dmiAddrField abits u) (dmiDataField u)
  | 2 => .dmiWrite (dmiAddrField abits u) (dmiDataField u)
  | _ => .dmiOp3 (dmiAddrField abits u) (dmiDataField u)

/-- The DTMCS commands (R128): bit 17 first, so both bits set are a hard reset (R146). -/
def decodeDtmcs (u : Word32) : Except DecodeError Instr :=
  if u.getLsbD 17 then .ok (.dtmcsDmihardreset u)
  else if u.getLsbD 16 then .ok (.dtmcsDmireset u)
  else .error .noCommand

/-- The instruction a word stands for, for a device with `abits` DMI address bits. -/
def decode (abits : Nat) (w : Word) : Except DecodeError Instr :=
  match w.fmt with
  | .cyc =>
    match w.bits with
    | [tms, tdi] => .ok (.tckCycle tms tdi)
    | _ => .error (.badLength .cyc w.bits.length)
  | .ir5 =>
    if 6 ≤ w.bits.length && w.bits.length ≤ 5 + Config.maxScanLen then
      .ok (decodeIr (BitVec.ofNat 5 (bitsVal (w.bits.take 5))) (w.bits.length - 5)
        (BitVec.ofNat 64 (bitsVal (w.bits.drop 5))))
    else .error (.badLength .ir5 w.bits.length)
  | .dr1 => .error .noInstruction
  | .dr32Idcode => .error .noInstruction
  | .dr32Dtmcs =>
    if w.bits.length = 32 then decodeDtmcs (dtmcsField w.bits) else .error (.badLength .dr32Dtmcs w.bits.length)
  | .dmi =>
    if w.bits.length = 34 + abits then .ok (decodeDmi abits w.bits) else .error (.badLength .dmi w.bits.length)

/-! ### Encoding -/

/-- A register access on the wire: the IR bits, then the DR bits (R71, R73). -/
def encodeScan (code : IrCode) (len : Nat) (wdata : ScanWord) : Word :=
  ⟨.ir5, natBits 5 code.toNat ++ natBits len wdata.toNat⟩

/-- A DMI word `{address, data, op}`, op in the two least significant bits (R77). -/
def encodeDmi (abits op addr : Nat) (data : Word32) : Word :=
  ⟨.dmi, natBits 2 op ++ (natBits 32 data.toNat ++ natBits abits addr)⟩

/-- A DTMCS word (R69). -/
def encodeDtmcs (u : Word32) : Word := ⟨.dr32Dtmcs, natBits 32 u.toNat⟩

/-- The word of an instruction. -/
def encode (abits : Nat) (i : Instr) : Word :=
  match i with
  | .bypass0 len wdata => encodeScan 0x00#5 len wdata
  | .idcode len wdata => encodeScan 0x01#5 len wdata
  | .irUnused02 len wdata => encodeScan 0x02#5 len wdata
  | .irUnused03 len wdata => encodeScan 0x03#5 len wdata
  | .irUnused04 len wdata => encodeScan 0x04#5 len wdata
  | .irUnused05 len wdata => encodeScan 0x05#5 len wdata
  | .irUnused06 len wdata => encodeScan 0x06#5 len wdata
  | .irUnused07 len wdata => encodeScan 0x07#5 len wdata
  | .irUnused08 len wdata => encodeScan 0x08#5 len wdata
  | .irUnused09 len wdata => encodeScan 0x09#5 len wdata
  | .irUnused0A len wdata => encodeScan 0x0a#5 len wdata
  | .irUnused0B len wdata => encodeScan 0x0b#5 len wdata
  | .irUnused0C len wdata => encodeScan 0x0c#5 len wdata
  | .irUnused0D len wdata => encodeScan 0x0d#5 len wdata
  | .irUnused0E len wdata => encodeScan 0x0e#5 len wdata
  | .irUnused0F len wdata => encodeScan 0x0f#5 len wdata
  | .dtmcs len wdata => encodeScan 0x10#5 len wdata
  | .dmiaccess len wdata => encodeScan 0x11#5 len wdata
  | .irUnused12 len wdata => encodeScan 0x12#5 len wdata
  | .irUnused13 len wdata => encodeScan 0x13#5 len wdata
  | .irUnused14 len wdata => encodeScan 0x14#5 len wdata
  | .irUnused15 len wdata => encodeScan 0x15#5 len wdata
  | .irUnused16 len wdata => encodeScan 0x16#5 len wdata
  | .irUnused17 len wdata => encodeScan 0x17#5 len wdata
  | .irUnused18 len wdata => encodeScan 0x18#5 len wdata
  | .irUnused19 len wdata => encodeScan 0x19#5 len wdata
  | .irUnused1A len wdata => encodeScan 0x1a#5 len wdata
  | .irUnused1B len wdata => encodeScan 0x1b#5 len wdata
  | .irUnused1C len wdata => encodeScan 0x1c#5 len wdata
  | .irUnused1D len wdata => encodeScan 0x1d#5 len wdata
  | .irUnused1E len wdata => encodeScan 0x1e#5 len wdata
  | .bypass1 len wdata => encodeScan 0x1f#5 len wdata
  | .dmiNop addr data => encodeDmi abits 0 addr data
  | .dmiRead addr data => encodeDmi abits 1 addr data
  | .dmiWrite addr data => encodeDmi abits 2 addr data
  | .dmiOp3 addr data => encodeDmi abits 3 addr data
  | .dtmcsDmireset u => encodeDtmcs u
  | .dtmcsDmihardreset u => encodeDtmcs u
  | .tckCycle tms tdi => ⟨.cyc, [tms, tdi]⟩

/-! ### The opcode table's numbering -/

/-- `drlen` (R84, R120): the length of the data register an IR code selects. -/
def drLen (abits : Nat) (code : IrCode) : Nat :=
  if code = 0x01#5 || code = 0x10#5 then 32 else if code = 0x11#5 then 34 + abits else 1

/-- A row of spec/opcode_table.json laid out as the wire has it. The table gives an IR5 row 5 bits, a DMI row 2 and a DTMCS
row 17 or 18; in whole bytes they are told apart by their size, except that the four DMI rows and the IR codes 0 to 3 are
then the same byte, which is read as the IR code (log entry 3). The operand bits the table does not give are zeros: an IR
row's DR scan-in is as long as the data register its code selects. -/
def tableWord (abits nbits w : Nat) : Word :=
  if nbits = 0 then ⟨.cyc, [false, false]⟩
  else if 5 ≤ nbits && nbits ≤ 8 && w < 32 then
    ⟨.ir5, natBits 5 w ++ natBits (drLen abits (BitVec.ofNat 5 w)) 0⟩
  else if 17 ≤ nbits && nbits ≤ 32 then ⟨.dr32Dtmcs, natBits 32 (w % 2 ^ nbits)⟩
  else ⟨.dmi, natBits (34 + abits) (w % 2 ^ nbits)⟩

/-- The instruction the decoder reads from a row's word. -/
def decodeTableWord (nbits w : Nat) : Option Instr :=
  (decode Config.defaultParams.abits (tableWord Config.defaultParams.abits nbits w)).toOption

end Sys2Proof
end

