-- ==== Sys2Proof/Machine/State.lean ====
section
/-! DEFINITION. Machine/State.lean: the state of the four agents (R7): the clock/reset generator G (R23), the host scan engine
H (R25, R26), the device TAP and DTM T (R28, R40) and what the block sees of the Debug Module M (R41, R148); why a step can
stop; and the state after construction (R47-R49). The block has no general registers, no program counter and no memory
(R20, R22, R53). -/

namespace Sys2Proof.Machine

/-- The 16 TAP controller states, in the source's order (R17, R105). -/
inductive TapState where
  | tlr | rti | selDR | capDR | shDR | ex1DR | pauseDR | ex2DR | updDR
  | selIR | capIR | shIR | ex1IR | pauseIR | ex2IR | updIR
  deriving DecidableEq, Repr

/-- The sticky DMI status `t.status` (R40). Code 1 is not among its values (R152). -/
inductive DmiStatus where
  | ok | error | retry
  deriving DecidableEq, Repr

/-- The two requests the Debug Module is handed (R137, R138). -/
inductive ReqOp where
  | read | write
  deriving DecidableEq, Repr

/-- `DmiRequest(op, addr, data)` (R148). The datum of a READ, which the spec leaves out, is 0 (R137). -/
structure DmiRequest where
  op : ReqOp
  addr : Nat
  data : Word32
  deriving DecidableEq, Repr

/-- `t.inflight` (R40): the request handed to M and not yet answered; `remaining` TCK cycles are left. -/
structure Inflight where
  req : DmiRequest
  remaining : Nat
  deriving DecidableEq, Repr

/-- `DmiResponse(rdata, ok)` (R148). -/
structure DmiResponse where
  rdata : Word32
  ok : Bool
  deriving DecidableEq, Repr

/-- The diagnostic `DmiResult(addr, code)` (R176, D42). -/
structure DmiResult where
  addr : Nat
  code : Nat
  deriving DecidableEq, Repr

/-- The clock/reset generator (R23). -/
structure ClockGen where
  /-- `g.tick`: simulated time, 1 tick = 1 ns, unbounded. -/
  tick : Nat
  /-- `g.main_half` = `MAIN_HALF_NS`. -/
  mainHalf : Nat
  /-- `g.tck_half` = `TCK_HALF_NS`. -/
  tckHalf : Nat
  /-- `g.reset_dur` = `RESET_NS`. -/
  resetDur : Nat
  /-- `g.max_time` = `MAX_TIME_NS`, 0 = unbounded. -/
  maxTime : Nat
  /-- `g.clk`: main-clock pin. -/
  clk : Bool
  /-- `g.rst_n`: reset pin, active low. -/
  rstN : Bool
  /-- `g.tck`: TCK pin. -/
  tck : Bool
  /-- `g.last_tck`: the last-sampled TCK level. -/
  lastTck : Bool
  /-- `g.posedge`: TCK rose in the advance just taken. -/
  posedge : Bool
  /-- `g.negedge`: TCK fell in the advance just taken. -/
  negedge : Bool
  /-- `g.finished`: the DUT signalled `$finish`. -/
  finished : Bool
  /-- `g.tms`: input pin written by H. -/
  tms : Bool
  /-- `g.tdi`: input pin written by H. -/
  tdi : Bool
  /-- `g.tdo`: output pin sampled by `eval`. -/
  tdo : Bool
  deriving DecidableEq, Repr

/-- The pin levels the DUT holds since the last `eval` (R93: `DUT.clk`, `DUT.rst_n`, `DUT.tck`, `DUT.tms`, `DUT.tdi`). -/
structure DutPins where
  clk : Bool
  rstN : Bool
  tck : Bool
  tms : Bool
  tdi : Bool
  deriving DecidableEq, Repr

/-- The read-only contents of the device (R8, R30, R31): `ABITS`, `DTMCS_IDLE`, `IDCODE_VALUE`, `IR_CAPTURE`. -/
structure DeviceParams where
  abits : Nat
  idle : Nat
  idcode : Word32
  irCapture : IrCode
  deriving DecidableEq, Repr

/-- The device TAP and DTM (R28, R40). -/
structure Device where
  /-- `t.state`: the TAP controller state. -/
  state : TapState
  /-- `t.ir`: the instruction register. -/
  ir : IrCode
  /-- `t.ir_sr`: the IR shift register. -/
  irSr : IrCode
  /-- `t.dr_sr`: the shift register of the selected DR, bit 0 first; its width is the length of the list (R120). -/
  drSr : Bits
  /-- `t.tdo`: the TDO output latch. -/
  tdo : Bool
  /-- `t.status`: the sticky DMI status. -/
  status : DmiStatus
  /-- `t.inflight`: the request in flight. -/
  inflight : Option Inflight
  /-- `t.resp_addr`: the address of the next DMI capture, `ABITS` bits. -/
  respAddr : Nat
  /-- `t.resp_data`: the data of the next DMI capture. -/
  respData : Word32
  /-- No rising TCK edge has come since `rst_n` rose, or it has not risen (what R123 tests; log entry 17). -/
  fresh : Bool
  /-- The pins as last committed. -/
  pins : DutPins
  /-- The tick at which the DUT signals `$finish`, if it ever does (`DUT.finish` of R93; log entry 9). -/
  finishAt : Option Nat
  /-- The read-only contents. -/
  par : DeviceParams
  deriving DecidableEq, Repr

/-- What the block sees of the Debug Module (R41, R148). -/
structure DebugModule where
  /-- Every request handed to M, oldest first (R64). -/
  requests : List DmiRequest
  /-- `DM_LATENCY` of the next requests; beyond the list's end a free value (log entry 8). -/
  latencies : List Nat
  /-- The next answers; beyond the list's end free values (log entry 8). -/
  answers : List DmiResponse
  deriving DecidableEq, Repr

/-- What the host operation that ended last returned (R160, R159, R173, R189). -/
inductive Ret where
  /-- Nothing has been returned. -/
  | none
  /-- An operation without a value ended normally. -/
  | unit
  /-- The scan-out of a register access, bit 0 first (R165). -/
  | bits (out : Bits)
  /-- The result of `Tap.reset` or `Dtm.reset`, or of a query of G. -/
  | flag (b : Bool)
  /-- The data of `dmi_read`. -/
  | data (v : Word32)
  /-- The TDO sample of one TCK cycle; none if it had no falling edge (R157). -/
  | tdo (b : Option Bool)
  /-- The elapsed simulated time (R104). -/
  | time (ns : Nat)
  /-- The outcome `SimEnded` (R189): no value. -/
  | simEnded
  deriving DecidableEq, Repr

/-- H's position in a Dtm operation: the scan it makes next (R22; R170, R173, R174). -/
inductive Position where
  /-- `Dtm.reset`: `read_reg(0x01, 32)`. -/
  | readIdcode
  /-- `Dtm.reset`: `read_reg(0x10, 32)`. -/
  | readDtmcs
  /-- `Dtm.reset`: `write_reg(0x10, 0x00010000, 32)`. -/
  | clearStatus
  /-- `dmi_read` or `dmi_write`: the request scan. -/
  | request (op : ReqOp) (addr data : Nat)
  /-- `dmi_read` or `dmi_write`: a poll. -/
  | poll (op : ReqOp) (addr : Nat)
  /-- `dmi_read` or `dmi_write`: the DMI reset after a RETRY. -/
  | retryReset (op : ReqOp) (addr : Nat)
  deriving DecidableEq, Repr

/-- The pure queries and getters of G (R94-R97, R99, R104). -/
inductive Query where
  | inReset | tapPosedge | tapNegedge | allDone | tdi | tms | tdo | elapsed
  deriving DecidableEq, Repr

/-- The calls H can be asked for (R19, R88). `accessReg` carries the IR5 word of the access (5 code bits) and its operands;
`cycle` a CYC word. There is no bare advance: G moves only inside these (R179, D26). -/
inductive HostCall where
  /-- `TAPRESET`: `Tap.reset()` (R159). -/
  | tapReset
  /-- `SCAN ir, len, wdata`: `access_reg(ir, wdata, len)` (R160). -/
  | accessReg (ir : IrCode) (wdata : ScanWord) (len : Nat)
  /-- `WR ir, len, wdata`: `write_reg` (R166). -/
  | writeReg (ir : IrCode) (wdata : ScanWord) (len : Nat)
  /-- `RD ir, len`: `read_reg` (R167). -/
  | readReg (ir : IrCode) (len : Nat)
  /-- `IDLE n`: `idle_cycle_count(n)` (R168). -/
  | idleCycleCount (n : Nat)
  /-- `DTMRESET`: `Dtm.reset()` (R170). -/
  | dtmReset
  /-- `dmi_reset()` (R172). -/
  | dmiReset
  /-- `DMIRD addr`: `dmi_read(addr)` (R173). -/
  | dmiRead (addr : Nat)
  /-- `DMIWR addr, data`: `dmi_write(addr, data)` (R174). -/
  | dmiWrite (addr data : Nat)
  /-- `cycle(tms, tdi)` (R157). -/
  | cycle (tms tdi : Bool)
  /-- The setter `tms(b)` (R98). -/
  | setTms (b : Bool)
  /-- The setter `tdi(b)` (R98). -/
  | setTdi (b : Bool)
  /-- `eval()` without an advance (R93). -/
  | eval
  /-- A query of G. -/
  | query (q : Query)
  deriving DecidableEq, Repr

/-- The host scan engine (R25, R26), with its program and its position in it (R22; log entries 2 and 14). -/
structure Engine where
  /-- `h.state`: the host's record of the TAP state. -/
  state : TapState
  /-- `h.last_ir`: the last IR value scanned. -/
  lastIr : IrCode
  /-- `h.idle_cycles`: the dwell count. -/
  idleCycles : Nat
  /-- `h.tms_drv`: the value H last wrote to the TMS setter. -/
  tmsDrv : Bool
  /-- `h.tdi_drv`: the value H last wrote to the TDI setter. -/
  tdiDrv : Bool
  /-- `h.width`: the DMI scan width. -/
  width : Nat
  /-- `h.mask`: the address mask. -/
  mask : Nat
  /-- `h.idcode`: the IDCODE value `Dtm.reset` read. -/
  idcode : Option Word32
  /-- `h.diag`: the diagnostics, oldest first. -/
  diag : List DmiResult
  /-- The value the last operation returned. -/
  ret : Ret
  /-- The Dtm operation in progress, at the scan it makes next. -/
  position : Option Position
  /-- The calls still to be made, the next one first. -/
  program : List HostCall
  deriving DecidableEq, Repr

/-- The machine. -/
structure State where
  /-- The clock/reset generator. -/
  g : ClockGen
  /-- The host scan engine. -/
  h : Engine
  /-- The device TAP and DTM. -/
  t : Device
  /-- The Debug Module, as far as the block sees it. -/
  m : DebugModule
  /-- How many free values have been drawn (the model's own; log entry 7). -/
  free : Nat
  deriving DecidableEq, Repr

/-- `Fault(reason)` (R185): the run is over. -/
inductive Fault where
  /-- `ScanTooLong` (R164, R183), with the length: `access_reg` called with `len > 64`, before any pin changes. Raised by the
  IR-code instructions. Safe: it is the spec's own fatal error. -/
  | scanTooLong (len : Nat)
  deriving DecidableEq, Repr

/-- `refuse(reason)` (R186): the model defines no step. Every one but `notModelled` is a code of R183. -/
inductive Refusal where
  /-- An instruction without a meaning yet; raised by `exec`'s refused arms alone, of which none is left. Safe. -/
  | notModelled (mnemonic : String)
  /-- `ZeroLengthScan` (R164): `access_reg` called with `len = 0`. Raised by the IR-code instructions. Safe. -/
  | zeroLengthScan
  /-- `BadStartState` (R160): `access_reg` called with `h.state` not Run-Test/Idle, Update-DR or Update-IR. Raised by the
  IR-code instructions. Safe. -/
  | badStartState
  /-- `DmiOpReserved` (R139): Update-DR of the DMI register with op 3. Raised by `DMI_OP3_RESERVED`, and by the TCK cycle
  whose falling edge would perform it. Safe. -/
  | dmiOpReserved
  /-- `ResetWindowTms` (R123): TMS = 1 at a rising TCK edge while `rst_n` is low or at the first one after it rises. Raised by
  `eval`. Safe. -/
  | resetWindowTms
  /-- `BadParameter` (R183): a construction parameter violates R9. Raised by construction; and by a wait for a clock edge that
  no tick count can bring, which needs a half-period of 0 (log entry 11). Safe. -/
  | badParameter
  deriving DecidableEq, Repr

/-- The state after construction with the given parameters (R47, R48, R49, R101). The fields whose value the spec calls any
value are 0, and so are the DUT's pins `clk`, `rst_n`, `tms` and `tdi` before the first `eval`, of which R93 gives only `tck`
(DESIGN CHOICE, log entry 6). -/
def State.initial (p : Params) : State where
  g :=
    { tick := 0, mainHalf := p.mainHalf, tckHalf := p.tckHalf, resetDur := p.resetDur, maxTime := p.maxTime,
      clk := false, rstN := false, tck := false, lastTck := false, posedge := false, negedge := false,
      finished := false, tms := false, tdi := false, tdo := false }
  h :=
    { state := .tlr, lastIr := 0#5, idleCycles := Config.drvInitIdle, tmsDrv := false, tdiDrv := false,
      width := Config.drvInitWidth, mask := Config.drvInitMask, idcode := none, diag := [],
      ret := .none, position := none, program := [] }
  t :=
    { state := .tlr, ir := 0x01#5, irSr := 0#5, drSr := List.replicate 32 false, tdo := false, status := .ok,
      inflight := none, respAddr := 0, respData := 0#32, fresh := true,
      pins := { clk := false, rstN := false, tck := false, tms := false, tdi := false }, finishAt := none,
      par := { abits := p.abits, idle := p.idle, idcode := p.idcode, irCapture := p.irCapture } }
  m := { requests := [], latencies := [], answers := [] }
  free := 0

/-- The machine right after construction (R47-R49) with `Config.defaultParams`; no program is placed (log entries 2, 4). -/
def State.reset : State := State.initial Config.defaultParams

end Sys2Proof.Machine
end

