-- ==== Sys2Proof/Machine/Flags.lean ====
section
/-! DEFINITION. Machine/Flags.lean: the flags of the block: G's levels and edge flags (R42, R91, R92) and the DMI status codes
(R43, R78, R79). -/

namespace Sys2Proof.Machine

/-- The level of a clock of half-period `half` at a tick: `(tick div half) mod 2` (R91). -/
def clockLevel (tick half : Nat) : Bool := tick / half % 2 == 1

/-- The level of `rst_n` at a tick (R91): low iff the tick is below the reset duration. -/
def rstNLevel (tick resetDur : Nat) : Bool := !decide (tick < resetDur)

/-- TCK rose between the last-sampled level and the new one (R92). -/
def rose (last now : Bool) : Bool := !last && now

/-- TCK fell between the last-sampled level and the new one (R92). -/
def fell (last now : Bool) : Bool := last && !now

/-- The result code of a status: 0 OK, 2 ERROR, 3 RETRY (R79). -/
def DmiStatus.code : DmiStatus → Nat
  | .ok => 0
  | .error => 2
  | .retry => 3

end Sys2Proof.Machine
end

