-- ==== Sys2Proof/Machine/Operands.lean ====
section
/-! DEFINITION. Machine/Operands.lean: the operand forms of H's scans: packing a DMI request (R80), unpacking its response
(R81), decoding DTMCS (R83), and the pin strings of the scan paths (R161-R163). -/

namespace Sys2Proof.Machine

/-- The op code of a request (R78). -/
def ReqOp.code : ReqOp → Nat
  | .read => 1
  | .write => 2

/-- The scan-in word of a DMI request (R80): `addr & mask` above 34, the low 32 bits of `data` above 2, the op. -/
def packRequest (op addr data mask : Nat) : ScanWord :=
  (BitVec.ofNat 64 (addr &&& mask) <<< 34) ||| (BitVec.ofNat 64 (data &&& 0xffffffff) <<< 2) ||| BitVec.ofNat 64 op

/-- `result = r[1:0]` of a DMI scan-out (R81). -/
def respResult (r : Bits) : Nat := bitsVal (r.take 2)

/-- `data = r[33:2]` of a DMI scan-out (R81). -/
def respDatum (r : Bits) : Word32 := BitVec.ofNat 32 (bitsVal ((r.drop 2).take 32))

/-- `address = r[width-1:34]` of a DMI scan-out (R81). -/
def respAddress (r : Bits) : Nat := bitsVal (r.drop 34)

/-- `abits = d[9:4]` of a DTMCS scan-out (R83). -/
def dtmcsAbits (d : Bits) : Nat := bitsVal ((d.drop 4).take 6)

/-- `idle = d[14:12]` of a DTMCS scan-out (R83). -/
def dtmcsIdle (d : Bits) : Nat := bitsVal ((d.drop 12).take 3)

/-- `version = d[3:0]` of a DTMCS scan-out (R32); H does not test it. -/
def dtmcsVersionField (d : Bits) : Nat := bitsVal (d.take 4)

/-- `dmistat = d[11:10]` of a DTMCS scan-out (R35); H never reads it. -/
def dtmcsDmistat (d : Bits) : Nat := bitsVal ((d.drop 10).take 2)

/-- The fields of an IDCODE value (R30, R69); no rule of the block reads one. -/
structure IdcodeFields where
  version : BitVec 4
  partnumber : BitVec 16
  manufid : BitVec 11
  one : BitVec 1
  deriving DecidableEq, Repr

/-- The split of an IDCODE value (R30): version 31:28, part number 27:12, manufacturer 11:1, bit 0. -/
def idcodeFields (v : Word32) : IdcodeFields where
  version := v.extractLsb' 28 4
  partnumber := v.extractLsb' 12 16
  manufid := v.extractLsb' 1 11
  one := v.extractLsb' 0 1

/-- The DTMCS word of a DMI reset, bit 16 set (R82). -/
def dmiResetWord : ScanWord := 0x00010000#64

/-- The DTMCS word of a DMI hard reset, bit 17 set (R82); H never scans it (conflict C3). -/
def dmiHardResetWord : ScanWord := 0x00020000#64

/-- A TMS/TDI pair of one TCK cycle (R70). -/
abbrev PinPair := Bool × Bool

/-- The Shift cycles of a scan (R71, R73): one bit a cycle, TMS high on the last one. -/
def shiftPins : Bits → List PinPair
  | [] => []
  | [b] => [(true, b)]
  | b :: bs => (false, b) :: shiftPins bs

/-- The IR path (R161): TMS `1100000011`, TDI `0000`, the code, `0`. -/
def irPins (code : IrCode) : List PinPair :=
  [(true, false), (true, false), (false, false), (false, false)] ++ shiftPins (natBits 5 code.toNat) ++ [(true, false)]

/-- The dwell path (R162): `1 + idle_cycles` cycles with TMS low. -/
def dwellPins (idleCycles : Nat) : List PinPair := List.replicate (1 + idleCycles) (false, false)

/-- The DR path (R163): TMS `100`, the shift cycles, `1`. -/
def drPins (wdata : ScanWord) (len : Nat) : List PinPair :=
  [(true, false), (false, false), (false, false)] ++ shiftPins (natBits len wdata.toNat) ++ [(true, false)]

end Sys2Proof.Machine
end

