-- ==== Sys2Proof/Machine/Ops.lean ====
section
/-! DEFINITION. Machine/Ops.lean: the named operations over the state: construction and G's operations (40_clock_reset.md), the
TAP graph (R106), the device's capture, shift and reset actions (41_tap_fsm.md), the DTM's status and requests
(43_dtm_dmi.md). The block takes no exceptions (R187): its one fault and its refusals change no state. -/

namespace Sys2Proof.Machine

/-- The outcome of a step of this machine. -/
abbrev Out := Host.Outcome State Fault Refusal

/-! ### Construction -/

/-- The constraints a construction parameter set must meet (R8, R9; log entry 5). -/
def Params.valid (p : Params) : Bool :=
  decide (p.periodNs % 2 = 0) && decide (1 ≤ p.mainHalf) && decide (1 ≤ p.tckHalfMult) && decide (1 ≤ p.resetTckHalves) &&
    (decide (7 ≤ p.abits) && decide (p.abits ≤ 30) && decide (p.idle ≤ 7)) &&
    (decide (p.idcode ≠ 0#32) && p.idcode.getLsbD 0) &&
    (p.irCapture.getLsbD 0 && !p.irCapture.getLsbD 1)

/-- Construction (R101, D51): refused with `BadParameter` where a parameter violates R9. -/
def construct (p : Params) : Out :=
  if Params.valid p then .next (State.initial p) else .refused .badParameter

/-! ### G: clock and reset (40_clock_reset.md) -/

/-- `advance_half_period()` (R91, R92). -/
def advance (s : State) : State :=
  let tick := s.g.tick + s.g.mainHalf
  let tck := clockLevel tick s.g.tckHalf
  { s with
    g := { s.g with
      tick := tick
      clk := clockLevel tick s.g.mainHalf
      tck := tck
      rstN := rstNLevel tick s.g.resetDur
      posedge := rose s.g.lastTck tck
      negedge := fell s.g.lastTck tck
      lastTck := tck } }

/-- `in_reset()` (R94). -/
def inReset (s : State) : Bool := !s.g.rstN

/-- `tap_posedge()` (R95). -/
def tapPosedge (s : State) : Bool := s.g.posedge

/-- `tap_negedge()` (R96). -/
def tapNegedge (s : State) : Bool := s.g.negedge

/-- `all_done()` (R97). -/
def allDone (s : State) : Bool :=
  s.g.finished || (!decide (s.g.maxTime = 0) && decide (s.g.maxTime ≤ s.g.tick))

/-- The elapsed simulated time (R104). -/
def elapsed (s : State) : Nat := s.g.tick

/-- The setter `tms(b)` (R98), which H records (R25). -/
def setTms (b : Bool) (s : State) : State :=
  { s with g := { s.g with tms := b }, h := { s.h with tmsDrv := b } }

/-- The setter `tdi(b)` (R98), which H records (R25). -/
def setTdi (b : Bool) (s : State) : State :=
  { s with g := { s.g with tdi := b }, h := { s.h with tdiDrv := b } }

/-- H drives both pins (R98, R157). -/
def drive (tms tdi : Bool) (s : State) : State := setTdi tdi (setTms tms s)

/-! ### The TAP graph (R105-R107) -/

/-- `next(s, tms)` (R106), all 32 entries. -/
def nextTap : TapState → Bool → TapState
  | .tlr, false => .rti
  | .tlr, true => .tlr
  | .rti, false => .rti
  | .rti, true => .selDR
  | .selDR, false => .capDR
  | .selDR, true => .selIR
  | .capDR, false => .shDR
  | .capDR, true => .ex1DR
  | .shDR, false => .shDR
  | .shDR, true => .ex1DR
  | .ex1DR, false => .pauseDR
  | .ex1DR, true => .updDR
  | .pauseDR, false => .pauseDR
  | .pauseDR, true => .ex2DR
  | .ex2DR, false => .shDR
  | .ex2DR, true => .updDR
  | .updDR, false => .rti
  | .updDR, true => .selDR
  | .selIR, false => .capIR
  | .selIR, true => .tlr
  | .capIR, false => .shIR
  | .capIR, true => .ex1IR
  | .shIR, false => .shIR
  | .shIR, true => .ex1IR
  | .ex1IR, false => .pauseIR
  | .ex1IR, true => .updIR
  | .pauseIR, false => .pauseIR
  | .pauseIR, true => .ex2IR
  | .ex2IR, false => .shIR
  | .ex2IR, true => .updIR
  | .updIR, false => .rti
  | .updIR, true => .selDR

/-- The ordinal of a TAP state (R86); no rule reads it. -/
def TapState.ordinal : TapState → Nat
  | .tlr => 0 | .rti => 1 | .selDR => 2 | .capDR => 3 | .shDR => 4 | .ex1DR => 5 | .pauseDR => 6 | .ex2DR => 7
  | .updDR => 8 | .selIR => 9 | .capIR => 10 | .shIR => 11 | .ex1IR => 12 | .pauseIR => 13 | .ex2IR => 14 | .updIR => 15

/-! ### T: the data registers (R116, R117, R120) -/

/-- The DTMCS register as captured (R31, R127). -/
def dtmcsValue (t : Device) : Word32 :=
  0#14 ++ 0#1 ++ 0#1 ++ 0#1 ++ BitVec.ofNat 3 t.par.idle ++ BitVec.ofNat 2 t.status.code ++ BitVec.ofNat 6 t.par.abits ++
    BitVec.ofNat 4 Config.dtmcsVersion

/-- The DMI register as captured (R142): `{resp_addr[ABITS-1:0], resp_data, result}`. -/
def dmiCapture (t : Device) : Bits :=
  natBits 2 t.status.code ++ (natBits 32 t.respData.toNat ++ natBits t.par.abits t.respAddr)

/-- The first line of R142: a capture that meets a request in flight makes RETRY sticky. -/
def noteBusy (t : Device) : Device :=
  if t.inflight.isSome && t.status == .ok then { t with status := .retry } else t

/-- Capture-DR (R116): IDCODE (R126), DTMCS (R127), the DMI register (R142), or BYPASS, which captures 0 (R125). -/
def captureDr (t : Device) : Device :=
  if t.ir = 0x01#5 then { t with drSr := natBits 32 t.par.idcode.toNat }
  else if t.ir = 0x10#5 then { t with drSr := natBits 32 (dtmcsValue t).toNat }
  else if t.ir = 0x11#5 then { noteBusy t with drSr := dmiCapture (noteBusy t) }
  else { t with drSr := [false] }

/-- Shift-IR (R115): TDI enters at bit 4. -/
def shiftIr (tdi : Bool) (t : Device) : Device :=
  { t with irSr := BitVec.cons tdi (t.irSr.extractLsb' 1 4) }

/-- Shift-DR (R117): TDI enters at the top, bit 0 leaves. -/
def shiftDr (tdi : Bool) (t : Device) : Device :=
  { t with drSr := t.drSr.drop 1 ++ [tdi] }

/-- The posedge actions of a TAP state (R113-R118); the other states have none (R118). -/
def posedgeAction (t : Device) : Device :=
  match t.state with
  | .tlr => { t with ir := 0x01#5 }
  | .capIR => { t with irSr := t.par.irCapture }
  | .shIR => shiftIr t.pins.tdi t
  | .capDR => captureDr t
  | .shDR => shiftDr t.pins.tdi t
  | .rti | .selDR | .ex1DR | .pauseDR | .ex2DR | .updDR | .selIR | .ex1IR | .pauseIR | .ex2IR | .updIR => t

/-! ### T: the DTM (43_dtm_dmi.md) -/

/-- R141: an op updated while a request is in flight is dropped and sets RETRY. The same test and effect as `noteBusy`. -/
def dropBusy (s : State) : State := { s with t := noteBusy s.t }

/-- `DM_LATENCY` of the next request (R148). -/
def drawLatency (s : State) : Nat :=
  match s.m.latencies with
  | [] => Config.dmLatency s.free
  | d :: _ => d

/-- `DmiResponse` to the request in flight (R148). -/
def drawResponse (s : State) : DmiResponse :=
  match s.m.answers with
  | [] => ⟨Config.dmReadData s.free, Config.dmOk s.free⟩
  | a :: _ => a

/-- `DmiRequest(op, addr, data)` (R137, R138): the request is in flight, its address is the next capture's, M has it. -/
def sendRequest (r : DmiRequest) (s : State) : State :=
  { s with
    t := { s.t with inflight := some ⟨r, drawLatency s⟩, respAddr := r.addr }
    m := { s.m with requests := s.m.requests ++ [r], latencies := s.m.latencies.drop 1 }
    free := s.free + 1 }

/-- A READ or WRITE at Update-DR (R137, R138, R140, R141). -/
def dmiRequestUpdate (r : DmiRequest) (s : State) : State :=
  if s.t.status ≠ .ok then s
  else if s.t.inflight.isSome then dropBusy s
  else sendRequest r s

/-- `DmiReset` (R144): the status is cleared, a request in flight is kept. -/
def dmiStatusReset (s : State) : State := { s with t := { s.t with status := .ok } }

/-- `DmiHardReset` (R145): the status is cleared and a request in flight abandoned. -/
def dmiHardReset (s : State) : State := { s with t := { s.t with status := .ok, inflight := none } }

/-- M's answer to the request in flight arrives (R147). -/
def complete (op : ReqOp) (s : State) : State :=
  let a := drawResponse s
  { s with
    t := { s.t with
      respData := match op with
        | .read => a.rdata
        | .write => Config.freeRespData s.free
      status := if !a.ok && s.t.status == .ok then .error else s.t.status
      inflight := none }
    m := { s.m with answers := s.m.answers.drop 1 }
    free := s.free + 1 }

/-- The request in flight at a rising TCK edge (R147). -/
def tickInflight (s : State) : State :=
  match s.t.inflight with
  | none => s
  | some q =>
    match q.remaining with
    | 0 => complete q.req.op s
    | r + 1 => { s with t := { s.t with inflight := some { q with remaining := r } } }

/-! ### T: reset and edges (R108-R119) -/

/-- `T.reset()` (R108, R154, R49): every field without a reset value takes a free value. -/
def deviceReset (s : State) : State :=
  { s with
    t := { s.t with
      state := .tlr
      ir := 0x01#5
      irSr := Config.freeIrSr s.free
      drSr := natBits 32 (Config.freeDrSr s.free).toNat
      tdo := Config.freeTdo s.free
      status := .ok
      inflight := none
      respAddr := Config.freeRespAddr s.free % 2 ^ s.t.par.abits
      respData := Config.freeRespData s.free
      fresh := true }
    free := s.free + 1 }

/-- The pins `eval` commits to the DUT (R93). -/
def commitPins (s : State) : State :=
  { s with t := { s.t with pins := ⟨s.g.clk, s.g.rstN, s.g.tck, s.g.tms, s.g.tdi⟩ } }

/-- The negedge TDO action (R110); outside the Shift states TDO is any value (R124). -/
def driveTdo (s : State) : State :=
  match s.t.state with
  | .shIR => { s with t := { s.t with tdo := s.t.irSr.getLsbD 0 } }
  | .shDR => { s with t := { s.t with tdo := s.t.drSr.headD false } }
  | .tlr | .rti | .selDR | .capDR | .ex1DR | .pauseDR | .ex2DR | .updDR | .selIR | .capIR | .ex1IR | .pauseIR | .ex2IR
  | .updIR => { s with t := { s.t with tdo := Config.freeTdo s.free }, free := s.free + 1 }

/-- Update-IR (R111): the IR takes the shift register. -/
def updateIr (s : State) : State := { s with t := { s.t with ir := s.t.irSr } }

/-- `T.posedge_step()` with `rst_n` high (R113-R119, R147): TMS = 1 is refused at the first rising edge after reset (R123);
then the action of the state, the request in flight, the transition. -/
def posedgeStep (s : State) : Out :=
  if s.t.fresh && s.t.pins.tms then .refused .resetWindowTms
  else
    let s₁ := tickInflight { s with t := posedgeAction s.t }
    .next { s₁ with t := { s₁.t with state := nextTap s.t.state s.t.pins.tms, fresh := false } }

/-- An `eval` with `rst_n` low (R108, R123): a rising edge with TMS = 1 is refused, otherwise the device is held in reset. -/
def resetStep (rising : Bool) (s : State) : Out :=
  if rising && s.t.pins.tms then .refused .resetWindowTms else .next (deviceReset s)

/-- The end of `eval` (R93): TDO and `$finish` are sampled. -/
def sampleOutputs (s : State) : State :=
  { s with
    g := { s.g with
      tdo := s.t.tdo
      finished := s.g.finished || (match s.t.finishAt with
        | none => false
        | some k => decide (k ≤ s.g.tick)) } }

end Sys2Proof.Machine
end

