-- ==== Sys2Proof/Machine/DmiOps.lean ====
section
/-! DEFINITION. Machine/DmiOps.lean: the meanings of the DMI ops and the DTMCS commands: what the device performs at Update-DR
on the word scanned in (R112, R128, R130, R136-R146). -/

namespace Sys2Proof.Machine

/-- `DMI_NOP` (R136): nothing is sent; met by a request in flight it sets RETRY (R141). -/
def execDmiNop (_addr : Nat) (_data : Word32) (s : State) : Out := .next (dropBusy s)

/-- `DMI_READ` (R137); the data field is ignored. -/
def execDmiRead (addr : Nat) (_data : Word32) (s : State) : Out := .next (dmiRequestUpdate ⟨.read, addr, 0#32⟩ s)

/-- `DMI_WRITE` (R138). -/
def execDmiWrite (addr : Nat) (data : Word32) (s : State) : Out := .next (dmiRequestUpdate ⟨.write, addr, data⟩ s)

/-- `DMI_OP3_RESERVED` (R139, R78): refused. -/
def execDmiOp3 (_addr : Nat) (_data : Word32) (_s : State) : Out := .refused .dmiOpReserved

/-- `DTMCS_DMIRESET` (R128, R144); every other bit of the word is ignored. -/
def execDtmcsDmireset (_u : Word32) (s : State) : Out := .next (dmiStatusReset s)

/-- `DTMCS_DMIHARDRESET` (R128, R145, R146); every other bit of the word is ignored. -/
def execDtmcsDmihardreset (_u : Word32) (s : State) : Out := .next (dmiHardReset s)

/-- Update-DR of the DMI register (R130) with its shift register `u`. -/
def updateDmi (u : Bits) (s : State) : Out :=
  match dmiOpField u with
  | 0 => execDmiNop (dmiAddrField s.t.par.abits u) (dmiDataField u) s
  | 1 => execDmiRead (dmiAddrField s.t.par.abits u) (dmiDataField u) s
  | 2 => execDmiWrite (dmiAddrField s.t.par.abits u) (dmiDataField u) s
  | _ => execDmiOp3 (dmiAddrField s.t.par.abits u) (dmiDataField u) s

/-- Update-DR of DTMCS (R128) with its shift register `u`: bit 17 first (R146); with neither bit nothing happens. -/
def updateDtmcs (u : Word32) (s : State) : Out :=
  if u.getLsbD 17 then execDtmcsDmihardreset u s
  else if u.getLsbD 16 then execDtmcsDmireset u s
  else .next s

/-- Update-DR (R112): the update action of the register the IR selects; BYPASS and IDCODE have none (R125, R126). -/
def updateDr (s : State) : Out :=
  if s.t.ir = 0x11#5 then updateDmi s.t.drSr s
  else if s.t.ir = 0x10#5 then updateDtmcs (dtmcsField s.t.drSr) s
  else .next s

/-- `T.negedge_step()` (R109-R112): TDO, then the update action of an Update state. -/
def negedgeStep (s : State) : Out :=
  match s.t.state with
  | .updIR => .next (updateIr (driveTdo s))
  | .updDR => updateDr (driveTdo s)
  | .tlr | .rti | .selDR | .capDR | .shDR | .ex1DR | .pauseDR | .ex2DR | .selIR | .capIR | .shIR | .ex1IR | .pauseIR | .ex2IR
      => .next (driveTdo s)

end Sys2Proof.Machine
end

