-- ==== Sys2Proof/Machine/Scan.lean ====
section
/-! DEFINITION. Machine/Scan.lean: `eval` (R93), the TCK cycle (R157), `Tap.reset` (R159) and the register access with its
paths (R160-R165). -/

namespace Sys2Proof.Machine

/-- How a part of a host operation ends: with a value, with the outcome `SimEnded` (R189) and the state as it stood, or with
a fault or refusal. -/
inductive Run (α : Type) where
  | done (a : α) (s : State)
  | ended (s : State)
  | faulted (r : Fault)
  | refused (r : Refusal)
  deriving Repr

/-- The device's part of `eval` (R93), after the pins are committed; `prev` is the TCK level it last saw. -/
def deviceStep (prev : Bool) (s : State) : Out :=
  if !s.g.rstN then resetStep (rose prev s.t.pins.tck) s
  else if fell prev s.t.pins.tck then negedgeStep s
  else if rose prev s.t.pins.tck then posedgeStep s
  else .next s

/-- `eval()` (R93). -/
def eval (s : State) : Out :=
  match deviceStep s.t.pins.tck (commitPins s) with
  | .next s' => .next (sampleOutputs s')
  | .fault r => .fault r
  | .refused r => .refused r

/-- `advance()` of R12: `advance_half_period()`, then `eval()`. -/
def advanceEval (s : State) : Out := eval (advance s)

/-- `repeat advance until tap_posedge()`, ended where `all_done()` is true before an advance (R157, R159, R184); `tdo` is the
sample of the last falling edge so far. The count bounds the advances: one half-period is at least one tick (log entry 11). -/
def untilPosedge : Nat → Option Bool → State → Run (Option Bool)
  | 0, _, _ => .refused .badParameter
  | n + 1, tdo, s =>
    if allDone s then .ended s
    else
      match advanceEval s with
      | .next s' =>
        let tdo' := if tapNegedge s' then some s'.g.tdo else tdo
        if tapPosedge s' then .done tdo' s' else untilPosedge n tdo' s'
      | .fault r => .faulted r
      | .refused r => .refused r

/-- The first loop of `Tap.reset` (R159): `repeat advance until not in_reset()`. -/
def untilOutOfReset : Nat → State → Run Unit
  | 0, _ => .refused .badParameter
  | n + 1, s =>
    if allDone s then .ended s
    else
      match advanceEval s with
      | .next s' => if inReset s' then untilOutOfReset n s' else .done () s'
      | .fault r => .faulted r
      | .refused r => .refused r

/-- More advances than two TCK half-periods can take. -/
def edgeBound (s : State) : Nat := 2 * s.g.tckHalf + 1

/-- H's record of the TAP state moves as the device's does (R158). -/
def mirror (tms : Bool) (s : State) : State := { s with h := { s.h with state := nextTap s.h.state tms } }

/-- `cycle(tms, tdi)` (R157, R158): its value is the TDO sample of the falling edge, none if there was none. -/
def cycle (tms tdi : Bool) (s : State) : Run (Option Bool) :=
  match untilPosedge (edgeBound s) none (drive tms tdi s) with
  | .done b s' => .done b (mirror tms s')
  | .ended s' => .ended s'
  | .faulted r => .faulted r
  | .refused r => .refused r

/-- A path: its TCK cycles in order, with the TDO samples. -/
def runPins : List PinPair → State → Run (List (Option Bool))
  | [], s => .done [] s
  | p :: ps, s =>
    match cycle p.1 p.2 s with
    | .done b s' =>
      match runPins ps s' with
      | .done bs s'' => .done (b :: bs) s''
      | .ended s'' => .ended s''
      | .faulted r => .faulted r
      | .refused r => .refused r
    | .ended s' => .ended s'
    | .faulted r => .faulted r
    | .refused r => .refused r

/-- What H reads from a sample: a cycle without a falling edge gives a free value (log entry 12). -/
def sampleBit (i : Nat) (b : Option Bool) : Bool := b.getD (Config.freeSample i)

/-- The scan-out (R165): the samples of the Shift-DR cycles of a DR path, bit 0 first; the others are discarded. -/
def scanOut (len : Nat) (samples : List (Option Bool)) : Bits := ((samples.drop 3).take len).mapIdx sampleBit

/-- H records the IR it scanned (R169). -/
def noteIr (code : IrCode) (s : State) : State := { s with h := { s.h with lastIr := code } }

/-- The first part of an access (R160): the IR path (R161) if the last IR differs, otherwise the dwell path (R162). -/
def irOrDwell (code : IrCode) (s : State) : Run Unit :=
  if code ≠ s.h.lastIr then
    match runPins (irPins code) s with
    | .done _ s' => .done () (noteIr code s')
    | .ended s' => .ended s'
    | .faulted r => .faulted r
    | .refused r => .refused r
  else
    match runPins (dwellPins s.h.idleCycles) s with
    | .done _ s' => .done () s'
    | .ended s' => .ended s'
    | .faulted r => .faulted r
    | .refused r => .refused r

/-- The states an access starts from (R160): the ones H leaves the TAP in. -/
def startState (x : TapState) : Bool := x == .rti || x == .updDR || x == .updIR

/-- H's operation returns. -/
def setRet (r : Ret) (s : State) : State := { s with h := { s.h with ret := r } }

/-- The cycles of an access (R160, R163), after its checks. -/
def accessScan (code : IrCode) (wdata : ScanWord) (len : Nat) (s : State) : Run Bits :=
  match irOrDwell code s with
  | .done _ s₁ =>
    match runPins (drPins wdata len) s₁ with
    | .done samples s₂ => .done (scanOut len samples) s₂
    | .ended s₂ => .ended s₂
    | .faulted r => .faulted r
    | .refused r => .refused r
  | .ended s₁ => .ended s₁
  | .faulted r => .faulted r
  | .refused r => .refused r

/-- `access_reg(ir, wdata, len)` (R160, R164, R184): the checks, in their order, precede every pin change; then the scan, whose
value is its scan-out, or `SimEnded` (R178). -/
def accessReg (code : IrCode) (wdata : ScanWord) (len : Nat) (s : State) : Out :=
  if Config.maxScanLen < len then .fault (.scanTooLong len)
  else if len = 0 then .refused .zeroLengthScan
  else if !startState s.h.state then .refused .badStartState
  else
    match accessScan code wdata len s with
    | .done out s' => .next (setRet (.bits out) s')
    | .ended s' => .next (setRet .simEnded s')
    | .faulted r => .fault r
    | .refused r => .refused r

/-- `Tap.reset()` (R159): TMS and TDI low through the reset window and to the first rising edge after it; `false` if the
simulation ends before that. -/
def tapReset (s : State) : Out :=
  match untilOutOfReset (s.g.resetDur + 1) (drive false false s) with
  | .done _ s₁ =>
    match untilPosedge (edgeBound s₁) none s₁ with
    | .done _ s₂ => .next (setRet (.flag true) (mirror false s₂))
    | .ended s₂ => .next (setRet (.flag false) s₂)
    | .faulted r => .fault r
    | .refused r => .refused r
  | .ended s₁ => .next (setRet (.flag false) s₁)
  | .faulted r => .fault r
  | .refused r => .refused r

end Sys2Proof.Machine
end

