-- ==== Sys2Proof/Machine/Registers.lean ====
section
/-! DEFINITION. Machine/Registers.lean: the meanings of the IR codes (42_jtag_registers.md): the register access through the
data register the code selects. The code decides the capture (`captureDr`), the length (the captured list's) and the update
(`updateDr`). -/

namespace Sys2Proof.Machine

/-- `BYPASS0` (R125): an access through BYPASS. -/
def execBypass0 (len : Nat) (wdata : ScanWord) (s : State) : Out := accessReg 0x00#5 wdata len s

/-- `IDCODE` (R126): an access through IDCODE. -/
def execIdcode (len : Nat) (wdata : ScanWord) (s : State) : Out := accessReg 0x01#5 wdata len s

/-- `IR_UNUSED_02` (R132): an access through BYPASS (R75). -/
def execIrUnused02 (len : Nat) (wdata : ScanWord) (s : State) : Out := accessReg 0x02#5 wdata len s

/-- `IR_UNUSED_03` (R132): an access through BYPASS (R75). -/
def execIrUnused03 (len : Nat) (wdata : ScanWord) (s : State) : Out := accessReg 0x03#5 wdata len s

/-- `IR_UNUSED_04` (R132): an access through BYPASS (R75). -/
def execIrUnused04 (len : Nat) (wdata : ScanWord) (s : State) : Out := accessReg 0x04#5 wdata len s

/-- `IR_UNUSED_05` (R132): an access through BYPASS (R75). -/
def execIrUnused05 (len : Nat) (wdata : ScanWord) (s : State) : Out := accessReg 0x05#5 wdata len s

/-- `IR_UNUSED_06` (R132): an access through BYPASS (R75). -/
def execIrUnused06 (len : Nat) (wdata : ScanWord) (s : State) : Out := accessReg 0x06#5 wdata len s

/-- `IR_UNUSED_07` (R132): an access through BYPASS (R75). -/
def execIrUnused07 (len : Nat) (wdata : ScanWord) (s : State) : Out := accessReg 0x07#5 wdata len s

/-- `IR_UNUSED_08` (R132): an access through BYPASS (R75). -/
def execIrUnused08 (len : Nat) (wdata : ScanWord) (s : State) : Out := accessReg 0x08#5 wdata len s

/-- `IR_UNUSED_09` (R132): an access through BYPASS (R75). -/
def execIrUnused09 (len : Nat) (wdata : ScanWord) (s : State) : Out := accessReg 0x09#5 wdata len s

/-- `IR_UNUSED_0A` (R132): an access through BYPASS (R75). -/
def execIrUnused0A (len : Nat) (wdata : ScanWord) (s : State) : Out := accessReg 0x0a#5 wdata len s

/-- `IR_UNUSED_0B` (R132): an access through BYPASS (R75). -/
def execIrUnused0B (len : Nat) (wdata : ScanWord) (s : State) : Out := accessReg 0x0b#5 wdata len s

/-- `IR_UNUSED_0C` (R132): an access through BYPASS (R75). -/
def execIrUnused0C (len : Nat) (wdata : ScanWord) (s : State) : Out := accessReg 0x0c#5 wdata len s

/-- `IR_UNUSED_0D` (R132): an access through BYPASS (R75). -/
def execIrUnused0D (len : Nat) (wdata : ScanWord) (s : State) : Out := accessReg 0x0d#5 wdata len s

/-- `IR_UNUSED_0E` (R132): an access through BYPASS (R75). -/
def execIrUnused0E (len : Nat) (wdata : ScanWord) (s : State) : Out := accessReg 0x0e#5 wdata len s

/-- `IR_UNUSED_0F` (R132): an access through BYPASS (R75). -/
def execIrUnused0F (len : Nat) (wdata : ScanWord) (s : State) : Out := accessReg 0x0f#5 wdata len s

/-- `DTMCS` (R127): an access through DTMCS; a command bit of the scan-in acts at Update-DR (R128). -/
def execDtmcs (len : Nat) (wdata : ScanWord) (s : State) : Out := accessReg 0x10#5 wdata len s

/-- `DMIACCESS` (R129): an access through the DMI register; the op of the scan-in acts at Update-DR (R130). -/
def execDmiaccess (len : Nat) (wdata : ScanWord) (s : State) : Out := accessReg 0x11#5 wdata len s

/-- `IR_UNUSED_12` (R132): an access through BYPASS (R75). -/
def execIrUnused12 (len : Nat) (wdata : ScanWord) (s : State) : Out := accessReg 0x12#5 wdata len s

/-- `IR_UNUSED_13` (R132): an access through BYPASS (R75). -/
def execIrUnused13 (len : Nat) (wdata : ScanWord) (s : State) : Out := accessReg 0x13#5 wdata len s

/-- `IR_UNUSED_14` (R132): an access through BYPASS (R75). -/
def execIrUnused14 (len : Nat) (wdata : ScanWord) (s : State) : Out := accessReg 0x14#5 wdata len s

/-- `IR_UNUSED_15` (R132): an access through BYPASS (R75). -/
def execIrUnused15 (len : Nat) (wdata : ScanWord) (s : State) : Out := accessReg 0x15#5 wdata len s

/-- `IR_UNUSED_16` (R132): an access through BYPASS (R75). -/
def execIrUnused16 (len : Nat) (wdata : ScanWord) (s : State) : Out := accessReg 0x16#5 wdata len s

/-- `IR_UNUSED_17` (R132): an access through BYPASS (R75). -/
def execIrUnused17 (len : Nat) (wdata : ScanWord) (s : State) : Out := accessReg 0x17#5 wdata len s

/-- `IR_UNUSED_18` (R132): an access through BYPASS (R75). -/
def execIrUnused18 (len : Nat) (wdata : ScanWord) (s : State) : Out := accessReg 0x18#5 wdata len s

/-- `IR_UNUSED_19` (R132): an access through BYPASS (R75). -/
def execIrUnused19 (len : Nat) (wdata : ScanWord) (s : State) : Out := accessReg 0x19#5 wdata len s

/-- `IR_UNUSED_1A` (R132): an access through BYPASS (R75). -/
def execIrUnused1A (len : Nat) (wdata : ScanWord) (s : State) : Out := accessReg 0x1a#5 wdata len s

/-- `IR_UNUSED_1B` (R132): an access through BYPASS (R75). -/
def execIrUnused1B (len : Nat) (wdata : ScanWord) (s : State) : Out := accessReg 0x1b#5 wdata len s

/-- `IR_UNUSED_1C` (R132): an access through BYPASS (R75). -/
def execIrUnused1C (len : Nat) (wdata : ScanWord) (s : State) : Out := accessReg 0x1c#5 wdata len s

/-- `IR_UNUSED_1D` (R132): an access through BYPASS (R75). -/
def execIrUnused1D (len : Nat) (wdata : ScanWord) (s : State) : Out := accessReg 0x1d#5 wdata len s

/-- `IR_UNUSED_1E` (R132): an access through BYPASS (R75). -/
def execIrUnused1E (len : Nat) (wdata : ScanWord) (s : State) : Out := accessReg 0x1e#5 wdata len s

/-- `BYPASS1` (R131): an access through BYPASS. -/
def execBypass1 (len : Nat) (wdata : ScanWord) (s : State) : Out := accessReg 0x1f#5 wdata len s

end Sys2Proof.Machine
end

