-- ==== Sys2Proof/Machine/Tck.lean ====
section
/-! DEFINITION. Machine/Tck.lean: the meaning of the TCK cycle (R157). -/

namespace Sys2Proof.Machine

/-- `TCK_CYCLE` (R157, R158): its value is the TDO sample; `SimEnded` if the simulation ends inside it (R189). -/
def execTckCycle (tms tdi : Bool) (s : State) : Out :=
  match cycle tms tdi s with
  | .done b s' => .next (setRet (.tdo b) s')
  | .ended s' => .next (setRet .simEnded s')
  | .faulted r => .fault r
  | .refused r => .refused r

end Sys2Proof.Machine
end

