-- ==== Sys2Proof/Machine/Dispatch.lean ====
section
/-! DEFINITION. Machine/Dispatch.lean: one arm per instruction. -/

namespace Sys2Proof.Machine

def exec (i : Instr) (s : State) : Host.Outcome State Fault Refusal :=
  match i with
  | .bypass0 len wdata => Sys2Proof.Machine.execBypass0 len wdata s
  | .idcode len wdata => Sys2Proof.Machine.execIdcode len wdata s
  | .irUnused02 len wdata => Sys2Proof.Machine.execIrUnused02 len wdata s
  | .irUnused03 len wdata => Sys2Proof.Machine.execIrUnused03 len wdata s
  | .irUnused04 len wdata => Sys2Proof.Machine.execIrUnused04 len wdata s
  | .irUnused05 len wdata => Sys2Proof.Machine.execIrUnused05 len wdata s
  | .irUnused06 len wdata => Sys2Proof.Machine.execIrUnused06 len wdata s
  | .irUnused07 len wdata => Sys2Proof.Machine.execIrUnused07 len wdata s
  | .irUnused08 len wdata => Sys2Proof.Machine.execIrUnused08 len wdata s
  | .irUnused09 len wdata => Sys2Proof.Machine.execIrUnused09 len wdata s
  | .irUnused0A len wdata => Sys2Proof.Machine.execIrUnused0A len wdata s
  | .irUnused0B len wdata => Sys2Proof.Machine.execIrUnused0B len wdata s
  | .irUnused0C len wdata => Sys2Proof.Machine.execIrUnused0C len wdata s
  | .irUnused0D len wdata => Sys2Proof.Machine.execIrUnused0D len wdata s
  | .irUnused0E len wdata => Sys2Proof.Machine.execIrUnused0E len wdata s
  | .irUnused0F len wdata => Sys2Proof.Machine.execIrUnused0F len wdata s
  | .dtmcs len wdata => Sys2Proof.Machine.execDtmcs len wdata s
  | .dmiaccess len wdata => Sys2Proof.Machine.execDmiaccess len wdata s
  | .irUnused12 len wdata => Sys2Proof.Machine.execIrUnused12 len wdata s
  | .irUnused13 len wdata => Sys2Proof.Machine.execIrUnused13 len wdata s
  | .irUnused14 len wdata => Sys2Proof.Machine.execIrUnused14 len wdata s
  | .irUnused15 len wdata => Sys2Proof.Machine.execIrUnused15 len wdata s
  | .irUnused16 len wdata => Sys2Proof.Machine.execIrUnused16 len wdata s
  | .irUnused17 len wdata => Sys2Proof.Machine.execIrUnused17 len wdata s
  | .irUnused18 len wdata => Sys2Proof.Machine.execIrUnused18 len wdata s
  | .irUnused19 len wdata => Sys2Proof.Machine.execIrUnused19 len wdata s
  | .irUnused1A len wdata => Sys2Proof.Machine.execIrUnused1A len wdata s
  | .irUnused1B len wdata => Sys2Proof.Machine.execIrUnused1B len wdata s
  | .irUnused1C len wdata => Sys2Proof.Machine.execIrUnused1C len wdata s
  | .irUnused1D len wdata => Sys2Proof.Machine.execIrUnused1D len wdata s
  | .irUnused1E len wdata => Sys2Proof.Machine.execIrUnused1E len wdata s
  | .bypass1 len wdata => Sys2Proof.Machine.execBypass1 len wdata s
  | .dmiNop addr data => Sys2Proof.Machine.execDmiNop addr data s
  | .dmiRead addr data => Sys2Proof.Machine.execDmiRead addr data s
  | .dmiWrite addr data => Sys2Proof.Machine.execDmiWrite addr data s
  | .dmiOp3 addr data => Sys2Proof.Machine.execDmiOp3 addr data s
  | .dtmcsDmireset u => Sys2Proof.Machine.execDtmcsDmireset u s
  | .dtmcsDmihardreset u => Sys2Proof.Machine.execDtmcsDmihardreset u s
  | .tckCycle tms tdi => Sys2Proof.Machine.execTckCycle tms tdi s

end Sys2Proof.Machine
end

