-- ==== Sys2Proof/Machine/Driver.lean ====
section
/-! DEFINITION. Machine/Driver.lean: the host's calls (R88, R89) and its Dtm operations (R170-R177), one scan a step, and how a
word is placed where the machine takes its next instruction (log entries 2 and 3). -/

namespace Sys2Proof.Machine

/-! ### The Dtm operations -/

/-- The scan H makes at a position of a Dtm operation (R170, R172, R173, R174), as the instruction it is. -/
def Position.instr (p : Position) (h : Engine) : Instr :=
  match p with
  | .readIdcode => decodeIr 0x01#5 32 0#64
  | .readDtmcs => decodeIr 0x10#5 32 0#64
  | .clearStatus => decodeIr 0x10#5 32 dmiResetWord
  | .request op addr data => decodeIr 0x11#5 h.width (packRequest op.code addr data h.mask)
  | .poll _ _ => decodeIr 0x11#5 h.width 0#64
  | .retryReset _ _ => decodeIr 0x10#5 32 dmiResetWord

/-- H goes on to another scan of the operation. -/
def goTo (p : Position) (s : State) : State := { s with h := { s.h with position := some p, ret := .none } }

/-- The operation is over, with its value. -/
def finishOp (r : Ret) (s : State) : State := { s with h := { s.h with position := none, ret := r } }

/-- What a Dtm operation returns after its last poll (R173, R174; D41). -/
def opRet (op : ReqOp) (r : Bits) : Ret :=
  match op with
  | .read => .data (respDatum r)
  | .write => .unit

/-- A diagnostic is appended (R176, D42). -/
def emit (d : DmiResult) (s : State) : State := { s with h := { s.h with diag := s.h.diag ++ [d] } }

/-- A poll with scan-out `r` (R173-R176): RETRY resets the DMI and polls again, OK returns, anything else is logged and
returns. -/
def afterPoll (op : ReqOp) (addr : Nat) (r : Bits) (s : State) : State :=
  if respResult r = 3 then goTo (.retryReset op addr) s
  else if respResult r = 0 then finishOp (opRet op r) s
  else finishOp (opRet op r) (emit ⟨addr, respResult r⟩ s)

/-- `Dtm.reset` has read DTMCS (R170, R171, R83). -/
def learnDtmcs (d : Bits) (s : State) : State :=
  { s with
    h := { s.h with
      idleCycles := dtmcsIdle d
      width := 34 + dtmcsAbits d
      mask := 2 ^ dtmcsAbits d - 1 } }

/-- `Dtm.reset` has read IDCODE (R170); the value is recorded, not checked (D46). -/
def learnIdcode (r : Bits) (s : State) : State :=
  { s with h := { s.h with idcode := some (BitVec.ofNat 32 (bitsVal r)) } }

/-- A Dtm operation after the scan of a position, with scan-out `r` (R170, R173, R174). -/
def afterScan (p : Position) (r : Bits) (s : State) : State :=
  match p with
  | .readIdcode => goTo .readDtmcs (learnIdcode r s)
  | .readDtmcs => goTo .clearStatus (learnDtmcs r s)
  | .clearStatus => finishOp (.flag true) s
  | .request op addr _ => goTo (.poll op addr) s
  | .poll op addr => afterPoll op addr r s
  | .retryReset op addr => goTo (.poll op addr) s

/-- One scan of a Dtm operation: the instruction of the position, then what H does with its scan-out; `SimEnded` ends the
whole operation (R188). -/
def runPosition (p : Position) (s : State) : Out :=
  match exec (p.instr s.h) s with
  | .next s' =>
    match s'.h.ret with
    | .bits r => .next (afterScan p r s')
    | _ => .next { s' with h := { s'.h with position := none } }
  | .fault r => .fault r
  | .refused r => .refused r

/-! ### The calls -/

/-- A query of G (R94-R97, R99, R104). -/
def answerQuery (q : Query) (s : State) : Ret :=
  match q with
  | .inReset => .flag (inReset s)
  | .tapPosedge => .flag (tapPosedge s)
  | .tapNegedge => .flag (tapNegedge s)
  | .allDone => .flag (allDone s)
  | .tdi => .flag s.g.tdi
  | .tms => .flag s.g.tms
  | .tdo => .flag s.g.tdo
  | .elapsed => .time (elapsed s)

/-- An access whose scan-out is discarded (R166). -/
def discardOut (o : Out) : Out :=
  match o with
  | .next s =>
    match s.h.ret with
    | .bits _ => .next (setRet .unit s)
    | _ => .next s
  | .fault r => .fault r
  | .refused r => .refused r

/-- `Dtm.reset` begins with `Tap.reset` and returns `false` if that did (R170, R187). -/
def startDtmReset (s : State) : Out :=
  match tapReset s with
  | .next s' =>
    match s'.h.ret with
    | .flag true => .next (goTo .readIdcode s')
    | _ => .next s'
  | .fault r => .fault r
  | .refused r => .refused r

/-- The instruction a call hands over at once: a pin pair or a register access (R157, R160). -/
def HostCall.instr? (c : HostCall) : Option Instr :=
  match c with
  | .cycle tms tdi => some (.tckCycle tms tdi)
  | .accessReg code wdata len => some (decodeIr code len wdata)
  | .tapReset | .writeReg _ _ _ | .readReg _ _ | .idleCycleCount _ | .dtmReset | .dmiReset | .dmiRead _ | .dmiWrite _ _
  | .setTms _ | .setTdi _ | .eval | .query _ => none

/-- A call of H (R88, R89, R19). -/
def runCall (c : HostCall) (s : State) : Out :=
  match c with
  | .tapReset => tapReset s
  | .accessReg code wdata len => exec (decodeIr code len wdata) s
  | .writeReg code wdata len => discardOut (exec (decodeIr code len wdata) s)
  | .readReg code len => exec (decodeIr code len 0#64) s
  | .idleCycleCount n => .next (setRet .unit { s with h := { s.h with idleCycles := n } })
  | .dtmReset => startDtmReset s
  | .dmiReset => discardOut (exec (decodeIr 0x10#5 32 dmiResetWord) s)
  | .dmiRead addr => runPosition (.request .read addr 0) s
  | .dmiWrite addr data => runPosition (.request .write addr data) s
  | .cycle tms tdi => exec (.tckCycle tms tdi) s
  | .setTms b => .next (setRet .unit (setTms b s))
  | .setTdi b => .next (setRet .unit (setTdi b s))
  | .eval =>
    match eval s with
    | .next s' => .next (setRet .unit s')
    | .fault r => .fault r
    | .refused r => .refused r
  | .query q => .next (setRet (answerQuery q s) s)

/-- One step of the machine: the next scan of the operation in progress, or the next call of the program; with neither, no
agent moves (R179, R209; log entry 15). -/
def stepMachine (s : State) : Out :=
  match s.h.position with
  | some p => runPosition p s
  | none =>
    match s.h.program with
    | [] => .next s
    | c :: cs => runCall c { s with h := { s.h with program := cs } }

/-! ### Placing a word -/

/-- The link brought up as a program must bring it up before any scan (R201): `Tap.reset`, unless H is already where an access
starts. -/
def linkUp (s : State) : State :=
  if startState s.h.state then s
  else
    match tapReset s with
    | .next s' => { s' with h := { s'.h with ret := .none } }
    | .fault _ => s
    | .refused _ => s

/-- The program becomes one call, and no operation is in progress. -/
def loadCall (c : HostCall) (s : State) : State := { s with h := { s.h with position := none, program := [c] } }

/-- A DR scan word stands in the device's shift register at Update-DR, under the given IR; the next TCK cycle updates it
(R112, R205). -/
def placeUpdate (code : IrCode) (u : Bits) (s : State) : State :=
  let s₁ := loadCall (.cycle false false) s
  { s₁ with
    t := { s₁.t with state := .updDR, ir := code, drSr := u }
    h := { s₁.h with state := .updDR, lastIr := code } }

/-- A word placed where the machine takes its next instruction: a CYC or IR5 word as H's next call, a DTMCS or DMI word in the
device's shift register. -/
def placeWord (w : Word) (s : State) : State :=
  match w.fmt with
  | .cyc => loadCall (.cycle (w.bits.headD false) ((w.bits.drop 1).headD false)) s
  | .ir5 =>
    loadCall (.accessReg (BitVec.ofNat 5 (bitsVal (w.bits.take 5))) (BitVec.ofNat 64 (bitsVal (w.bits.drop 5)))
      (w.bits.length - 5)) (linkUp s)
  | .dr32Dtmcs => placeUpdate 0x10#5 w.bits (linkUp s)
  | .dmi => placeUpdate 0x11#5 w.bits (linkUp s)
  | .dr1 => placeUpdate 0x1f#5 w.bits (linkUp s)
  | .dr32Idcode => placeUpdate 0x01#5 w.bits (linkUp s)

end Sys2Proof.Machine
end

