-- ==== Sys2Proof/Machine/Step.lean ====
section
/-! DEFINITION. Machine/Step.lean: one step of the machine. -/

namespace Sys2Proof.Machine

/-- One step: a scan of the Dtm operation in progress, or the next call of the program (R22, R63). -/
def step (s : State) : Host.Outcome State Fault Refusal := stepMachine s

/-- The state in which `step` runs the instruction of an opcode-table row's word (log entries 2 and 3). -/
def State.withFetchWord (s : State) (nbits w : Nat) : State :=
  placeWord (tableWord Config.defaultParams.abits nbits w) s

end Sys2Proof.Machine
end

