-- ==== Sys2Proof/Safety.lean ====
section
/-! DEFINITION. Safety.lean: the terms claims use: when a step is safe, where the clock stands, when the simulation does not
end, what the operations keep, and the invariant of the machine. -/

namespace Sys2Proof.Machine

/-- The step goes on: neither a fault (R185) nor a refusal (R186). -/
def GoesOn (o : Out) : Prop := ∃ s, o = .next s

/-- G is consistent (R24): the half-periods are those of R8 for this hardware's ratios, the levels are those of the tick count
(R91), and the device has seen the TCK level G holds (R93). -/
structure ClockOk (s : State) : Prop where
  main_pos : 1 ≤ s.g.mainHalf
  tckHalf_eq : s.g.tckHalf = Config.tckHalfMult * s.g.mainHalf
  resetDur_eq : s.g.resetDur = Config.resetTckHalves * s.g.tckHalf
  tick_whole : s.g.tick % s.g.mainHalf = 0
  clk_eq : s.g.clk = clockLevel s.g.tick s.g.mainHalf
  tck_eq : s.g.tck = clockLevel s.g.tick s.g.tckHalf
  rstN_eq : s.g.rstN = rstNLevel s.g.tick s.g.resetDur
  lastTck_eq : s.g.lastTck = s.g.tck
  seen : s.t.pins.tck = s.g.tck

/-- G stands right after a rising TCK edge (R102, R157's precondition). -/
structure AfterRise (s : State) : Prop extends ClockOk s where
  risen : s.g.tick % (2 * s.g.tckHalf) = s.g.tckHalf

/-- The simulation does not end within the next `n` TCK cycles, of two TCK half-periods each (R97, R102, R184). -/
structure NotEnding (n : Nat) (s : State) : Prop where
  unfinished : s.g.finished = false
  capFar : s.g.maxTime = 0 ∨ s.g.tick + n * (2 * s.g.tckHalf) < s.g.maxTime
  finishFar : ∀ k ∈ s.t.finishAt, s.g.tick + n * (2 * s.g.tckHalf) < k

/-- The DR states that follow a Capture-DR, in which the DR shift register has the selected register's width (R120). -/
def TapState.holdsDr (x : TapState) : Bool :=
  x == .shDR || x == .ex1DR || x == .pauseDR || x == .ex2DR || x == .updDR

/-- The DR shift register has the width of the register the IR selects (R120). -/
def DrWidth (t : Device) : Prop := t.state.holdsDr = true → t.drSr.length = drLen t.par.abits t.ir

/-- The link is up: right after a rising edge, past the reset window and its first rising edge (R201), the mirror agrees (R27). -/
structure LinkUp (s : State) : Prop extends AfterRise s where
  past : s.g.resetDur ≤ s.g.tick
  started : s.t.fresh = false
  mirrored : s.h.state = s.t.state
  width : DrWidth s.t

/-- The link is up and stays up for `n` TCK cycles: the simulation does not end in them. -/
structure Ready (n : Nat) (s : State) : Prop extends LinkUp s where
  notEnding : NotEnding n s

/-- The update that waits in Update-DR is not the reserved op 3 (R139, R205). -/
def UpdateAllowed (t : Device) : Prop :=
  ¬ (t.state = .updDR ∧ t.ir = 0x11#5 ∧ 3 ≤ dmiOpField t.drSr)

/-- The IR once an update that waits in Update-IR has happened (R205). -/
def settledIr (t : Device) : IrCode := if t.state = .updIR then t.irSr else t.ir

/-- The IR under which an access made for `code` scans: that code, unless H skips the IR scan and the device holds another (R44,
R208). -/
def scannedIr (code : IrCode) (s : State) : IrCode := if code ≠ s.h.lastIr then code else settledIr s.t

/-- Where H would skip the IR scan of `code`, the device holds that code (R67, R208). -/
def Coherent (code : IrCode) (s : State) : Prop := s.h.lastIr = code → settledIr s.t = code

/-- The TCK cycles of an access (R180). -/
def accessCycles (code : IrCode) (len : Nat) (s : State) : Nat :=
  if code ≠ s.h.lastIr then len + 14 else len + s.h.idleCycles + 5

/-- The conditions under which an access of `len` bits for `code` executes normally (R160, R164, R189, R201), with the link still
up for `n` TCK cycles after it. -/
structure AccessReady (n : Nat) (code : IrCode) (len : Nat) (s : State) : Prop where
  ready : Ready (n + accessCycles code len s) s
  start : startState s.h.state = true
  allowed : UpdateAllowed s.t
  lenPos : 1 ≤ len
  lenMax : len ≤ Config.maxScanLen

/-- The word that waits in Update-DR, if any, carries no command: a NOP (R136), or a DTMCS word with bits 16 and 17 clear
(R128). -/
def NoUpdate (t : Device) : Prop :=
  t.state = .updDR →
    (t.ir = 0x11#5 → dmiOpField t.drSr = 0) ∧
    (t.ir = 0x10#5 → (dtmcsField t.drSr).getLsbD 16 = false ∧ (dtmcsField t.drSr).getLsbD 17 = false)

/-- The DTM is at rest: no request in flight and no command waiting in Update-DR. -/
structure DtmQuiet (t : Device) : Prop where
  idle : t.inflight = none
  noUpdate : NoUpdate t

/-- The DTM and M stand the same. -/
structure DtmSame (s u : State) : Prop where
  status : u.t.status = s.t.status
  inflight : u.t.inflight = s.t.inflight
  respAddr : u.t.respAddr = s.t.respAddr
  respData : u.t.respData = s.t.respData
  m : u.m = s.m

/-- What a falling edge does to the DTM and to M: nothing outside Update-DR, there the update of the word that waits (R112). -/
structure DtmFall (s u : State) : Prop where
  quiet : s.t.state ≠ .updDR → DtmSame s u
  word : s.t.state = .updDR → ∃ x w, DtmSame s x ∧ x.t.ir = s.t.ir ∧ x.t.drSr = s.t.drSr ∧ x.t.par = s.t.par ∧
    updateDr x = .next w ∧ DtmSame w u

/-- `a` is what M answers next (R148), where `l` are the answers it holds: the first of them, or a draw (log entry 8). -/
def AnswerDrawn (l : List DmiResponse) (a : DmiResponse) : Prop :=
  match l with
  | [] => ∃ n, a = ⟨Config.dmReadData n, Config.dmOk n⟩
  | b :: _ => a = b

/-- What `k` rising edges do to the DTM and to M, if none of them captures the DMI register (R147): `x` before, `v` after. -/
structure DtmRises (k : Nat) (x v : State) : Prop where
  respAddr : v.t.respAddr = x.t.respAddr
  requests : v.m.requests = x.m.requests
  latencies : v.m.latencies = x.m.latencies
  idle : x.t.inflight = none →
    v.t.inflight = none ∧ v.t.status = x.t.status ∧ v.t.respData = x.t.respData ∧ v.m.answers = x.m.answers
  waits : ∀ q r, x.t.inflight = some ⟨q, r⟩ → k ≤ r →
    v.t.inflight = some ⟨q, r - k⟩ ∧ v.t.status = x.t.status ∧ v.t.respData = x.t.respData ∧ v.m.answers = x.m.answers
  answered : ∀ q r, x.t.inflight = some ⟨q, r⟩ → r < k → v.t.inflight = none ∧ v.m.answers = x.m.answers.drop 1 ∧
    ∃ a : DmiResponse, AnswerDrawn x.m.answers a ∧ (q.op = .read → v.t.respData = a.rdata) ∧
      v.t.status = if !a.ok && x.t.status == .ok then .error else x.t.status

/-- The rising edges of an access before the one that captures the DR (R161, R162, R163, R212). -/
def edgesBeforeCapture (code : IrCode) (s : State) : Nat :=
  if code ≠ s.h.lastIr then 12 else s.h.idleCycles + 3

/-- What an operation that starts no request does to the DTM and to M (R118, R141, R147): nothing to a DTM at rest; otherwise it
sends nothing and keeps the response address. -/
structure DtmFrame (s s' : State) : Prop where
  quiet : DtmQuiet s.t → DtmSame s s'
  sentNothing : NoUpdate s.t → s'.t.respAddr = s.t.respAddr ∧ s'.m.requests = s.m.requests ∧ s'.m.latencies = s.m.latencies

/-- What no TCK cycle changes: G's periods, the device's read-only contents, what H has learned, logged and still to do. -/
structure Kept (s s' : State) : Prop where
  mainHalf : s'.g.mainHalf = s.g.mainHalf
  tckHalf : s'.g.tckHalf = s.g.tckHalf
  resetDur : s'.g.resetDur = s.g.resetDur
  maxTime : s'.g.maxTime = s.g.maxTime
  par : s'.t.par = s.t.par
  finishAt : s'.t.finishAt = s.t.finishAt
  idleCycles : s'.h.idleCycles = s.h.idleCycles
  hwidth : s'.h.width = s.h.width
  mask : s'.h.mask = s.h.mask
  idcode : s'.h.idcode = s.h.idcode
  diag : s'.h.diag = s.h.diag
  position : s'.h.position = s.h.position
  program : s'.h.program = s.h.program

/-- The state a string of pin pairs leads to (R106). -/
def endState : TapState → List PinPair → TapState
  | x, [] => x
  | x, p :: ps => endState (nextTap x p.1) ps

/-- The pin pairs of an access (R160): the IR path or the dwell path, then the DR path. -/
def accessPins (code : IrCode) (wdata : ScanWord) (len : Nat) (s : State) : List PinPair :=
  (if code ≠ s.h.lastIr then irPins code else dwellPins s.h.idleCycles) ++ drPins wdata len

/-- At tick `k` the simulation is over: the cap is reached, or the DUT has signalled `$finish` (R93, R97). -/
def OverAt (k : Nat) (s : State) : Prop :=
  (s.g.maxTime ≠ 0 ∧ s.g.maxTime ≤ k) ∨ ∃ j ∈ s.t.finishAt, j ≤ k

/-- The simulation has ended between `s` and `e`, after `k` complete TCK cycles of the pin pairs `ps` and inside the next one,
before its rising edge (R178, R189): `e` stands after the first advance at which it is over, H's pins as that cycle drives them
(log entry 13). -/
structure EndedInside (ps : List PinPair) (k : Nat) (s e : State) : Prop where
  done : allDone e = true
  overAt : OverAt e.g.tick s
  notBefore : ¬ OverAt (e.g.tick - s.g.mainHalf) s
  tickLo : s.g.tick + k * (2 * s.g.tckHalf) ≤ e.g.tick
  tickHi : e.g.tick < s.g.tick + (k + 1) * (2 * s.g.tckHalf)
  clock : ClockOk e
  state : e.t.state = endState s.t.state (ps.take k)
  mirrored : e.h.state = e.t.state
  pins : ∃ p, ps[k]? = some p ∧ e.g.tms = p.1 ∧ e.g.tdi = p.2 ∧ e.h.tmsDrv = p.1 ∧ e.h.tdiDrv = p.2
  kept : Kept s e
  frame : DtmFrame s e

/-- How an access for `code` that captured `cap` and scanned in `w` ends (R121, R160-R165, R169, R179, R180), and its frame. -/
structure AccessEnds (code : IrCode) (cap w : Bits) (s s' : State) : Prop where
  out : s'.h.ret = .bits ((cap ++ w).take w.length)
  drSr : s'.t.drSr = (cap ++ w).drop w.length
  state : s'.t.state = .updDR
  mirrored : s'.h.state = .updDR
  ir : s'.t.ir = scannedIr code s
  irSr : s'.t.irSr = if code ≠ s.h.lastIr then code else s.t.irSr
  lastIr : s'.h.lastIr = code
  tick : s'.g.tick = s.g.tick + accessCycles code w.length s * (2 * s.g.tckHalf)
  pins : s'.g.tms = true ∧ s'.g.tdi = false ∧ s'.h.tmsDrv = true ∧ s'.h.tdiDrv = false
  kept : Kept s s'

/-- The invariant of the machine: G's (R24, R42), the pins H recorded, the device held in reset while `rst_n` is low (R49), the
mirror (R27), the DR width (R120) and the address width (R40). Until the first rising edge after reset the device stays in
Test-Logic-Reset, and H's record is that state or the one it moves to at that edge. -/
structure Inv (s : State) : Prop where
  clock : ClockOk s
  aligned : s.g.tick = 0 ∨ s.g.tick % (2 * s.g.tckHalf) = s.g.tckHalf ∨ allDone s = true
  edges : ¬ (s.g.posedge = true ∧ s.g.negedge = true)
  driven : s.h.tmsDrv = s.g.tms ∧ s.h.tdiDrv = s.g.tdi
  resetHeld : s.g.rstN = false → s.t.fresh = true
  freshHeld : s.t.fresh = true → s.t.state = .tlr ∧ s.t.ir = 0x01#5 ∧ s.t.status = .ok ∧ s.t.inflight = none ∧
    (s.h.state = .tlr ∨ s.h.state = .rti)
  mirror : s.t.fresh = false → s.h.state = s.t.state
  drWidth : DrWidth s.t
  addrWidth : s.t.respAddr < 2 ^ s.t.par.abits

end Sys2Proof.Machine
end

