-- ==== Sys2Proof/Certificates/Slice0/Obligations.lean ====
section
/-! DEFINITION. Certificates/Slice0/Obligations.lean: the statements about the machine, in the order of spec/. A statement about a
completed instruction is an equality `exec i s = .next s'`; its hypotheses are on the state and the operands alone. Where a
statement rests on a decision of the spec (92_eei_decisions.md), on a passage the spec supplied from general knowledge
(93_implementation_defined.md) or on the model's own reading (a log entry), its docstring says so. -/

open Sys2Proof Sys2Proof.Machine

/-! ### G: clock and reset -/

/-- R47-R49, R197: the machine as construction leaves it, for every parameter set. The values of R47 to R49 are the spec's (D6,
D11, D18, D27, G2); no field the spec calls any value (log entry 6) is named here. -/
def Obligations.ResetHoldsTheStatedValues : Prop :=
  State.reset = State.initial Config.defaultParams ∧
  ∀ p : Params,
    let s := State.initial p
    (s.g.tick = 0 ∧ s.g.mainHalf = p.periodNs / 2 ∧ s.g.tckHalf = p.tckHalfMult * (p.periodNs / 2) ∧
      s.g.resetDur = p.resetTckHalves * (p.tckHalfMult * (p.periodNs / 2)) ∧ s.g.maxTime = p.maxTime ∧ s.g.clk = false ∧
      s.g.rstN = false ∧ s.g.tck = false ∧ s.g.lastTck = false ∧ s.g.posedge = false ∧ s.g.negedge = false ∧
      s.g.finished = false ∧ s.g.tms = false ∧ s.g.tdi = false) ∧
    (s.h.state = .tlr ∧ s.h.lastIr = 0#5 ∧ s.h.idleCycles = 1 ∧ s.h.width = 42 ∧ s.h.mask = 0xff ∧ s.h.idcode = none ∧
      s.h.diag = [] ∧ s.h.tmsDrv = false ∧ s.h.tdiDrv = false) ∧
    (s.t.state = .tlr ∧ s.t.ir = 0x01#5 ∧ s.t.status = .ok ∧ s.t.inflight = none ∧ s.t.par.abits = p.abits ∧
      s.t.par.idle = p.idle ∧ s.t.par.idcode = p.idcode ∧ s.t.par.irCapture = p.irCapture)

/-- R9 with U3, U30 and D51: construction takes exactly the parameter sets that meet the constraints, and refuses the others with
`BadParameter`. The upper bound 30 and the lower bound 7 of `ABITS` are the spec's decision D20; an odd period is D2's. That an
IDCODE with bit 0 clear is refused is the model's reading of R8 (decision D35): R9 lists only `IDCODE_VALUE != 0` (DEDUCED, log
entry 5). -/
def Obligations.ConstructionChecksItsParameters : Prop :=
  ∀ p : Params,
    (p.periodNs % 2 = 0 ∧ 1 ≤ p.periodNs / 2 ∧ 1 ≤ p.tckHalfMult ∧ 1 ≤ p.resetTckHalves ∧ 7 ≤ p.abits ∧ p.abits ≤ 30 ∧
        p.idle ≤ 7 ∧ p.idcode.toNat % 2 = 1 ∧ p.irCapture.toNat % 4 = 1 →
      construct p = .next (State.initial p)) ∧
    (¬ (p.periodNs % 2 = 0 ∧ 1 ≤ p.periodNs / 2 ∧ 1 ≤ p.tckHalfMult ∧ 1 ≤ p.resetTckHalves ∧ 7 ≤ p.abits ∧ p.abits ≤ 30 ∧
        p.idle ≤ 7 ∧ p.idcode.toNat % 2 = 1 ∧ p.irCapture.toNat % 4 = 1) →
      construct p = .refused .badParameter)

/-- R24 and R91: an advance with its `eval` moves the tick by one main-clock half-period and leaves the tick, the clock, reset
and TCK pins consistent. The phase at tick 0 is the spec's decision D6. -/
def Obligations.AdvanceKeepsTheClockConsistent : Prop :=
  ∀ s s' : State, ClockOk s → advanceEval s = .next s' → ClockOk s' ∧ s'.g.tick = s.g.tick + s.g.mainHalf

/-- R102 (the spec's derivation from R91 and R92): after an advance, TCK has just risen exactly at the odd multiples of the TCK
half-period, has just fallen exactly at the even ones, and `rst_n` is high exactly from the reset duration on. -/
def Obligations.EdgesFollowTheSchedule : Prop :=
  ∀ s : State, ClockOk s →
    ((advance s).g.posedge = true ↔ (advance s).g.tick % (2 * s.g.tckHalf) = s.g.tckHalf) ∧
    ((advance s).g.negedge = true ↔ (advance s).g.tick % (2 * s.g.tckHalf) = 0) ∧
    ((advance s).g.rstN = true ↔ s.g.resetDur ≤ (advance s).g.tick)

/-- R97: `all_done()` is true exactly when the DUT has finished or the cap, if there is one, is reached; the query changes
nothing (H holds the answer). -/
def Obligations.AllDoneAtFinishOrCap : Prop :=
  ∀ s : State,
    (allDone s = true ↔ s.g.finished = true ∨ (s.g.maxTime ≠ 0 ∧ s.g.maxTime ≤ s.g.tick)) ∧
    runCall (.query .allDone) s = .next { s with h := { s.h with ret := .flag (allDone s) } }

/-- R94, R95, R96, R99, R104: the queries report whether the DUT is in reset, whether TCK rose or fell in the last advance, the pins
and the elapsed time; none changes anything (H holds the answer). -/
def Obligations.QueriesReportAndChangeNothing : Prop :=
  ∀ s : State,
    runCall (.query .inReset) s = .next { s with h := { s.h with ret := .flag (!s.g.rstN) } } ∧
    runCall (.query .tapPosedge) s = .next { s with h := { s.h with ret := .flag s.g.posedge } } ∧
    runCall (.query .tapNegedge) s = .next { s with h := { s.h with ret := .flag s.g.negedge } } ∧
    runCall (.query .tdi) s = .next { s with h := { s.h with ret := .flag s.g.tdi } } ∧
    runCall (.query .tms) s = .next { s with h := { s.h with ret := .flag s.g.tms } } ∧
    runCall (.query .tdo) s = .next { s with h := { s.h with ret := .flag s.g.tdo } } ∧
    runCall (.query .elapsed) s = .next { s with h := { s.h with ret := .time s.g.tick } } ∧
    (ClockOk s → (s.g.rstN = false ↔ s.g.tick < s.g.resetDur)) ∧
    ((advance s).g.posedge = true ↔ s.g.lastTck = false ∧ (advance s).g.tck = true) ∧
    ((advance s).g.negedge = true ↔ s.g.lastTck = true ∧ (advance s).g.tck = false) ∧
    (∀ s' : State, eval s = .next s' → s'.g.tdo = s'.t.tdo)

/-- R98: a setter writes its pin and nothing else (H records the value), and the next `eval` that goes on brings it to the DUT. -/
def Obligations.SettersReachTheDutAtEval : Prop :=
  ∀ (b : Bool) (s : State),
    setTms b s = { s with g := { s.g with tms := b }, h := { s.h with tmsDrv := b } } ∧
    setTdi b s = { s with g := { s.g with tdi := b }, h := { s.h with tdiDrv := b } } ∧
    (∀ s' : State, eval (setTms b s) = .next s' → s'.t.pins.tms = b) ∧
    (∀ s' : State, eval (setTdi b s) = .next s' → s'.t.pins.tdi = b)

/-- R93 as conflict C9 settles it: with `rst_n` high, an `eval` without an advance before it commits the pins and samples the
outputs; the TAP, the DTM, M and H stay as they are. -/
def Obligations.EvalWithoutAdvanceStepsNothing : Prop :=
  ∀ s : State, s.t.pins.tck = s.g.tck → s.g.rstN = true →
    ∃ s' : State, eval s = .next s' ∧
      s'.t = { s.t with pins := ⟨s.g.clk, s.g.rstN, s.g.tck, s.g.tms, s.g.tdi⟩ } ∧ s'.m = s.m ∧ s'.h = s.h ∧
      s'.g.tick = s.g.tick ∧ s'.g.tdo = s.t.tdo

/-! ### T: the TAP controller -/

/-- R105, R119, R157, R158: on a link that is up a TCK cycle completes: the device's controller and H's record take the same
transition, two TCK half-periods pass, H's pins stay as driven, and nothing H has learned or logged changes. A DTM at rest and M
are left alone, and without a command waiting in Update-DR nothing is sent. -/
def Obligations.TckCycleMovesBothRecords : Prop :=
  ∀ (n : Nat) (tms tdi : Bool) (s : State), Ready (n + 1) s → UpdateAllowed s.t →
    ∃ (b : Bool) (s' : State), exec (.tckCycle tms tdi) s = .next s' ∧
      s'.h.ret = .tdo (some b) ∧ s'.t.state = nextTap s.t.state tms ∧ s'.h.state = nextTap s.h.state tms ∧
      s'.g.tick = s.g.tick + 2 * s.g.tckHalf ∧
      (s'.g.tms = tms ∧ s'.g.tdi = tdi ∧ s'.h.tmsDrv = tms ∧ s'.h.tdiDrv = tdi) ∧
      s'.h.lastIr = s.h.lastIr ∧ Kept s s' ∧ DtmFrame s s' ∧ Ready n s'

/-- R110 to R118 (general knowledge G3, G4): what a TCK cycle does to the scan registers, by the state it is spent in, and that
it leaves them alone in every other state. The new IR of an Update-IR cycle is settled before its rising edge (R111). -/
def Obligations.TckCycleActsOnTheScanRegisters : Prop :=
  ∀ (tms tdi : Bool) (s : State), Ready 1 s → UpdateAllowed s.t →
    ∃ (b : Bool) (s' : State), exec (.tckCycle tms tdi) s = .next s' ∧ s'.h.ret = .tdo (some b) ∧
      (s.t.state = .tlr → s'.t.ir = 0x01#5) ∧
      (s.t.state = .updIR → s'.t.ir = s.t.irSr) ∧
      (s.t.state ≠ .tlr → s.t.state ≠ .updIR → s'.t.ir = s.t.ir) ∧
      (s.t.state = .capIR → s'.t.irSr = s.t.par.irCapture) ∧
      (s.t.state = .shIR → b = s.t.irSr.getLsbD 0 ∧ s'.t.irSr = BitVec.cons tdi (s.t.irSr.extractLsb' 1 4)) ∧
      (s.t.state ≠ .capIR → s.t.state ≠ .shIR → s'.t.irSr = s.t.irSr) ∧
      (s.t.state = .capDR → s.t.ir = 0x01#5 → s'.t.drSr = natBits 32 s.t.par.idcode.toNat) ∧
      (s.t.state = .capDR → s.t.ir = 0x10#5 → s'.t.drSr = natBits 32 (dtmcsValue s.t).toNat) ∧
      (s.t.state = .capDR → s.t.ir ≠ 0x01#5 → s.t.ir ≠ 0x10#5 → s.t.ir ≠ 0x11#5 → s'.t.drSr = [false]) ∧
      (s.t.state = .shDR → b = s.t.drSr.headD false ∧ s'.t.drSr = s.t.drSr.drop 1 ++ [tdi]) ∧
      (s.t.state ≠ .capDR → s.t.state ≠ .shDR → s'.t.drSr = s.t.drSr)

/-- R112, R205 (general knowledge G3; the falling edge is decision D30): a TCK cycle spent in Update-DR performs the update of
the word in the shift register, then the request in flight meets its rising edge (R147). -/
def Obligations.TckCycleInUpdateDrPerformsTheWord : Prop :=
  ∀ (tms tdi : Bool) (s : State), Ready 1 s → UpdateAllowed s.t → s.t.state = .updDR →
    ∃ x v s' : State, exec (.tckCycle tms tdi) s = .next s' ∧
      DtmSame s x ∧ x.t.ir = s.t.ir ∧ x.t.drSr = s.t.drSr ∧ x.t.par = s.t.par ∧
      updateDr x = .next v ∧ DtmSame (tickInflight v) s'

/-- R107: on a link that is up, five TCK cycles with TMS high end in Test-Logic-Reset. The one exception is a DR scan of the DMI
register that they lead through Update-DR with op 3, which is refused (R139): from Capture-DR where the capture reports RETRY
(R142), from Shift-DR where the word after one more shift has op 3, from Exit1-DR, Pause-DR and Exit2-DR where the word has. -/
def Obligations.FiveHighTmsReachTestLogicReset : Prop :=
  ∀ (tdi : Bool) (s : State), Ready 5 s → UpdateAllowed s.t →
    let meetsOp3 : Prop := s.t.ir = 0x11#5 ∧
      ((s.t.state = .capDR ∧ (s.t.status = .retry ∨ s.t.status = .ok ∧ s.t.inflight ≠ none)) ∨
        (s.t.state = .shDR ∧ 3 ≤ dmiOpField (s.t.drSr.drop 1 ++ [tdi])) ∨
        ((s.t.state = .ex1DR ∨ s.t.state = .pauseDR ∨ s.t.state = .ex2DR) ∧ 3 ≤ dmiOpField s.t.drSr))
    (¬ meetsOp3 →
      ∃ bs s', runPins (List.replicate 5 (true, tdi)) s = .done bs s' ∧ s'.t.state = .tlr ∧ s'.h.state = .tlr) ∧
    (meetsOp3 → runPins (List.replicate 5 (true, tdi)) s = .refused .dmiOpReserved)

/-- R123 (decision D9): TMS high at a rising edge inside the reset window, or at the first one after it, is refused. -/
def Obligations.ResetWindowRefusesHighTms : Prop :=
  ∀ (tdi : Bool) (s : State), Inv s → s.t.fresh = true → NotEnding 1 s →
    exec (.tckCycle true tdi) s = .refused .resetWindowTms

/-- R108, R113, R119, R154, R199 (decision D9, general knowledge G2): a TCK cycle with TMS low inside the reset window leaves the
device in Test-Logic-Reset with IDCODE selected and the DTM cleared; the first rising edge after the window moves it to
Run-Test/Idle. From tick 0 the cycle ends at the first rising edge, at `TCK_HALF_NS`: that is a cycle outside R157's precondition,
and the clause for it is the model's reading (DEDUCED, log entry 12). -/
def Obligations.ResetWindowHoldsTheDevice : Prop :=
  ∀ (tdi : Bool) (s : State), Inv s → s.t.fresh = true → NotEnding 1 s →
    ∃ s' : State, exec (.tckCycle false tdi) s = .next s' ∧
      s'.g.tick = (if s.g.tick = 0 then s.g.tckHalf else s.g.tick + 2 * s.g.tckHalf) ∧
      (s'.g.tick < s.g.resetDur → s'.t.state = .tlr ∧ s'.t.fresh = true) ∧
      (s.g.resetDur ≤ s'.g.tick → s'.t.state = .rti ∧ s'.t.fresh = false) ∧
      s'.t.ir = 0x01#5 ∧ s'.t.status = .ok ∧ s'.t.inflight = none ∧ s'.h.state = .rti ∧ s'.h.lastIr = s.h.lastIr ∧
      s'.m = s.m ∧ Kept s s'

/-- R159, R198, R201 (decisions D9, D10): `Tap.reset` from construction, for every parameter set with this hardware's clock ratios:
it returns true right after the first rising edge after the reset window, with the device and H in Run-Test/Idle, IDCODE
selected and the DTM clear, and the link is up. That the call is one step, of a program loaded as `h.program`, is the model's choice
(DESIGN CHOICE, log entry 2). -/
def Obligations.TapResetBringsTheLinkUp : Prop :=
  ∀ (n : Nat) (p : Params), Params.valid p = true → p.tckHalfMult = Config.tckHalfMult →
    p.resetTckHalves = Config.resetTckHalves →
    (p.maxTime = 0 ∨ p.resetDur + p.tckHalf + n * (2 * p.tckHalf) < p.maxTime) →
    ∃ s' : State, step (loadCall .tapReset (State.initial p)) = .next s' ∧
      s'.h.ret = .flag true ∧ s'.g.tick = p.resetDur + p.tckHalf ∧ s'.t.state = .rti ∧ s'.h.state = .rti ∧
      s'.t.ir = 0x01#5 ∧ s'.h.lastIr = 0#5 ∧ s'.t.status = .ok ∧ s'.t.inflight = none ∧ s'.g.tms = false ∧
      s'.g.tdi = false ∧ s'.m = (State.initial p).m ∧ s'.h.program = [] ∧ Ready n s'

/-- R159, R202: a `Tap.reset` of a link that is up spends one TCK cycle with TMS low and resets nothing: the IR keeps its value
(outside Test-Logic-Reset) and so does a DTM at rest; from the states H leaves it lands in Run-Test/Idle. -/
def Obligations.LaterTapResetIsOneIdleCycle : Prop :=
  ∀ (n : Nat) (s : State), Ready (n + 1) s → UpdateAllowed s.t →
    ∃ s' : State, runCall .tapReset s = .next s' ∧ s'.h.ret = .flag true ∧ s'.t.state = nextTap s.t.state false ∧
      s'.h.state = nextTap s.h.state false ∧ (startState s.h.state = true → s'.t.state = .rti ∧ s'.h.state = .rti) ∧
      s'.g.tick = s.g.tick + 2 * s.g.tckHalf ∧ (s.t.state ≠ .tlr → s'.t.ir = settledIr s.t) ∧
      s'.h.lastIr = s.h.lastIr ∧ (DtmQuiet s.t → s.t.state ≠ .capDR → DtmSame s s') ∧ Kept s s' ∧ Ready n s'

/-! ### T: the DTM -/

/-- R137, R138, R148, R156 (general knowledge G10, G13; decisions D14, D21): a READ or a WRITE of an idle DTM is handed to M, with
the address and the datum as scanned; it is in flight for M's latency, and its address is the next capture's. Nothing else
changes but the count of values drawn. -/
def Obligations.DmiRequestsAreHandedToM : Prop :=
  ∀ (addr : Nat) (data : Word32) (s : State), s.t.status = .ok → s.t.inflight = none →
    ∃ d e : Nat,
      exec (.dmiRead addr data) s = .next
        { s with
          t := { s.t with inflight := some ⟨⟨.read, addr, 0#32⟩, d⟩, respAddr := addr }
          m := { s.m with requests := s.m.requests ++ [⟨.read, addr, 0#32⟩], latencies := s.m.latencies.drop 1 }
          free := s.free + 1 } ∧
      exec (.dmiWrite addr data) s = .next
        { s with
          t := { s.t with inflight := some ⟨⟨.write, addr, data⟩, e⟩, respAddr := addr }
          m := { s.m with requests := s.m.requests ++ [⟨.write, addr, data⟩], latencies := s.m.latencies.drop 1 }
          free := s.free + 1 } ∧
      ∀ l ls, s.m.latencies = l :: ls → d = l ∧ e = l

/-- R136, R140, R141 (general knowledge G10; decision D21): a READ or a WRITE met by a sticky status changes nothing; a NOP, a READ
or a WRITE met by a request in flight under status OK is dropped and sets RETRY, and changes nothing else; a NOP changes nothing
otherwise. -/
def Obligations.DmiOpsAreDropped : Prop :=
  ∀ (addr : Nat) (data : Word32) (s : State),
    (s.t.status ≠ .ok →
      exec (.dmiNop addr data) s = .next s ∧ exec (.dmiRead addr data) s = .next s ∧
      exec (.dmiWrite addr data) s = .next s) ∧
    (s.t.status = .ok → s.t.inflight ≠ none →
      exec (.dmiNop addr data) s = .next { s with t := { s.t with status := .retry } } ∧
      exec (.dmiRead addr data) s = .next { s with t := { s.t with status := .retry } } ∧
      exec (.dmiWrite addr data) s = .next { s with t := { s.t with status := .retry } }) ∧
    (s.t.inflight = none → exec (.dmiNop addr data) s = .next s)

/-- R139, R78 (decision D28): op 3 at Update-DR is refused with `DmiOpReserved`, whatever the state, and so is whatever reaches the
falling edge that would perform it: the TCK cycle, the access, a `Tap.reset` of a link that is up, the `eval`. -/
def Obligations.ReservedDmiOpIsRefused : Prop :=
  (∀ (addr : Nat) (data : Word32) (s : State), exec (.dmiOp3 addr data) s = .refused .dmiOpReserved) ∧
  (∀ (tms tdi : Bool) (s : State), Ready 1 s → ¬ UpdateAllowed s.t →
    exec (.tckCycle tms tdi) s = .refused .dmiOpReserved) ∧
  (∀ (code : IrCode) (len : Nat) (wdata : ScanWord) (s : State), Ready 1 s → ¬ UpdateAllowed s.t → 1 ≤ len → len ≤ 64 →
    exec (decodeIr code len wdata) s = .refused .dmiOpReserved) ∧
  (∀ s : State, Ready 1 s → ¬ UpdateAllowed s.t → runCall .tapReset s = .refused .dmiOpReserved) ∧
  (∀ s : State, s.g.rstN = true → s.t.pins.tck = true → s.g.tck = false → ¬ UpdateAllowed s.t →
    eval s = .refused .dmiOpReserved)

/-- R128, R144, R145, R146 (general knowledge G11; decision D29): DMIRESET clears the status and keeps the request in flight;
DMIHARDRESET clears both; every other bit of the word, and all other state, is left alone. -/
def Obligations.DtmcsCommandsResetTheDmi : Prop :=
  ∀ (u : Word32) (s : State),
    exec (.dtmcsDmireset u) s = .next { s with t := { s.t with status := .ok } } ∧
    exec (.dtmcsDmihardreset u) s = .next { s with t := { s.t with status := .ok, inflight := none } } ∧
    (u.getLsbD 17 = true → updateDtmcs u s = exec (.dtmcsDmihardreset u) s) ∧
    (u.getLsbD 17 = false → u.getLsbD 16 = true → updateDtmcs u s = exec (.dtmcsDmireset u) s) ∧
    (u.getLsbD 17 = false → u.getLsbD 16 = false → updateDtmcs u s = .next s)

/-- R112, R128, R130: Update-DR runs the instruction its shift register decodes to, in the format the IR selects; a word that
decodes to none has no effect. -/
def Obligations.UpdateRunsTheDecodedWord : Prop :=
  ∀ s : State,
    (∀ i, s.t.ir = 0x11#5 → decode s.t.par.abits ⟨.dmi, s.t.drSr⟩ = .ok i → updateDr s = exec i s) ∧
    (∀ i, s.t.ir = 0x10#5 → decode s.t.par.abits ⟨.dr32Dtmcs, s.t.drSr⟩ = .ok i → updateDr s = exec i s) ∧
    (s.t.ir = 0x10#5 → decode s.t.par.abits ⟨.dr32Dtmcs, s.t.drSr⟩ = .error .noCommand → updateDr s = .next s) ∧
    (s.t.ir ≠ 0x10#5 → s.t.ir ≠ 0x11#5 → updateDr s = .next s)

/-- R147, R148, R149 (decision D14): a request with `r` cycles left is still in flight after `r` rising edges and answered at the
next one: the data of a READ is M's, a failure sets ERROR over OK, M has answered once. -/
def Obligations.RequestIsAnsweredAfterItsLatency : Prop :=
  ∀ (n r : Nat) (q : DmiRequest) (s : State), Ready n s → s.t.state = .rti → s.t.inflight = some ⟨q, r⟩ →
    ∃ bs s', runPins (List.replicate n (false, false)) s = .done bs s' ∧ s'.t.state = .rti ∧
      s'.t.respAddr = s.t.respAddr ∧ s'.m.requests = s.m.requests ∧
      (n ≤ r → s'.t.inflight = some ⟨q, r - n⟩ ∧ s'.t.status = s.t.status ∧ s'.t.respData = s.t.respData ∧
        s'.m.answers = s.m.answers) ∧
      (r < n → s'.t.inflight = none ∧ s'.m.answers = s.m.answers.drop 1 ∧
        ∃ a : DmiResponse, (∀ b bs, s.m.answers = b :: bs → a = b) ∧ (q.op = .read → s'.t.respData = a.rdata) ∧
          s'.t.status = if a.ok = false ∧ s.t.status = .ok then .error else s.t.status)

/-- R142, R147 (general knowledge G10; decisions D14, D21): the Capture-DR of the DMI register takes the response address, the
response data and the result: 3 if a request is still in flight under status OK, which makes RETRY sticky, otherwise the status.
The request in flight goes on all the same, and one that completes at this very edge is still reported as RETRY. -/
def Obligations.DmiCaptureReportsTheStatus : Prop :=
  ∀ (tms tdi : Bool) (s : State), Ready 1 s → s.t.state = .capDR → s.t.ir = 0x11#5 →
    ∃ s' : State, exec (.tckCycle tms tdi) s = .next s' ∧
      (s.t.inflight ≠ none → s.t.status = .ok →
        s'.t.drSr = natBits 2 3 ++ (natBits 32 s.t.respData.toNat ++ natBits s.t.par.abits s.t.respAddr) ∧
        s'.t.status = .retry) ∧
      (s.t.inflight = none ∨ s.t.status ≠ .ok →
        s'.t.drSr = natBits 2 s.t.status.code ++ (natBits 32 s.t.respData.toNat ++ natBits s.t.par.abits s.t.respAddr) ∧
        s'.t.status = s.t.status) ∧
      (∀ q r, s.t.inflight = some ⟨q, r + 1⟩ → s'.t.inflight = some ⟨q, r⟩) ∧
      (∀ q, s.t.inflight = some ⟨q, 0⟩ → s'.t.inflight = none) ∧
      (s.t.inflight = none → s'.t.inflight = none)

/-- R143, R147, R153 (general knowledge G10; decision D14): over a TCK cycle of a link that is up, a sticky status goes away only by
a DTMCS command that waits in Update-DR; RETRY appears only where the DMI register is captured or updated with a request in
flight; ERROR appears only at an answer of M that is not ok, to a request whose latency has run out or to one that this cycle's
Update-DR hands over with latency 0. -/
def Obligations.StickyStatusChangesOnlyByRule : Prop :=
  ∀ (tms tdi : Bool) (s : State), Ready 1 s → UpdateAllowed s.t →
    ∃ s' : State, exec (.tckCycle tms tdi) s = .next s' ∧
      (s.t.status ≠ .ok → s'.t.status ≠ s.t.status →
        s.t.state = .updDR ∧ s.t.ir = 0x10#5 ∧
          ((dtmcsField s.t.drSr).getLsbD 16 = true ∨ (dtmcsField s.t.drSr).getLsbD 17 = true)) ∧
      (s.t.status ≠ .retry → s'.t.status = .retry →
        s.t.status = .ok ∧ s.t.ir = 0x11#5 ∧ s.t.inflight ≠ none ∧ (s.t.state = .capDR ∨ s.t.state = .updDR)) ∧
      (s.t.status ≠ .error → s'.t.status = .error →
        ((∃ q, s.t.inflight = some ⟨q, 0⟩) ∨
          (s.t.inflight = none ∧ s.t.status = .ok ∧ s.t.state = .updDR ∧ s.t.ir = 0x11#5 ∧
            (dmiOpField s.t.drSr = 1 ∨ dmiOpField s.t.drSr = 2) ∧ ∀ d ds, s.m.latencies = d :: ds → d = 0)) ∧
        s'.t.inflight = none ∧ s'.m.answers = s.m.answers.drop 1 ∧ ∃ a, AnswerDrawn s.m.answers a ∧ a.ok = false)

/-! ### H: the register access -/

/-- R160-R165, R121, R125, R131, R132 (general knowledge G6; decision D19 for the unused codes): an access for a code that selects
BYPASS, by each of its 29 instructions: a zero, then the scan-in, one bit late. -/
def Obligations.BypassAccessDelaysTheScanIn : Prop :=
  ∀ (n len : Nat) (wdata : ScanWord) (s : State),
    ∀ p ∈ [(0x00#5, Instr.bypass0 len wdata), (0x02#5, .irUnused02 len wdata), (0x03#5, .irUnused03 len wdata),
        (0x04#5, .irUnused04 len wdata), (0x05#5, .irUnused05 len wdata), (0x06#5, .irUnused06 len wdata),
        (0x07#5, .irUnused07 len wdata), (0x08#5, .irUnused08 len wdata), (0x09#5, .irUnused09 len wdata),
        (0x0a#5, .irUnused0A len wdata), (0x0b#5, .irUnused0B len wdata), (0x0c#5, .irUnused0C len wdata),
        (0x0d#5, .irUnused0D len wdata), (0x0e#5, .irUnused0E len wdata), (0x0f#5, .irUnused0F len wdata),
        (0x12#5, .irUnused12 len wdata), (0x13#5, .irUnused13 len wdata), (0x14#5, .irUnused14 len wdata),
        (0x15#5, .irUnused15 len wdata), (0x16#5, .irUnused16 len wdata), (0x17#5, .irUnused17 len wdata),
        (0x18#5, .irUnused18 len wdata), (0x19#5, .irUnused19 len wdata), (0x1a#5, .irUnused1A len wdata),
        (0x1b#5, .irUnused1B len wdata), (0x1c#5, .irUnused1C len wdata), (0x1d#5, .irUnused1D len wdata),
        (0x1e#5, .irUnused1E len wdata), (0x1f#5, .bypass1 len wdata)],
      AccessReady n p.1 len s → Coherent p.1 s →
        ∃ s' : State, exec p.2 s = .next s' ∧ AccessEnds p.1 [false] (natBits len wdata.toNat) s s' ∧ DtmFrame s s' ∧
          Ready n s'

/-- R160-R165, R121, R126 (general knowledge G3): an access through IDCODE reads `IDCODE_VALUE`, and past bit 31 the scan-in. -/
def Obligations.IdcodeAccessReadsTheIdcode : Prop :=
  ∀ (n len : Nat) (wdata : ScanWord) (s : State), AccessReady n 0x01#5 len s → Coherent 0x01#5 s →
    ∃ s' : State, exec (.idcode len wdata) s = .next s' ∧
      AccessEnds 0x01#5 (natBits 32 s.t.par.idcode.toNat) (natBits len wdata.toNat) s s' ∧ DtmFrame s s' ∧ Ready n s'

/-- R160-R165, R121, R127 (general knowledge G3, G8): an access through DTMCS reads the register with `dmistat` at the status the
DTM has at the capture: the one the update that waits leaves (`u`, R205), after the rising edges before the capture (`d`, R147).
It is the present one if the DTM is at rest, or if it is sticky and no command waits. The scan-in waits in Update-DR (R205). -/
def Obligations.DtmcsAccessReadsTheRegister : Prop :=
  ∀ (n len : Nat) (wdata : ScanWord) (s : State), AccessReady n 0x10#5 len s → Coherent 0x10#5 s →
    ∃ u d s' : State, exec (.dtmcs len wdata) s = .next s' ∧ DtmFall s u ∧ DtmRises (edgesBeforeCapture 0x10#5 s) u d ∧
      AccessEnds 0x10#5 (natBits 32 (dtmcsValue { s.t with status := d.t.status }).toNat) (natBits len wdata.toNat) s s' ∧
      (DtmQuiet s.t → d.t.status = s.t.status) ∧ (NoUpdate s.t → s.t.status ≠ .ok → d.t.status = s.t.status) ∧
      DtmFrame s s' ∧ Ready n s'

/-- R160-R165, R121, R129, R142 (general knowledge G10): an access through the DMI register reads result, data and address as the
DTM has them at the capture: as the update that waits leaves them (`u`, R205), after the rising edges before the capture (`d`,
R147); the result is 3 if a request is still in flight under status OK. They are the present ones if the DTM is at rest, and the
result is the status if that is sticky and no command waits. The scan-in waits in Update-DR (R205). -/
def Obligations.DmiaccessAccessReadsTheRegister : Prop :=
  ∀ (n len : Nat) (wdata : ScanWord) (s : State), AccessReady n 0x11#5 len s → Coherent 0x11#5 s →
    ∃ u d s' : State, exec (.dmiaccess len wdata) s = .next s' ∧ DtmFall s u ∧ DtmRises (edgesBeforeCapture 0x11#5 s) u d ∧
      AccessEnds 0x11#5
        (natBits 2 (if d.t.inflight ≠ none ∧ d.t.status = .ok then 3 else d.t.status.code) ++
          (natBits 32 d.t.respData.toNat ++ natBits s.t.par.abits d.t.respAddr))
        (natBits len wdata.toNat) s s' ∧
      (DtmQuiet s.t → DtmSame s d) ∧ (NoUpdate s.t → d.t.respAddr = s.t.respAddr) ∧
      (NoUpdate s.t → s.t.status ≠ .ok → d.t.status = s.t.status) ∧ DtmFrame s s' ∧ Ready n s'

/-- R44, R208: where H skips the IR scan but the device holds IDCODE, an access for any code reads IDCODE. After construction this
is the access for BYPASS0: H's record is 0 while the device's IR is 0x01. -/
def Obligations.StaleLastIrReadsIdcode : Prop :=
  ∀ (n len : Nat) (code : IrCode) (wdata : ScanWord) (s : State), AccessReady n code len s → s.h.lastIr = code →
    settledIr s.t = 0x01#5 →
    ∃ s' : State, exec (decodeIr code len wdata) s = .next s' ∧
      AccessEnds code (natBits 32 s.t.par.idcode.toNat) (natBits len wdata.toNat) s s' ∧ DtmFrame s s' ∧
      exec (decodeIr 0x00#5 len wdata) s = exec (.bypass0 len wdata) s

/-- R164, R160, R184 (decisions D12, D17, D49): the checks of an access, in their order, before any pin changes; for every IR
code. -/
def Obligations.AccessChecksComeFirst : Prop :=
  ∀ (code : IrCode) (len : Nat) (wdata : ScanWord) (s : State),
    (64 < len → exec (decodeIr code len wdata) s = .fault (.scanTooLong len)) ∧
    (len = 0 → exec (decodeIr code len wdata) s = .refused .zeroLengthScan) ∧
    (1 ≤ len → len ≤ 64 → s.h.state ≠ .rti → s.h.state ≠ .updDR → s.h.state ≠ .updIR →
      exec (decodeIr code len wdata) s = .refused .badStartState)

/-- R103, R188, R189 (decisions D7, D25): once `all_done()` is true no operation advances: an access and a TCK cycle end with
`SimEnded`, `Tap.reset` with false; only the pins H drives have changed. That those pins stay written is the model's reading of R189
(DEDUCED, log entry 13). -/
def Obligations.EndedSimulationStopsEveryOperation : Prop :=
  ∀ (s : State), allDone s = true →
    (∀ (code : IrCode) (len : Nat) (wdata : ScanWord), 1 ≤ len → len ≤ 64 → startState s.h.state = true →
      ∃ tms : Bool, exec (decodeIr code len wdata) s = .next (setRet .simEnded (drive tms false s))) ∧
    (∀ tms tdi : Bool, exec (.tckCycle tms tdi) s = .next (setRet .simEnded (drive tms tdi s))) ∧
    runCall .tapReset s = .next (setRet (.flag false) (drive false false s))

/-- R166: `write_reg` is `access_reg` with the result discarded, and stops where it stops. -/
def Obligations.WriteRegDiscardsTheScanOut : Prop :=
  ∀ (code : IrCode) (wdata : ScanWord) (len : Nat) (s : State),
    (∀ s' out, runCall (.accessReg code wdata len) s = .next s' → s'.h.ret = .bits out →
      runCall (.writeReg code wdata len) s = .next { s' with h := { s'.h with ret := .unit } }) ∧
    (∀ s', runCall (.accessReg code wdata len) s = .next s' → s'.h.ret = .simEnded →
      runCall (.writeReg code wdata len) s = .next s') ∧
    (∀ f, runCall (.accessReg code wdata len) s = .fault f → runCall (.writeReg code wdata len) s = .fault f) ∧
    (∀ r, runCall (.accessReg code wdata len) s = .refused r → runCall (.writeReg code wdata len) s = .refused r)

/-- R168: `idle_cycle_count(n)` sets the dwell count, with no pin activity and no time advance; `Dtm.reset` passes it the 3-bit
`dtmcs.idle`. -/
def Obligations.IdleCycleCountSetsTheDwell : Prop :=
  (∀ (n : Nat) (s : State),
    runCall (.idleCycleCount n) s = .next { s with h := { s.h with idleCycles := n, ret := .unit } }) ∧
  (∀ (d : Bits) (s : State), (learnDtmcs d s).h.idleCycles = dtmcsIdle d ∧ dtmcsIdle d ≤ 7)

/-! ### H: the Dtm operations -/

/-- R59, R80, R81 (decision D24): the word H packs for a request carries the op, the low 32 bits of the datum and the address
truncated to the mask, each in its field; and H reads result, data and address back from such a word. -/
def Obligations.PackedRequestReadsBack : Prop :=
  (∀ op addr data k : Nat, op ≤ 2 → k ≤ 30 →
    let u := natBits (34 + k) (packRequest op addr data (2 ^ k - 1)).toNat
    dmiOpField u = op ∧ dmiDataField u = BitVec.ofNat 32 data ∧ dmiAddrField k u = addr % 2 ^ k) ∧
  (∀ (c addr k : Nat) (data : Word32), c ≤ 3 →
    let r := natBits 2 c ++ (natBits 32 data.toNat ++ natBits k addr)
    respResult r = c ∧ respDatum r = data ∧ respAddress r = addr % 2 ^ k)

/-- R31, R50, R83, R127, R171 (general knowledge G8, decision D13): the DTMCS register's value by its fields, and what H learns from
reading it: the dwell count, the scan width and the address mask. -/
def Obligations.DtmcsReadTeachesTheHost : Prop :=
  ∀ (t : Device) (s : State), t.par.abits < 64 → t.par.idle < 8 →
    (dtmcsValue t).toNat = 1 + 16 * t.par.abits + 1024 * t.status.code + 4096 * t.par.idle ∧
    learnDtmcs (natBits 32 (dtmcsValue t).toNat) s =
      { s with
        h := { s.h with idleCycles := t.par.idle, width := 34 + t.par.abits, mask := 2 ^ t.par.abits - 1 } }

/-- R173-R177 (decisions D23, D32, D41, D42): a poll whose scan-out has result 3 goes on to a DMI reset and then polls again, never
re-sending the request; result 0 returns; any other result is logged and returns; `dmi_read` returns bits 33:2 of the scan-out in
either case, `dmi_write` nothing; a simulation that ends in the poll ends the operation (R188). That one scan of the operation is
one step is the model's choice (DESIGN CHOICE, log entry 2). -/
def Obligations.PollsFollowTheRetryPolicy : Prop :=
  ∀ (op : ReqOp) (addr : Nat) (s s' : State),
    (∀ r, s.h.position = some (.poll op addr) → exec (decodeIr 0x11#5 s.h.width 0#64) s = .next s' → s'.h.ret = .bits r →
      let value : Ret := match op with
        | .read => .data (BitVec.ofNat 32 (bitsVal ((r.drop 2).take 32)))
        | .write => .unit
      (bitsVal (r.take 2) = 3 →
        step s = .next { s' with h := { s'.h with position := some (.retryReset op addr), ret := .none } }) ∧
      (bitsVal (r.take 2) = 0 → step s = .next { s' with h := { s'.h with position := none, ret := value } }) ∧
      (bitsVal (r.take 2) = 1 ∨ bitsVal (r.take 2) = 2 →
        step s = .next
          { s' with h := { s'.h with position := none, ret := value, diag := s'.h.diag ++ [⟨addr, bitsVal (r.take 2)⟩] } })) ∧
    (∀ r, s.h.position = some (.retryReset op addr) → exec (decodeIr 0x10#5 32 0x00010000#64) s = .next s' →
      s'.h.ret = .bits r →
      step s = .next { s' with h := { s'.h with position := some (.poll op addr), ret := .none } }) ∧
    (s.h.position = some (.poll op addr) → exec (decodeIr 0x11#5 s.h.width 0#64) s = .next s' → s'.h.ret = .simEnded →
      step s = .next { s' with h := { s'.h with position := none } })

/-- R206 (the spec's derivation; decision D14): a request that waits in Update-DR under the DMI register is sent, and a same-IR
access of the register's length reads it complete exactly if M's latency is at most the dwell count plus 2; otherwise it reads
RETRY. -/
def Obligations.SameIrPollSeesTheAnswerInTime : Prop :=
  ∀ (n d : Nat) (a : DmiResponse) (ds : List Nat) (as : List DmiResponse) (wdata : ScanWord) (s : State),
    AccessReady n 0x11#5 (34 + s.t.par.abits) s → s.h.lastIr = 0x11#5 → s.t.state = .updDR → s.t.ir = 0x11#5 →
    (dmiOpField s.t.drSr = 1 ∨ dmiOpField s.t.drSr = 2) → s.t.status = .ok → s.t.inflight = none →
    s.m.latencies = d :: ds → s.m.answers = a :: as →
    ∃ (out : Bits) (s' : State), exec (.dmiaccess (34 + s.t.par.abits) wdata) s = .next s' ∧ s'.h.ret = .bits out ∧
      respResult out = (if d ≤ s.h.idleCycles + 2 then (if a.ok then 0 else 2) else 3) ∧
      (d ≤ s.h.idleCycles + 2 → dmiOpField s.t.drSr = 1 → respDatum out = a.rdata) ∧
      respAddress out = dmiAddrField s.t.par.abits s.t.drSr % 2 ^ s.t.par.abits ∧
      s'.m.requests.length = s.m.requests.length + 1

/-- R173, R174, R65, R155 (decisions D14, D21, D23, D24): with the widths learned, the DTM at rest and M answering OK within the
dwell, a `dmi_read` or a `dmi_write` takes two scans: M is handed the request once, with the address truncated to the mask; the
read returns M's data; nothing is in flight after, nothing is logged. That each scan is one step is the model's choice (DESIGN
CHOICE, log entry 2). -/
def Obligations.DmiOperationReachesM : Prop :=
  ∀ (n d addr data : Nat) (op : ReqOp) (a : DmiResponse) (ds : List Nat) (as : List DmiResponse) (rest : List HostCall)
    (s : State),
    s.h.position = none →
    s.h.program = (match op with | .read => HostCall.dmiRead addr | .write => HostCall.dmiWrite addr data) :: rest →
    s.t.par.abits ≤ 30 → s.h.width = 34 + s.t.par.abits → s.h.mask = 2 ^ s.t.par.abits - 1 →
    AccessReady (n + (s.h.width + s.h.idleCycles + 5)) 0x11#5 s.h.width s → Coherent 0x11#5 s →
    DtmQuiet s.t → s.t.status = .ok → s.m.latencies = d :: ds → s.m.answers = a :: as → d ≤ s.h.idleCycles + 2 → a.ok = true →
    ∃ s₁ s₂ : State, step s = .next s₁ ∧ step s₁ = .next s₂ ∧
      s₂.h.ret = (match op with | .read => .data a.rdata | .write => .unit) ∧
      s₂.m.requests = s.m.requests ++
        [⟨op, addr % 2 ^ s.t.par.abits, match op with | .read => 0#32 | .write => BitVec.ofNat 32 data⟩] ∧
      s₂.m.latencies = ds ∧ s₂.m.answers = as ∧
      s₂.h.position = none ∧ s₂.h.program = rest ∧ s₂.h.diag = s.h.diag ∧ s₂.h.lastIr = 0x11#5 ∧
      s₂.h.idleCycles = s.h.idleCycles ∧ s₂.h.width = s.h.width ∧ s₂.h.mask = s.h.mask ∧
      s₂.t.state = .updDR ∧ s₂.t.ir = 0x11#5 ∧ s₂.t.status = .ok ∧ s₂.t.par = s.t.par ∧
      s₂.g.tick = s.g.tick +
        (accessCycles 0x11#5 s.h.width s + (s.h.width + s.h.idleCycles + 5)) * (2 * s.g.tckHalf) ∧
      s₂.g.tckHalf = s.g.tckHalf ∧ DtmQuiet s₂.t ∧ Ready n s₂

/-- R155: a `dmi_write` of `v` to an address, then a `dmi_read` of it, returns `v` masked to 32 bits, where M answers both in time
and its READ returns the datum of the WRITE (the premise on M that R155 names). That each scan is one step is the model's choice
(DESIGN CHOICE, log entry 2). -/
def Obligations.WriteThenReadReturnsTheDatum : Prop :=
  ∀ (n d₁ d₂ addr v : Nat) (a₁ a₂ : DmiResponse) (ds : List Nat) (as : List DmiResponse) (rest : List HostCall) (s : State),
    s.h.position = none → s.h.program = .dmiWrite addr v :: .dmiRead addr :: rest →
    s.t.par.abits ≤ 30 → s.h.width = 34 + s.t.par.abits → s.h.mask = 2 ^ s.t.par.abits - 1 →
    AccessReady (n + 3 * (s.h.width + s.h.idleCycles + 5)) 0x11#5 s.h.width s → Coherent 0x11#5 s →
    DtmQuiet s.t → s.t.status = .ok → s.m.latencies = d₁ :: d₂ :: ds → s.m.answers = a₁ :: a₂ :: as →
    d₁ ≤ s.h.idleCycles + 2 → d₂ ≤ s.h.idleCycles + 2 → a₁.ok = true → a₂.ok = true → a₂.rdata = BitVec.ofNat 32 v →
    ∃ s₁ s₂ s₃ s₄ : State, step s = .next s₁ ∧ step s₁ = .next s₂ ∧ step s₂ = .next s₃ ∧ step s₃ = .next s₄ ∧
      s₂.h.ret = .unit ∧ s₄.h.ret = .data (BitVec.ofNat 32 v) ∧
      s₄.m.requests = s.m.requests ++
        [⟨.write, addr % 2 ^ s.t.par.abits, BitVec.ofNat 32 v⟩, ⟨.read, addr % 2 ^ s.t.par.abits, 0#32⟩] ∧
      s₄.h.program = rest ∧ s₄.h.diag = s.h.diag

/-- R170, R180, R198, R213 (decisions D10, D13, D45, D46): `Dtm.reset` from construction, for every parameter set with this
hardware's clock ratios: after `Tap.reset` and three 32-bit scans it returns true with the IDCODE recorded, the dwell count, the
scan width and the mask learned, DTMCS selected on both sides, and the DMI reset waiting in Update-DR (R205). The third scan
takes 37 + idle cycles, as R180's own formula and R213 have it; R180's "(36 + idle)" is a slip (log entry 26). That `Tap.reset` and
each scan are one step is the model's choice (DESIGN CHOICE, log entry 2). -/
def Obligations.DtmResetLearnsTheDevice : Prop :=
  ∀ (n : Nat) (p : Params), Params.valid p = true → p.tckHalfMult = Config.tckHalfMult →
    p.resetTckHalves = Config.resetTckHalves →
    (p.maxTime = 0 ∨ p.resetDur + p.tckHalf + (n + (46 + 46 + (37 + p.idle))) * (2 * p.tckHalf) < p.maxTime) →
    ∃ s₁ s₂ s₃ s₄ : State, step (loadCall .dtmReset (State.initial p)) = .next s₁ ∧ step s₁ = .next s₂ ∧
      step s₂ = .next s₃ ∧ step s₃ = .next s₄ ∧
      s₄.h.ret = .flag true ∧ s₄.h.position = none ∧ s₄.h.idcode = some p.idcode ∧ s₄.h.idleCycles = p.idle ∧
      s₄.h.width = 34 + p.abits ∧ s₄.h.mask = 2 ^ p.abits - 1 ∧ s₄.h.lastIr = 0x10#5 ∧ s₄.t.ir = 0x10#5 ∧
      s₄.h.state = .updDR ∧ s₄.t.state = .updDR ∧ s₄.t.status = .ok ∧ s₄.t.inflight = none ∧ s₄.m.requests = [] ∧
      s₄.h.diag = [] ∧ (dtmcsField s₄.t.drSr).toNat = 0x00010000 ∧
      s₄.g.tick = p.resetDur + p.tckHalf + (46 + 46 + (37 + p.idle)) * (2 * p.tckHalf) ∧ Ready n s₄

/-! ### Encodings -/

/-- R69-R80: decoding the encoding of a well-formed instruction gives it back, with every operand, for every address width. -/
def Obligations.DecodeUndoesEncode : Prop :=
  ∀ (abits : Nat) (i : Instr), WellFormed abits i = true → decode abits (encode abits i) = .ok i

/-- R69-R80: a word that decodes is the encoding of what it decodes to, which is well-formed: no two words are one instruction. -/
def Obligations.EncodeUndoesDecode : Prop :=
  ∀ (abits : Nat) (w : Word) (i : Instr), decode abits w = .ok i → WellFormed abits i = true ∧ encode abits i = w

/-- R70, R74, R77, R78, R128: a few words written out from the spec's encodings, first bit shifted first, and what each is: the
DMIACCESS code with a scan-in of one zero bit, BYPASS0 with the bit 1, READ of address 0x11 and WRITE of 1 to address 0x10 with
seven address bits (95_test_vectors.md D2), the DMI reset word, a TCK cycle with TMS high. -/
def Obligations.SampleWordsDecode : Prop :=
  decode 7 ⟨.ir5, [true, false, false, false, true, false]⟩ = .ok (.dmiaccess 1 0#64) ∧
  decode 7 ⟨.ir5, [false, false, false, false, false, true]⟩ = .ok (.bypass0 1 1#64) ∧
  decode 7 ⟨.dmi, [true, false] ++ List.replicate 32 false ++ [true, false, false, false, true, false, false]⟩ =
    .ok (.dmiRead 0x11 0#32) ∧
  decode 7 ⟨.dmi, [false, true] ++ [true] ++ List.replicate 31 false ++ [false, false, false, false, true, false, false]⟩ =
    .ok (.dmiWrite 0x10 1#32) ∧
  decode 7 ⟨.dr32Dtmcs, List.replicate 16 false ++ [true] ++ List.replicate 15 false⟩ = .ok (.dtmcsDmireset 0x00010000#32) ∧
  decode 7 ⟨.cyc, [true, false]⟩ = .ok (.tckCycle true false)

/-! ### The step -/

/-- R22, R63, R157, R160: with no operation in progress, a step makes the next call, and a call that hands over an instruction runs
it on the state with that call taken off the program; the call of a CYC or IR5 word is the one that word decodes to. In a Dtm
operation, a step runs the scan of H's position. That a step is one call of `h.program`, or one scan of a Dtm operation, is the
model's choice (DESIGN CHOICE, log entry 2). -/
def Obligations.StepRunsTheNextInstruction : Prop :=
  (∀ (s : State) (c : HostCall) (cs : List HostCall) (i : Instr), s.h.position = none → s.h.program = c :: cs →
    c.instr? = some i → step s = exec i { s with h := { s.h with program := cs } }) ∧
  (∀ (abits : Nat) (tms tdi : Bool) (i : Instr), decode abits ⟨.cyc, [tms, tdi]⟩ = .ok i →
    (HostCall.cycle tms tdi).instr? = some i) ∧
  (∀ (abits : Nat) (b : Bits) (i : Instr), decode abits ⟨.ir5, b⟩ = .ok i →
    (HostCall.accessReg (BitVec.ofNat 5 (bitsVal (b.take 5))) (BitVec.ofNat 64 (bitsVal (b.drop 5))) (b.length - 5)).instr? =
      some i) ∧
  (∀ (s s' : State) (p : Position) (r : Bits), s.h.position = some p → exec (p.instr s.h) s = .next s' → s'.h.ret = .bits r →
    step s = .next (afterScan p r s'))

/-- R9, R24, R27, R49: the invariant of the machine holds after construction with this hardware's clock ratios. -/
def Obligations.ConstructionMeetsTheInvariant : Prop :=
  Inv State.reset ∧
  ∀ p : Params, Params.valid p = true → p.tckHalfMult = Config.tckHalfMult → p.resetTckHalves = Config.resetTckHalves →
    Inv (State.initial p)

/-- R24, R27, R40, R42, R49, R120: every step keeps the invariant of the machine, from every state that meets it: the clock is
consistent, the edge flags exclude each other, the device is held in reset while `rst_n` is low, H's record of the TAP state
agrees with the device's from the first rising edge after reset on, and the registers keep their widths. -/
def Obligations.StepKeepsTheInvariant : Prop :=
  ∀ s s' : State, Inv s → step s = .next s' → Inv s'

/-- R8, R64, R188, R192, R197: no step changes the construction parameters or the device's read-only contents, moves time backwards,
takes back a request or a diagnostic, or unfinishes a finished simulation. -/
def Obligations.StepKeepsTheFixedParts : Prop :=
  ∀ s s' : State, step s = .next s' →
    s'.t.par = s.t.par ∧ s'.t.finishAt = s.t.finishAt ∧ s'.g.mainHalf = s.g.mainHalf ∧ s'.g.tckHalf = s.g.tckHalf ∧
    s'.g.resetDur = s.g.resetDur ∧ s'.g.maxTime = s.g.maxTime ∧ s.g.tick ≤ s'.g.tick ∧
    (s.g.finished = true → s'.g.finished = true) ∧ (∃ sent, s'.m.requests = s.m.requests ++ sent) ∧
    (∃ logged, s'.h.diag = s.h.diag ++ logged)

/-! ### Beside the statements above -/

/-- R106 (general knowledge: the IEEE 1149.1 state diagram): the transition table, all 32 entries. -/
def Obligations.TapGraphIsTheTable : Prop :=
  (nextTap .tlr false = .rti ∧ nextTap .tlr true = .tlr) ∧
  (nextTap .rti false = .rti ∧ nextTap .rti true = .selDR) ∧
  (nextTap .selDR false = .capDR ∧ nextTap .selDR true = .selIR) ∧
  (nextTap .capDR false = .shDR ∧ nextTap .capDR true = .ex1DR) ∧
  (nextTap .shDR false = .shDR ∧ nextTap .shDR true = .ex1DR) ∧
  (nextTap .ex1DR false = .pauseDR ∧ nextTap .ex1DR true = .updDR) ∧
  (nextTap .pauseDR false = .pauseDR ∧ nextTap .pauseDR true = .ex2DR) ∧
  (nextTap .ex2DR false = .shDR ∧ nextTap .ex2DR true = .updDR) ∧
  (nextTap .updDR false = .rti ∧ nextTap .updDR true = .selDR) ∧
  (nextTap .selIR false = .capIR ∧ nextTap .selIR true = .tlr) ∧
  (nextTap .capIR false = .shIR ∧ nextTap .capIR true = .ex1IR) ∧
  (nextTap .shIR false = .shIR ∧ nextTap .shIR true = .ex1IR) ∧
  (nextTap .ex1IR false = .pauseIR ∧ nextTap .ex1IR true = .updIR) ∧
  (nextTap .pauseIR false = .pauseIR ∧ nextTap .pauseIR true = .ex2IR) ∧
  (nextTap .ex2IR false = .shIR ∧ nextTap .ex2IR true = .updIR) ∧
  (nextTap .updIR false = .rti ∧ nextTap .updIR true = .selDR)

/-- R89, R167, R172 (decision D16): `read_reg` is `access_reg` with a scan-in of zeros, and stops where it stops; `dmi_reset()` is
`write_reg` of DTMCS with bit 16 set, on 32 bits. -/
def Obligations.ReadRegAndDmiResetAreAccesses : Prop :=
  (∀ (code : IrCode) (len : Nat) (s : State),
    runCall (.readReg code len) s = runCall (.accessReg code 0#64 len) s ∧
      runCall (.readReg code len) s = exec (decodeIr code len 0#64) s) ∧
  (∀ s : State, runCall .dmiReset s = runCall (.writeReg 0x10#5 0x00010000#64 32) s)

/-- R157, R178, R189, R109-R112 (decision D25): where the simulation ends before the last of a TCK cycle's advances, the cycle ends
with `SimEnded` right after the first advance at which it is over. No transition is taken; the update of a word that waits has
happened exactly if the falling edge has. That the pins of the interrupted cycle stay written is the model's reading of R189
(DEDUCED, log entry 13). -/
def Obligations.SimulationEndsInsideACycle : Prop :=
  ∀ (tms tdi : Bool) (s : State), Ready 0 s → UpdateAllowed s.t →
    OverAt (s.g.tick + 2 * s.g.tckHalf - s.g.mainHalf) s →
    ∃ s' : State, exec (.tckCycle tms tdi) s = .next s' ∧ s'.h.ret = .simEnded ∧
      EndedInside [(tms, tdi)] 0 s s' ∧ s'.t.state = s.t.state ∧ s'.h.lastIr = s.h.lastIr ∧ s'.t.irSr = s.t.irSr ∧
      s'.t.drSr = s.t.drSr ∧
      (s'.g.tick < s.g.tick + s.g.tckHalf → DtmSame s s' ∧ s'.t.ir = s.t.ir) ∧
      (s.g.tick + s.g.tckHalf ≤ s'.g.tick → DtmFall s s' ∧ s'.t.ir = settledIr s.t)

/-- R160, R169, R178, R189 (decision D25), for every IR code: where the simulation ends before the last advance of an access, the
access ends with `SimEnded` and no value right after the first advance at which it is over, `k` complete TCK cycles on: both TAP
records stand where the first `k` pin pairs of the access lead, possibly mid-scan, and H has recorded the IR exactly if the IR path
is behind it. A Dtm operation whose scan ends so is over (R188). That the pins of the interrupted cycle stay written, and that the
end of the operation is a next state, is the model's reading (DEDUCED, log entry 13). -/
def Obligations.SimulationEndsInsideAnAccess : Prop :=
  (∀ (code : IrCode) (len : Nat) (wdata : ScanWord) (s : State), Ready 0 s →
    startState s.h.state = true → UpdateAllowed s.t → 1 ≤ len → len ≤ 64 →
    OverAt (s.g.tick + accessCycles code len s * (2 * s.g.tckHalf) - s.g.mainHalf) s →
    ∃ (k : Nat) (s' : State), exec (decodeIr code len wdata) s = .next s' ∧ s'.h.ret = .simEnded ∧
      EndedInside (accessPins code wdata len s) k s s' ∧
      s'.h.lastIr = if code ≠ s.h.lastIr ∧ 10 ≤ k then code else s.h.lastIr) ∧
  (∀ (p : Position) (s s' : State), s.h.position = some p → exec (p.instr s.h) s = .next s' → s'.h.ret = .simEnded →
    step s = .next { s' with h := { s'.h with position := none } })

/-- R159, R170, R183 (decision D10): where the simulation ends before the rising edge that ends `Tap.reset`, it returns false right
after the first advance at which it is over, and H's record of the TAP state does not move: from construction, for every parameter
set with this hardware's clock ratios, with the device still held in reset; and on a link that is up. `Dtm.reset` returns false
where its `Tap.reset` did. That the pins of the interrupted cycle stay written is the model's reading of R189 (DEDUCED, log entry
13), and that the call is one step its choice (DESIGN CHOICE, log entry 2). -/
def Obligations.SimulationEndsInsideTapReset : Prop :=
  (∀ p : Params, Params.valid p = true → p.tckHalfMult = Config.tckHalfMult → p.resetTckHalves = Config.resetTckHalves →
    p.maxTime ≠ 0 → p.maxTime ≤ p.resetDur + p.tckHalf - p.mainHalf →
    ∃ s' : State, step (loadCall .tapReset (State.initial p)) = .next s' ∧ s'.h.ret = .flag false ∧
      p.maxTime ≤ s'.g.tick ∧ s'.g.tick < p.maxTime + p.mainHalf ∧ ClockOk s' ∧ s'.t.state = .tlr ∧ s'.h.state = .tlr ∧
      s'.t.ir = 0x01#5 ∧ s'.h.lastIr = 0#5 ∧ s'.t.status = .ok ∧ s'.t.inflight = none ∧ s'.t.fresh = true ∧
      s'.g.tms = false ∧ s'.g.tdi = false ∧ s'.m = (State.initial p).m ∧ s'.h.program = []) ∧
  (∀ s : State, Ready 0 s → UpdateAllowed s.t → OverAt (s.g.tick + 2 * s.g.tckHalf - s.g.mainHalf) s →
    ∃ s' : State, runCall .tapReset s = .next s' ∧ s'.h.ret = .flag false ∧ EndedInside [(false, false)] 0 s s' ∧
      s'.t.state = s.t.state ∧ s'.h.lastIr = s.h.lastIr) ∧
  (∀ s s' : State, runCall .tapReset s = .next s' → s'.h.ret = .flag false → runCall .dtmReset s = .next s')
end

