-- ==== Sys2Proof/Laws/Bits.lean ====
section
/-! SUPPORT. Laws/Bits.lean: bits and numbers. -/

namespace Sys2Proof

@[simp] theorem natBits_length (n v : Nat) : (natBits n v).length = n := by
  induction n generalizing v with
  | zero => rfl
  | succ n ih => simp [natBits, ih]

theorem bitsVal_lt (l : Bits) : bitsVal l < 2 ^ l.length := by
  induction l with
  | nil => simp [bitsVal]
  | cons b l ih =>
    have hb : b.toNat ≤ 1 := Bool.toNat_le b
    simp only [bitsVal, List.length_cons, Nat.pow_succ]
    omega

@[simp] theorem bitsVal_natBits (n v : Nat) : bitsVal (natBits n v) = v % 2 ^ n := by
  induction n generalizing v with
  | zero => simp [natBits, bitsVal, Nat.mod_one]
  | succ n ih =>
    have hb : (v % 2 == 1).toNat = v % 2 := by
      rcases Nat.mod_two_eq_zero_or_one v with h | h <;> simp [h]
    rw [natBits, bitsVal, ih, hb, Nat.pow_succ, Nat.mul_comm (2 ^ n) 2, Nat.mod_mul]

theorem natBits_bitsVal (l : Bits) : natBits l.length (bitsVal l) = l := by
  induction l with
  | nil => rfl
  | cons b l ih =>
    have hm : (b.toNat + 2 * bitsVal l) % 2 = b.toNat := by cases b <;> simp
    have hd : (b.toNat + 2 * bitsVal l) / 2 = bitsVal l := by
      cases b
      · simp
      · simp; omega
    simp only [List.length_cons, natBits, bitsVal, hm, hd, ih]
    cases b <;> rfl

theorem natBits_mod (n v : Nat) : natBits n (v % 2 ^ n) = natBits n v := by
  rw [← bitsVal_natBits, ← natBits_length n v]
  simpa using natBits_bitsVal (natBits n v)

theorem bitsVal_injective {l l' : Bits} (hl : l.length = l'.length) (h : bitsVal l = bitsVal l') : l = l' := by
  rw [← natBits_bitsVal l, ← natBits_bitsVal l', hl, h]

theorem bitsVal_append (l l' : Bits) : bitsVal (l ++ l') = bitsVal l + 2 ^ l.length * bitsVal l' := by
  induction l with
  | nil => simp [bitsVal]
  | cons b l ih => simp only [List.cons_append, bitsVal, ih, List.length_cons, Nat.pow_succ]; ring

/-- The bits of `{hi, lo}` are the bits of `lo`, then those of `hi` (R10). -/
theorem natBits_append (n m lo hi : Nat) (h : lo < 2 ^ n) :
    natBits n lo ++ natBits m hi = natBits (n + m) (lo + 2 ^ n * hi) := by
  apply bitsVal_injective
  · simp
  · rw [bitsVal_append]
    simp only [bitsVal_natBits, natBits_length, Nat.mod_eq_of_lt h, Nat.pow_add]
    rw [Nat.mod_mul, Nat.add_mul_mod_self_left, Nat.mod_eq_of_lt h, Nat.add_mul_div_left _ _ (by positivity),
      Nat.div_eq_of_lt h, Nat.zero_add]

end Sys2Proof
end

