-- ==== Sys2Proof/Laws/State.lean ====
section
/-! SUPPORT. Laws/State.lean: for each update of the state, what each part and field is after it. -/

namespace Sys2Proof.Machine

variable (s : State)

@[simp] theorem advance_h : (advance s).h = s.h := rfl
@[simp] theorem advance_t : (advance s).t = s.t := rfl
@[simp] theorem advance_m : (advance s).m = s.m := rfl
@[simp] theorem advance_free : (advance s).free = s.free := rfl
@[simp] theorem advance_tick : (advance s).g.tick = s.g.tick + s.g.mainHalf := rfl
@[simp] theorem advance_mainHalf : (advance s).g.mainHalf = s.g.mainHalf := rfl
@[simp] theorem advance_tckHalf : (advance s).g.tckHalf = s.g.tckHalf := rfl
@[simp] theorem advance_resetDur : (advance s).g.resetDur = s.g.resetDur := rfl
@[simp] theorem advance_maxTime : (advance s).g.maxTime = s.g.maxTime := rfl
@[simp] theorem advance_clk : (advance s).g.clk = clockLevel (s.g.tick + s.g.mainHalf) s.g.mainHalf := rfl
@[simp] theorem advance_tck : (advance s).g.tck = clockLevel (s.g.tick + s.g.mainHalf) s.g.tckHalf := rfl
@[simp] theorem advance_lastTck : (advance s).g.lastTck = clockLevel (s.g.tick + s.g.mainHalf) s.g.tckHalf := rfl
@[simp] theorem advance_rstN : (advance s).g.rstN = rstNLevel (s.g.tick + s.g.mainHalf) s.g.resetDur := rfl
@[simp] theorem advance_posedge :
    (advance s).g.posedge = rose s.g.lastTck (clockLevel (s.g.tick + s.g.mainHalf) s.g.tckHalf) := rfl
@[simp] theorem advance_negedge :
    (advance s).g.negedge = fell s.g.lastTck (clockLevel (s.g.tick + s.g.mainHalf) s.g.tckHalf) := rfl
@[simp] theorem advance_finished : (advance s).g.finished = s.g.finished := rfl
@[simp] theorem advance_tms : (advance s).g.tms = s.g.tms := rfl
@[simp] theorem advance_tdi : (advance s).g.tdi = s.g.tdi := rfl
@[simp] theorem advance_tdo : (advance s).g.tdo = s.g.tdo := rfl

@[simp] theorem commitPins_g : (commitPins s).g = s.g := rfl
@[simp] theorem commitPins_h : (commitPins s).h = s.h := rfl
@[simp] theorem commitPins_m : (commitPins s).m = s.m := rfl
@[simp] theorem commitPins_free : (commitPins s).free = s.free := rfl
@[simp] theorem commitPins_t :
    (commitPins s).t = { s.t with pins := ⟨s.g.clk, s.g.rstN, s.g.tck, s.g.tms, s.g.tdi⟩ } := rfl

@[simp] theorem sampleOutputs_h : (sampleOutputs s).h = s.h := rfl
@[simp] theorem sampleOutputs_t : (sampleOutputs s).t = s.t := rfl
@[simp] theorem sampleOutputs_m : (sampleOutputs s).m = s.m := rfl
@[simp] theorem sampleOutputs_free : (sampleOutputs s).free = s.free := rfl
@[simp] theorem sampleOutputs_tick : (sampleOutputs s).g.tick = s.g.tick := rfl
@[simp] theorem sampleOutputs_mainHalf : (sampleOutputs s).g.mainHalf = s.g.mainHalf := rfl
@[simp] theorem sampleOutputs_tckHalf : (sampleOutputs s).g.tckHalf = s.g.tckHalf := rfl
@[simp] theorem sampleOutputs_resetDur : (sampleOutputs s).g.resetDur = s.g.resetDur := rfl
@[simp] theorem sampleOutputs_maxTime : (sampleOutputs s).g.maxTime = s.g.maxTime := rfl
@[simp] theorem sampleOutputs_clk : (sampleOutputs s).g.clk = s.g.clk := rfl
@[simp] theorem sampleOutputs_tck : (sampleOutputs s).g.tck = s.g.tck := rfl
@[simp] theorem sampleOutputs_rstN : (sampleOutputs s).g.rstN = s.g.rstN := rfl
@[simp] theorem sampleOutputs_lastTck : (sampleOutputs s).g.lastTck = s.g.lastTck := rfl
@[simp] theorem sampleOutputs_posedge : (sampleOutputs s).g.posedge = s.g.posedge := rfl
@[simp] theorem sampleOutputs_negedge : (sampleOutputs s).g.negedge = s.g.negedge := rfl
@[simp] theorem sampleOutputs_tms : (sampleOutputs s).g.tms = s.g.tms := rfl
@[simp] theorem sampleOutputs_tdi : (sampleOutputs s).g.tdi = s.g.tdi := rfl
@[simp] theorem sampleOutputs_tdo : (sampleOutputs s).g.tdo = s.t.tdo := rfl

@[simp] theorem drive_t (tms tdi : Bool) : (drive tms tdi s).t = s.t := rfl
@[simp] theorem drive_m (tms tdi : Bool) : (drive tms tdi s).m = s.m := rfl
@[simp] theorem drive_free (tms tdi : Bool) : (drive tms tdi s).free = s.free := rfl
@[simp] theorem drive_g (tms tdi : Bool) : (drive tms tdi s).g = { s.g with tms := tms, tdi := tdi } := rfl
@[simp] theorem drive_h (tms tdi : Bool) : (drive tms tdi s).h = { s.h with tmsDrv := tms, tdiDrv := tdi } := rfl

@[simp] theorem mirror_g (tms : Bool) : (mirror tms s).g = s.g := rfl
@[simp] theorem mirror_h (tms : Bool) : (mirror tms s).h = { s.h with state := nextTap s.h.state tms } := rfl
@[simp] theorem mirror_t (tms : Bool) : (mirror tms s).t = s.t := rfl
@[simp] theorem mirror_m (tms : Bool) : (mirror tms s).m = s.m := rfl
@[simp] theorem mirror_free (tms : Bool) : (mirror tms s).free = s.free := rfl

@[simp] theorem noteIr_g (c : IrCode) : (noteIr c s).g = s.g := rfl
@[simp] theorem noteIr_h (c : IrCode) : (noteIr c s).h = { s.h with lastIr := c } := rfl
@[simp] theorem noteIr_t (c : IrCode) : (noteIr c s).t = s.t := rfl
@[simp] theorem noteIr_m (c : IrCode) : (noteIr c s).m = s.m := rfl
@[simp] theorem noteIr_free (c : IrCode) : (noteIr c s).free = s.free := rfl

@[simp] theorem setRet_g (r : Ret) : (setRet r s).g = s.g := rfl
@[simp] theorem setRet_h (r : Ret) : (setRet r s).h = { s.h with ret := r } := rfl
@[simp] theorem setRet_t (r : Ret) : (setRet r s).t = s.t := rfl
@[simp] theorem setRet_m (r : Ret) : (setRet r s).m = s.m := rfl
@[simp] theorem setRet_free (r : Ret) : (setRet r s).free = s.free := rfl

@[simp] theorem deviceReset_g : (deviceReset s).g = s.g := rfl
@[simp] theorem deviceReset_h : (deviceReset s).h = s.h := rfl
@[simp] theorem deviceReset_m : (deviceReset s).m = s.m := rfl
@[simp] theorem deviceReset_state : (deviceReset s).t.state = .tlr := rfl
@[simp] theorem deviceReset_ir : (deviceReset s).t.ir = 0x01#5 := rfl
@[simp] theorem deviceReset_status : (deviceReset s).t.status = .ok := rfl
@[simp] theorem deviceReset_inflight : (deviceReset s).t.inflight = none := rfl
@[simp] theorem deviceReset_fresh : (deviceReset s).t.fresh = true := rfl
@[simp] theorem deviceReset_pins : (deviceReset s).t.pins = s.t.pins := rfl
@[simp] theorem deviceReset_par : (deviceReset s).t.par = s.t.par := rfl
@[simp] theorem deviceReset_finishAt : (deviceReset s).t.finishAt = s.t.finishAt := rfl

@[simp] theorem dropBusy_g : (dropBusy s).g = s.g := rfl
@[simp] theorem dropBusy_h : (dropBusy s).h = s.h := rfl
@[simp] theorem dropBusy_t : (dropBusy s).t = noteBusy s.t := rfl
@[simp] theorem dropBusy_m : (dropBusy s).m = s.m := rfl
@[simp] theorem dropBusy_free : (dropBusy s).free = s.free := rfl

@[simp] theorem sendRequest_g (r : DmiRequest) : (sendRequest r s).g = s.g := rfl
@[simp] theorem sendRequest_h (r : DmiRequest) : (sendRequest r s).h = s.h := rfl
@[simp] theorem sendRequest_t (r : DmiRequest) :
    (sendRequest r s).t = { s.t with inflight := some ⟨r, drawLatency s⟩, respAddr := r.addr } := rfl
@[simp] theorem sendRequest_requests (r : DmiRequest) : (sendRequest r s).m.requests = s.m.requests ++ [r] := rfl
@[simp] theorem sendRequest_latencies (r : DmiRequest) : (sendRequest r s).m.latencies = s.m.latencies.drop 1 := rfl
@[simp] theorem sendRequest_answers (r : DmiRequest) : (sendRequest r s).m.answers = s.m.answers := rfl
@[simp] theorem sendRequest_free (r : DmiRequest) : (sendRequest r s).free = s.free + 1 := rfl

@[simp] theorem dmiStatusReset_g : (dmiStatusReset s).g = s.g := rfl
@[simp] theorem dmiStatusReset_h : (dmiStatusReset s).h = s.h := rfl
@[simp] theorem dmiStatusReset_t : (dmiStatusReset s).t = { s.t with status := .ok } := rfl
@[simp] theorem dmiStatusReset_m : (dmiStatusReset s).m = s.m := rfl
@[simp] theorem dmiStatusReset_free : (dmiStatusReset s).free = s.free := rfl

@[simp] theorem dmiHardReset_g : (dmiHardReset s).g = s.g := rfl
@[simp] theorem dmiHardReset_h : (dmiHardReset s).h = s.h := rfl
@[simp] theorem dmiHardReset_t : (dmiHardReset s).t = { s.t with status := .ok, inflight := none } := rfl
@[simp] theorem dmiHardReset_m : (dmiHardReset s).m = s.m := rfl
@[simp] theorem dmiHardReset_free : (dmiHardReset s).free = s.free := rfl

@[simp] theorem updateIr_g : (updateIr s).g = s.g := rfl
@[simp] theorem updateIr_h : (updateIr s).h = s.h := rfl
@[simp] theorem updateIr_t : (updateIr s).t = { s.t with ir := s.t.irSr } := rfl
@[simp] theorem updateIr_m : (updateIr s).m = s.m := rfl
@[simp] theorem updateIr_free : (updateIr s).free = s.free := rfl

@[simp] theorem complete_g (op : ReqOp) : (complete op s).g = s.g := rfl
@[simp] theorem complete_h (op : ReqOp) : (complete op s).h = s.h := rfl
@[simp] theorem complete_state (op : ReqOp) : (complete op s).t.state = s.t.state := rfl
@[simp] theorem complete_ir (op : ReqOp) : (complete op s).t.ir = s.t.ir := rfl
@[simp] theorem complete_irSr (op : ReqOp) : (complete op s).t.irSr = s.t.irSr := rfl
@[simp] theorem complete_drSr (op : ReqOp) : (complete op s).t.drSr = s.t.drSr := rfl
@[simp] theorem complete_tdo (op : ReqOp) : (complete op s).t.tdo = s.t.tdo := rfl
@[simp] theorem complete_inflight (op : ReqOp) : (complete op s).t.inflight = none := rfl
@[simp] theorem complete_respAddr (op : ReqOp) : (complete op s).t.respAddr = s.t.respAddr := rfl
@[simp] theorem complete_fresh (op : ReqOp) : (complete op s).t.fresh = s.t.fresh := rfl
@[simp] theorem complete_pins (op : ReqOp) : (complete op s).t.pins = s.t.pins := rfl
@[simp] theorem complete_par (op : ReqOp) : (complete op s).t.par = s.t.par := rfl
@[simp] theorem complete_finishAt (op : ReqOp) : (complete op s).t.finishAt = s.t.finishAt := rfl
@[simp] theorem complete_requests (op : ReqOp) : (complete op s).m.requests = s.m.requests := rfl
@[simp] theorem complete_latencies (op : ReqOp) : (complete op s).m.latencies = s.m.latencies := rfl
@[simp] theorem complete_answers (op : ReqOp) : (complete op s).m.answers = s.m.answers.drop 1 := rfl
@[simp] theorem complete_free (op : ReqOp) : (complete op s).free = s.free + 1 := rfl

@[simp] theorem goTo_g (p : Position) : (goTo p s).g = s.g := rfl
@[simp] theorem goTo_h (p : Position) : (goTo p s).h = { s.h with position := some p, ret := .none } := rfl
@[simp] theorem goTo_t (p : Position) : (goTo p s).t = s.t := rfl
@[simp] theorem goTo_m (p : Position) : (goTo p s).m = s.m := rfl
@[simp] theorem finishOp_g (r : Ret) : (finishOp r s).g = s.g := rfl
@[simp] theorem finishOp_h (r : Ret) : (finishOp r s).h = { s.h with position := none, ret := r } := rfl
@[simp] theorem finishOp_t (r : Ret) : (finishOp r s).t = s.t := rfl
@[simp] theorem finishOp_m (r : Ret) : (finishOp r s).m = s.m := rfl
@[simp] theorem emit_g (d : DmiResult) : (emit d s).g = s.g := rfl
@[simp] theorem emit_h (d : DmiResult) : (emit d s).h = { s.h with diag := s.h.diag ++ [d] } := rfl
@[simp] theorem emit_t (d : DmiResult) : (emit d s).t = s.t := rfl
@[simp] theorem emit_m (d : DmiResult) : (emit d s).m = s.m := rfl

/-! ### Updates that split on a case -/

@[simp] theorem noteBusy_state (t : Device) : (noteBusy t).state = t.state := by unfold noteBusy; split <;> rfl
@[simp] theorem noteBusy_ir (t : Device) : (noteBusy t).ir = t.ir := by unfold noteBusy; split <;> rfl
@[simp] theorem noteBusy_irSr (t : Device) : (noteBusy t).irSr = t.irSr := by unfold noteBusy; split <;> rfl
@[simp] theorem noteBusy_drSr (t : Device) : (noteBusy t).drSr = t.drSr := by unfold noteBusy; split <;> rfl
@[simp] theorem noteBusy_tdo (t : Device) : (noteBusy t).tdo = t.tdo := by unfold noteBusy; split <;> rfl
@[simp] theorem noteBusy_inflight (t : Device) : (noteBusy t).inflight = t.inflight := by unfold noteBusy; split <;> rfl
@[simp] theorem noteBusy_respAddr (t : Device) : (noteBusy t).respAddr = t.respAddr := by unfold noteBusy; split <;> rfl
@[simp] theorem noteBusy_respData (t : Device) : (noteBusy t).respData = t.respData := by unfold noteBusy; split <;> rfl
@[simp] theorem noteBusy_fresh (t : Device) : (noteBusy t).fresh = t.fresh := by unfold noteBusy; split <;> rfl
@[simp] theorem noteBusy_pins (t : Device) : (noteBusy t).pins = t.pins := by unfold noteBusy; split <;> rfl
@[simp] theorem noteBusy_par (t : Device) : (noteBusy t).par = t.par := by unfold noteBusy; split <;> rfl
@[simp] theorem noteBusy_finishAt (t : Device) : (noteBusy t).finishAt = t.finishAt := by unfold noteBusy; split <;> rfl
theorem noteBusy_status (t : Device) :
    (noteBusy t).status = if t.inflight.isSome && t.status == .ok then .retry else t.status := by
  unfold noteBusy; split <;> rfl

@[simp] theorem driveTdo_g : (driveTdo s).g = s.g := by unfold driveTdo; split <;> rfl
@[simp] theorem driveTdo_h : (driveTdo s).h = s.h := by unfold driveTdo; split <;> rfl
@[simp] theorem driveTdo_m : (driveTdo s).m = s.m := by unfold driveTdo; split <;> rfl
/-- At a falling edge only the TDO latch of the device changes (R110). -/
theorem driveTdo_t : ∃ b, (driveTdo s).t = { s.t with tdo := b } := by
  unfold driveTdo; split <;> exact ⟨_, rfl⟩
@[simp] theorem driveTdo_state : (driveTdo s).t.state = s.t.state := by obtain ⟨b, h⟩ := driveTdo_t s; rw [h]
@[simp] theorem driveTdo_ir : (driveTdo s).t.ir = s.t.ir := by obtain ⟨b, h⟩ := driveTdo_t s; rw [h]
@[simp] theorem driveTdo_irSr : (driveTdo s).t.irSr = s.t.irSr := by obtain ⟨b, h⟩ := driveTdo_t s; rw [h]
@[simp] theorem driveTdo_drSr : (driveTdo s).t.drSr = s.t.drSr := by obtain ⟨b, h⟩ := driveTdo_t s; rw [h]
@[simp] theorem driveTdo_status : (driveTdo s).t.status = s.t.status := by obtain ⟨b, h⟩ := driveTdo_t s; rw [h]
@[simp] theorem driveTdo_inflight : (driveTdo s).t.inflight = s.t.inflight := by obtain ⟨b, h⟩ := driveTdo_t s; rw [h]
@[simp] theorem driveTdo_respAddr : (driveTdo s).t.respAddr = s.t.respAddr := by obtain ⟨b, h⟩ := driveTdo_t s; rw [h]
@[simp] theorem driveTdo_respData : (driveTdo s).t.respData = s.t.respData := by obtain ⟨b, h⟩ := driveTdo_t s; rw [h]
@[simp] theorem driveTdo_fresh : (driveTdo s).t.fresh = s.t.fresh := by obtain ⟨b, h⟩ := driveTdo_t s; rw [h]
@[simp] theorem driveTdo_pins : (driveTdo s).t.pins = s.t.pins := by obtain ⟨b, h⟩ := driveTdo_t s; rw [h]
@[simp] theorem driveTdo_par : (driveTdo s).t.par = s.t.par := by obtain ⟨b, h⟩ := driveTdo_t s; rw [h]
@[simp] theorem driveTdo_finishAt : (driveTdo s).t.finishAt = s.t.finishAt := by obtain ⟨b, h⟩ := driveTdo_t s; rw [h]

end Sys2Proof.Machine
end

