-- ==== Sys2Proof/Laws/Device.lean ====
section
/-! SUPPORT. Laws/Device.lean: what the device's edge steps can do, said once. -/

namespace Sys2Proof.Machine

/-- What neither edge of the device changes: G, H, the committed pins and the read-only contents. -/
structure EdgeKept (s u : State) : Prop where
  g : u.g = s.g
  h : u.h = s.h
  pins : u.t.pins = s.t.pins
  par : u.t.par = s.t.par
  finishAt : u.t.finishAt = s.t.finishAt

theorem EdgeKept.refl (s : State) : EdgeKept s s := ⟨rfl, rfl, rfl, rfl, rfl⟩

theorem EdgeKept.trans {s u v : State} (a : EdgeKept s u) (b : EdgeKept u v) : EdgeKept s v :=
  ⟨b.g.trans a.g, b.h.trans a.h, b.pins.trans a.pins, b.par.trans a.par, b.finishAt.trans a.finishAt⟩

/-- What the update actions and the falling edge leave of the TAP: its state, both shift registers, and what only reset and the
rising edge write. -/
structure FallKept (s u : State) : Prop extends EdgeKept s u where
  state : u.t.state = s.t.state
  irSr : u.t.irSr = s.t.irSr
  drSr : u.t.drSr = s.t.drSr
  fresh : u.t.fresh = s.t.fresh
  respData : u.t.respData = s.t.respData
  answers : u.m.answers = s.m.answers

theorem FallKept.refl (s : State) : FallKept s s := ⟨EdgeKept.refl s, rfl, rfl, rfl, rfl, rfl, rfl⟩

theorem FallKept.trans {s u v : State} (a : FallKept s u) (b : FallKept u v) : FallKept s v :=
  ⟨a.toEdgeKept.trans b.toEdgeKept, b.state.trans a.state, b.irSr.trans a.irSr, b.drSr.trans a.drSr,
    b.fresh.trans a.fresh, b.respData.trans a.respData, b.answers.trans a.answers⟩

theorem dropBusy_kept (s : State) : FallKept s (dropBusy s) :=
  ⟨⟨rfl, rfl, by simp, by simp, by simp⟩, by simp, by simp, by simp, by simp, by simp, rfl⟩

theorem dmiRequestUpdate_kept (r : DmiRequest) (s : State) : FallKept s (dmiRequestUpdate r s) := by
  unfold dmiRequestUpdate
  split
  · exact FallKept.refl s
  · split
    · exact dropBusy_kept s
    · exact ⟨⟨rfl, rfl, rfl, rfl, rfl⟩, rfl, rfl, rfl, rfl, rfl, rfl⟩

theorem driveTdo_kept (s : State) : FallKept s (driveTdo s) :=
  ⟨⟨by simp, by simp, by simp, by simp, by simp⟩, by simp, by simp, by simp, by simp, by simp, by simp⟩

/-- An update of the DMI register is refused exactly for op 3 (R139). -/
theorem updateDmi_cases (u : Bits) (s : State) :
    (3 ≤ dmiOpField u ∧ updateDmi u s = .refused .dmiOpReserved) ∨
    (dmiOpField u ≤ 2 ∧ ∃ v, updateDmi u s = .next v ∧ FallKept s v ∧ v.t.ir = s.t.ir) := by
  unfold updateDmi
  split
  · exact .inr ⟨by omega, _, rfl, dropBusy_kept s, by simp⟩
  · refine .inr ⟨by omega, _, rfl, dmiRequestUpdate_kept _ s, ?_⟩
    unfold dmiRequestUpdate; split <;> [rfl; (split <;> [simp; rfl])]
  · refine .inr ⟨by omega, _, rfl, dmiRequestUpdate_kept _ s, ?_⟩
    unfold dmiRequestUpdate; split <;> [rfl; (split <;> [simp; rfl])]
  · rename_i h0 h1 h2
    refine .inl ⟨?_, rfl⟩
    by_contra hlt
    have : dmiOpField u = 0 ∨ dmiOpField u = 1 ∨ dmiOpField u = 2 := by omega
    rcases this with h | h | h <;> contradiction

/-- An update of DTMCS always goes on (R128), and writes the status and the request in flight only. -/
theorem updateDtmcs_next (u : Word32) (s : State) :
    ∃ v, updateDtmcs u s = .next v ∧ FallKept s v ∧ v.t.ir = s.t.ir := by
  unfold updateDtmcs
  split
  · exact ⟨_, rfl, ⟨⟨rfl, rfl, rfl, rfl, rfl⟩, rfl, rfl, rfl, rfl, rfl, rfl⟩, rfl⟩
  · split
    · exact ⟨_, rfl, ⟨⟨rfl, rfl, rfl, rfl, rfl⟩, rfl, rfl, rfl, rfl, rfl, rfl⟩, rfl⟩
    · exact ⟨_, rfl, FallKept.refl s, rfl⟩

/-- Update-DR (R112): refused exactly for op 3 of the DMI register. -/
theorem updateDr_cases (s : State) :
    (s.t.ir = 0x11#5 ∧ 3 ≤ dmiOpField s.t.drSr ∧ updateDr s = .refused .dmiOpReserved) ∨
    (¬ (s.t.ir = 0x11#5 ∧ 3 ≤ dmiOpField s.t.drSr) ∧ ∃ v, updateDr s = .next v ∧ FallKept s v ∧ v.t.ir = s.t.ir) := by
  unfold updateDr
  split
  · rename_i hir
    rcases updateDmi_cases s.t.drSr s with ⟨h, e⟩ | ⟨h, v, e, k, hv⟩
    · exact .inl ⟨hir, h, e⟩
    · exact .inr ⟨by omega, v, e, k, hv⟩
  · rename_i hir
    refine .inr ⟨fun h => hir h.1, ?_⟩
    split
    · exact updateDtmcs_next _ s
    · exact ⟨s, rfl, FallKept.refl s, rfl⟩

/-- The falling edge (R109-R112): refused exactly where Update-DR is; otherwise it keeps the TAP state and both shift registers,
and the IR but in Update-IR, where it takes the shift register. -/
theorem negedgeStep_next {s : State} (h : UpdateAllowed s.t) :
    ∃ u, negedgeStep s = .next u ∧ FallKept s u ∧ u.t.ir = settledIr s.t := by
  unfold negedgeStep settledIr
  cases hs : s.t.state <;> simp only [reduceCtorEq, if_true, if_false]
  case updIR =>
    exact ⟨_, rfl, (driveTdo_kept s).trans ⟨⟨rfl, rfl, rfl, rfl, rfl⟩, rfl, rfl, rfl, rfl, rfl, rfl⟩, by simp⟩
  case updDR =>
    rcases updateDr_cases (driveTdo s) with ⟨h1, h2, _⟩ | ⟨_, v, e, k, hv⟩
    · exact absurd ⟨hs, by simpa using h1, by simpa using h2⟩ h
    · exact ⟨v, e, (driveTdo_kept s).trans k, by simpa using hv⟩
  all_goals exact ⟨_, rfl, driveTdo_kept s, by simp⟩

/-- The falling edge either goes on or is refused with `DmiOpReserved`. -/
theorem negedgeStep_cases (s : State) :
    negedgeStep s = .refused .dmiOpReserved ∨ ∃ u, negedgeStep s = .next u ∧ FallKept s u ∧ u.t.ir = settledIr s.t := by
  by_cases h : UpdateAllowed s.t
  · exact .inr (negedgeStep_next h)
  · refine .inl ?_
    obtain ⟨hs, h1, h2⟩ := not_not.mp h
    unfold negedgeStep
    rw [hs]
    rcases updateDr_cases (driveTdo s) with ⟨_, _, e⟩ | ⟨h', _⟩
    · exact e
    · exact absurd ⟨by simpa using h1, by simpa using h2⟩ h'

/-- What a posedge action leaves of the device (R113-R118): everything but the IR, the shift registers and the status. -/
structure ActionKept (t u : Device) : Prop where
  state : u.state = t.state
  tdo : u.tdo = t.tdo
  inflight : u.inflight = t.inflight
  respAddr : u.respAddr = t.respAddr
  respData : u.respData = t.respData
  fresh : u.fresh = t.fresh
  pins : u.pins = t.pins
  par : u.par = t.par
  finishAt : u.finishAt = t.finishAt

theorem posedgeAction_kept (t : Device) : ActionKept t (posedgeAction t) := by
  have hc : ActionKept t (captureDr t) := by
    unfold captureDr
    split
    · exact ⟨rfl, rfl, rfl, rfl, rfl, rfl, rfl, rfl, rfl⟩
    · split
      · exact ⟨rfl, rfl, rfl, rfl, rfl, rfl, rfl, rfl, rfl⟩
      · split
        · exact ⟨by simp, by simp, by simp, by simp, by simp, by simp, by simp, by simp, by simp⟩
        · exact ⟨rfl, rfl, rfl, rfl, rfl, rfl, rfl, rfl, rfl⟩
  unfold posedgeAction
  split
  all_goals first
    | exact hc
    | exact ⟨rfl, rfl, rfl, rfl, rfl, rfl, rfl, rfl, rfl⟩

/-- What a rising edge does to the request in flight leaves everything but it, the status, the response data and M's answers. -/
structure TickKept (s u : State) : Prop extends EdgeKept s u where
  state : u.t.state = s.t.state
  ir : u.t.ir = s.t.ir
  irSr : u.t.irSr = s.t.irSr
  drSr : u.t.drSr = s.t.drSr
  tdo : u.t.tdo = s.t.tdo
  respAddr : u.t.respAddr = s.t.respAddr
  fresh : u.t.fresh = s.t.fresh
  requests : u.m.requests = s.m.requests
  latencies : u.m.latencies = s.m.latencies

theorem tickInflight_kept (s : State) : TickKept s (tickInflight s) := by
  unfold tickInflight
  split
  · exact ⟨EdgeKept.refl s, rfl, rfl, rfl, rfl, rfl, rfl, rfl, rfl, rfl⟩
  · split
    · exact ⟨⟨rfl, rfl, rfl, rfl, rfl⟩, rfl, rfl, rfl, rfl, rfl, rfl, rfl, rfl, rfl⟩
    · exact ⟨⟨rfl, rfl, rfl, rfl, rfl⟩, rfl, rfl, rfl, rfl, rfl, rfl, rfl, rfl, rfl⟩

theorem tickInflight_none {s : State} (h : s.t.inflight = none) : tickInflight s = s := by
  unfold tickInflight; rw [h]

/-- What a rising edge leaves (R113-R119, R147), and where it takes the controller. -/
structure RiseKept (s v : State) : Prop extends EdgeKept s v where
  state : v.t.state = nextTap s.t.state s.t.pins.tms
  fresh : v.t.fresh = false
  ir : v.t.ir = (posedgeAction s.t).ir
  irSr : v.t.irSr = (posedgeAction s.t).irSr
  drSr : v.t.drSr = (posedgeAction s.t).drSr
  tdo : v.t.tdo = s.t.tdo
  respAddr : v.t.respAddr = s.t.respAddr
  requests : v.m.requests = s.m.requests
  latencies : v.m.latencies = s.m.latencies

/-- The rising edge (R113-R119, R123): refused exactly at the first one after reset with TMS = 1. -/
theorem posedgeStep_cases (s : State) :
    (s.t.fresh = true ∧ s.t.pins.tms = true ∧ posedgeStep s = .refused .resetWindowTms) ∨
    ((s.t.fresh = false ∨ s.t.pins.tms = false) ∧ ∃ v, posedgeStep s = .next v ∧ RiseKept s v) := by
  unfold posedgeStep
  cases hf : s.t.fresh <;> cases ht : s.t.pins.tms
  case true.true => exact .inl ⟨rfl, rfl, rfl⟩
  all_goals
    refine .inr ⟨by simp, _, rfl, ?_⟩
    have k := tickInflight_kept { s with t := posedgeAction s.t }
    have a := posedgeAction_kept s.t
    exact ⟨⟨k.g, k.h, k.pins.trans a.pins, k.par.trans a.par, k.finishAt.trans a.finishAt⟩, by simp [ht], rfl, k.ir, k.irSr,
      k.drSr, k.tdo.trans a.tdo, k.respAddr.trans a.respAddr, k.requests, k.latencies⟩

end Sys2Proof.Machine
end

