-- ==== Sys2Proof/Laws/Cycle.lean ====
section
/-! SUPPORT. Laws/Cycle.lean: one advance, one `eval` and one TCK cycle of a link that is up (R91-R93, R102, R157), said once. -/

namespace Sys2Proof.Machine

/-! ### The clock -/

/-- The half-period count of the tick: TCK is high in the half-periods 2 and 3 of every four (R102). -/
def phase (s : State) : Nat := s.g.tick / s.g.mainHalf

theorem ClockOk.tick_eq {s : State} (h : ClockOk s) : s.g.tick = phase s * s.g.mainHalf := by
  have := Nat.div_add_mod s.g.tick s.g.mainHalf
  rw [h.tick_whole, Nat.add_zero, Nat.mul_comm] at this
  exact this.symm

theorem clockLevel_mul (j : Nat) {m : Nat} (hm : 1 ≤ m) : clockLevel (j * m) (Config.tckHalfMult * m) = (j / 2 % 2 == 1) := by
  unfold clockLevel Config.tckHalfMult
  rw [Nat.mul_div_mul_right _ _ (by omega)]

theorem ClockOk.tck_phase {s : State} (h : ClockOk s) : s.g.tck = (phase s / 2 % 2 == 1) := by
  rw [h.tck_eq, h.tckHalf_eq, h.tick_eq, clockLevel_mul _ h.main_pos]

theorem ClockOk.advance_tick_eq {s : State} (h : ClockOk s) : (advance s).g.tick = (phase s + 1) * s.g.mainHalf := by
  rw [advance_tick, Nat.add_mul, Nat.one_mul, ← h.tick_eq]

theorem ClockOk.advance_phase {s : State} (h : ClockOk s) : phase (advance s) = phase s + 1 := by
  unfold phase
  rw [advance_tick, advance_mainHalf]
  exact Nat.add_div_right _ h.main_pos

theorem ClockOk.advance_level {s : State} (h : ClockOk s) : (advance s).g.tck = ((phase s + 1) / 2 % 2 == 1) := by
  rw [advance_tck, h.tckHalf_eq, ← advance_tick, h.advance_tick_eq, clockLevel_mul _ h.main_pos]

/-- An advance raises TCK exactly on entering half-period 2 of four (R92, R102). -/
theorem ClockOk.advance_posedge_iff {s : State} (h : ClockOk s) :
    (advance s).g.posedge = true ↔ (phase s + 1) % 4 = 2 := by
  have hl : (advance s).g.posedge = rose s.g.lastTck (advance s).g.tck := rfl
  rw [hl, h.lastTck_eq, h.advance_level, h.tck_phase]
  simp only [rose, Bool.and_eq_true, Bool.not_eq_true', beq_eq_false_iff_ne, beq_iff_eq]
  omega

/-- An advance lowers TCK exactly on entering half-period 0 of four (R92, R102). -/
theorem ClockOk.advance_negedge_iff {s : State} (h : ClockOk s) :
    (advance s).g.negedge = true ↔ (phase s + 1) % 4 = 0 := by
  have hl : (advance s).g.negedge = fell s.g.lastTck (advance s).g.tck := rfl
  rw [hl, h.lastTck_eq, h.advance_level, h.tck_phase]
  simp only [fell, Bool.and_eq_true, Bool.not_eq_true', beq_eq_false_iff_ne, beq_iff_eq]
  omega

theorem ClockOk.risen_iff {s : State} (h : ClockOk s) : s.g.tick % (2 * s.g.tckHalf) = s.g.tckHalf ↔ phase s % 4 = 2 := by
  have e : 2 * s.g.tckHalf = 4 * s.g.mainHalf := by rw [h.tckHalf_eq, Config.tckHalfMult]; ring
  have hm := h.main_pos
  rw [e, h.tckHalf_eq, h.tick_eq, Nat.mul_mod_mul_right, Config.tckHalfMult]
  constructor
  · intro x; exact Nat.eq_of_mul_eq_mul_right hm x
  · intro x; rw [x]

/-! ### `eval` -/

/-- An `eval` whose device step goes on (R93). -/
theorem eval_next {s u : State} (h : deviceStep s.t.pins.tck (commitPins s) = .next u) :
    eval s = .next (sampleOutputs u) := by
  unfold eval; rw [h]

theorem eval_refused {s : State} {r : Refusal} (h : deviceStep s.t.pins.tck (commitPins s) = .refused r) :
    eval s = .refused r := by
  unfold eval; rw [h]

/-- What the device's step of an `eval` may be (R93), with `rst_n` high: nothing, a falling or a rising edge, by the levels. -/
theorem deviceStep_high (prev : Bool) {s : State} (hr : s.g.rstN = true) :
    deviceStep prev s =
      if fell prev s.t.pins.tck then negedgeStep s else if rose prev s.t.pins.tck then posedgeStep s else .next s := by
  unfold deviceStep; simp [hr]

/-! ### The device's view of a cycle -/

/-- The state whose falling edge a cycle performs: the pins are driven and two advances have been taken. -/
def fallState (tms tdi : Bool) (s : State) : State :=
  commitPins (advance (sampleOutputs (commitPins (advance (drive tms tdi s)))))

/-- The state whose rising edge a cycle performs, where its falling edge left `u`. -/
def riseState (u : State) : State :=
  commitPins (advance (sampleOutputs (commitPins (advance (sampleOutputs u)))))

@[simp] theorem fallState_h (tms tdi : Bool) (s : State) : (fallState tms tdi s).h = (drive tms tdi s).h := rfl
@[simp] theorem fallState_m (tms tdi : Bool) (s : State) : (fallState tms tdi s).m = s.m := rfl
@[simp] theorem fallState_free (tms tdi : Bool) (s : State) : (fallState tms tdi s).free = s.free := rfl
theorem fallState_t (tms tdi : Bool) (s : State) : ∃ p, (fallState tms tdi s).t = { s.t with pins := p } := ⟨_, rfl⟩
@[simp] theorem riseState_h (u : State) : (riseState u).h = u.h := rfl
@[simp] theorem riseState_m (u : State) : (riseState u).m = u.m := rfl
@[simp] theorem riseState_free (u : State) : (riseState u).free = u.free := rfl
theorem riseState_t (u : State) : ∃ p, (riseState u).t = { u.t with pins := p } ∧ p.tms = u.g.tms ∧ p.tdi = u.g.tdi :=
  ⟨_, rfl, rfl, rfl⟩

/-- `all_done()` is false while the tick stays below both ends (R97). -/
theorem allDone_false {s : State} (hf : s.g.finished = false) (hm : s.g.maxTime = 0 ∨ s.g.tick < s.g.maxTime) :
    allDone s = false := by
  unfold allDone
  rcases hm with h | h
  · simp [hf, h]
  · simp [hf]; omega

/-- `$finish` is not sampled before its tick (R93). -/
theorem sampleOutputs_finished {s : State} (hf : s.g.finished = false) (hk : ∀ k ∈ s.t.finishAt, s.g.tick < k) :
    (sampleOutputs s).g.finished = false := by
  unfold sampleOutputs
  cases h : s.t.finishAt with
  | none => simp [hf]
  | some k => simp [hf, hk k (by simp [h])]

theorem rstNLevel_true {tick d : Nat} (h : d ≤ tick) : rstNLevel tick d = true := by
  unfold rstNLevel; simp; omega

/-- After an advance whose device step keeps G and the pins, G is consistent again (R24). -/
theorem ClockOk.after {s u : State} (h : ClockOk s) (hg : u.g = (advance s).g) (hp : u.t.pins = (commitPins (advance s)).t.pins) :
    ClockOk (sampleOutputs u) where
  main_pos := by simp [hg, h.main_pos]
  tckHalf_eq := by simp [hg, h.tckHalf_eq]
  resetDur_eq := by simp [hg, h.resetDur_eq]
  tick_whole := by simp [hg, h.tick_whole]
  clk_eq := by simp [hg]
  tck_eq := by simp [hg]
  rstN_eq := by simp [hg]
  lastTck_eq := by simp [hg]
  seen := by simp [hg, hp]

/-- One advance and `eval` with `rst_n` high, between the edges: only time passes (R92, R93). -/
theorem advanceEval_between {s : State} (h : ClockOk s) (hr : s.g.resetDur ≤ s.g.tick) (hp : phase s % 2 = 0) :
    advanceEval s = .next (sampleOutputs (commitPins (advance s))) := by
  apply eval_next
  have hl : (advance s).t.pins.tck = (commitPins (advance s)).t.pins.tck := by
    have h1 := h.advance_level
    have h2 := h.tck_phase
    show s.t.pins.tck = (advance s).g.tck
    rw [h.seen, h1, h2]
    congr 1
    omega
  have hrst : (commitPins (advance s)).g.rstN = true := rstNLevel_true (by omega)
  rw [deviceStep_high _ hrst, hl]
  cases (commitPins (advance s)).t.pins.tck <;> rfl

/-- One advance and `eval` with `rst_n` high onto a falling edge (R92, R93). -/
theorem advanceEval_fall {s : State} (h : ClockOk s) (hr : s.g.resetDur ≤ s.g.tick) (hp : phase s % 4 = 3) :
    deviceStep (advance s).t.pins.tck (commitPins (advance s)) = negedgeStep (commitPins (advance s)) := by
  have hrst : (commitPins (advance s)).g.rstN = true := rstNLevel_true (by omega)
  have h1 : (commitPins (advance s)).t.pins.tck = false := by
    show (advance s).g.tck = false
    rw [h.advance_level]; simp; omega
  have h2 : (advance s).t.pins.tck = true := by
    show s.t.pins.tck = true
    rw [h.seen, h.tck_phase]; simp; omega
  rw [deviceStep_high _ hrst, h1, h2]; rfl

/-- One advance and `eval` with `rst_n` high onto a rising edge (R92, R93). -/
theorem advanceEval_rise {s : State} (h : ClockOk s) (hr : s.g.resetDur ≤ s.g.tick) (hp : phase s % 4 = 1) :
    deviceStep (advance s).t.pins.tck (commitPins (advance s)) = posedgeStep (commitPins (advance s)) := by
  have hrst : (commitPins (advance s)).g.rstN = true := rstNLevel_true (by omega)
  have h1 : (commitPins (advance s)).t.pins.tck = true := by
    show (advance s).g.tck = true
    rw [h.advance_level]; simp; omega
  have h2 : (advance s).t.pins.tck = false := by
    show s.t.pins.tck = false
    rw [h.seen, h.tck_phase]; simp; omega
  rw [deviceStep_high _ hrst, h1, h2]; rfl

theorem ClockOk.drive {s : State} (h : ClockOk s) (tms tdi : Bool) : ClockOk (drive tms tdi s) :=
  ⟨h.main_pos, h.tckHalf_eq, h.resetDur_eq, h.tick_whole, h.clk_eq, h.tck_eq, h.rstN_eq, h.lastTck_eq, h.seen⟩

theorem phase_sampleOutputs (s : State) : phase (sampleOutputs s) = phase s := rfl
theorem phase_commitPins (s : State) : phase (commitPins s) = phase s := rfl
theorem phase_of_g {s u : State} (h : u.g = s.g) : phase u = phase s := by unfold phase; rw [h]

/-! ### The loop of a cycle -/

/-- G is consistent, out of reset, and the simulation does not end while the tick is at most `b`. -/
structure Live (b : Nat) (s : State) : Prop extends ClockOk s where
  past : s.g.resetDur ≤ s.g.tick
  inTime : s.g.tick ≤ b
  unfinished : s.g.finished = false
  cap : s.g.maxTime = 0 ∨ b < s.g.maxTime
  fin : ∀ k ∈ s.t.finishAt, b < k

theorem Live.notDone {b : Nat} {s : State} (h : Live b s) : allDone s = false :=
  allDone_false h.unfinished (h.cap.imp_right fun x => Nat.lt_of_le_of_lt h.inTime x)

/-- A device step within the time keeps the machine live. -/
theorem Live.after {b : Nat} {s u : State} (h : Live b s) (hb : s.g.tick + s.g.mainHalf ≤ b)
    (k : EdgeKept (commitPins (advance s)) u) : Live b (sampleOutputs u) := by
  have hg : u.g = (advance s).g := k.g
  have hf : u.t.finishAt = s.t.finishAt := k.finishAt
  refine ⟨h.toClockOk.after hg k.pins, ?_, ?_, ?_, ?_, ?_⟩
  · simp only [sampleOutputs_resetDur, sampleOutputs_tick, hg, advance_resetDur, advance_tick]
    exact h.past.trans (Nat.le_add_right _ _)
  · simpa [hg] using hb
  · refine sampleOutputs_finished (by rw [hg]; exact h.unfinished) fun j hj => ?_
    rw [hf] at hj
    rw [hg]
    exact Nat.lt_of_le_of_lt hb (h.fin j hj)
  · simpa [hg] using h.cap
  · simpa [hf] using h.fin

theorem Live.drive {b : Nat} {s : State} (h : Live b s) (tms tdi : Bool) : Live b (drive tms tdi s) :=
  ⟨h.toClockOk.drive tms tdi, h.past, h.inTime, h.unfinished, h.cap, h.fin⟩

/-- The loop of a cycle over an advance that is no edge. -/
theorem untilPosedge_between {b n : Nat} {tdo : Option Bool} {s : State} (h : Live b s) (hp : phase s % 2 = 0) :
    untilPosedge (n + 1) tdo s = untilPosedge n tdo (sampleOutputs (commitPins (advance s))) := by
  have hn : (advance s).g.negedge = false := by rw [Bool.eq_false_iff, ne_eq, h.advance_negedge_iff]; omega
  have hq : (advance s).g.posedge = false := by rw [Bool.eq_false_iff, ne_eq, h.advance_posedge_iff]; omega
  rw [untilPosedge, h.notDone, advanceEval_between h.toClockOk h.past hp]
  simp only [Bool.false_eq_true, if_false, tapPosedge, tapNegedge, sampleOutputs_posedge, sampleOutputs_negedge,
    commitPins_g, hn, hq]

/-- The loop of a cycle over the falling edge. -/
theorem untilPosedge_fall {b n : Nat} {tdo : Option Bool} {s : State} (h : Live b s) (hp : phase s % 4 = 3) :
    untilPosedge (n + 1) tdo s =
      match negedgeStep (commitPins (advance s)) with
      | .next u => untilPosedge n (some u.t.tdo) (sampleOutputs u)
      | .fault r => .faulted r
      | .refused r => .refused r := by
  have hd := advanceEval_fall h.toClockOk h.past hp
  have hn : (advance s).g.negedge = true := by rw [h.advance_negedge_iff]; omega
  have hq : (advance s).g.posedge = false := by rw [Bool.eq_false_iff, ne_eq, h.advance_posedge_iff]; omega
  rw [untilPosedge, h.notDone]
  rcases negedgeStep_cases (commitPins (advance s)) with e | ⟨u, e, k, _⟩
  · have he : advanceEval s = .refused .dmiOpReserved := eval_refused (hd.trans e)
    simp [he, e]
  · have he : advanceEval s = .next (sampleOutputs u) := eval_next (hd.trans e)
    have hg : u.g = (advance s).g := k.g
    simp only [he, e, Bool.false_eq_true, if_false, tapPosedge, tapNegedge, sampleOutputs_posedge, sampleOutputs_negedge,
      hg, hn, hq, if_true, sampleOutputs_tdo]

/-- The loop of a cycle over the rising edge, which ends it. -/
theorem untilPosedge_rise {b n : Nat} {tdo : Option Bool} {s : State} (h : Live b s) (hp : phase s % 4 = 1) :
    untilPosedge (n + 1) tdo s =
      match posedgeStep (commitPins (advance s)) with
      | .next v => .done tdo (sampleOutputs v)
      | .fault r => .faulted r
      | .refused r => .refused r := by
  have hd := advanceEval_rise h.toClockOk h.past hp
  have hn : (advance s).g.negedge = false := by rw [Bool.eq_false_iff, ne_eq, h.advance_negedge_iff]; omega
  have hq : (advance s).g.posedge = true := by rw [h.advance_posedge_iff]; omega
  rw [untilPosedge, h.notDone]
  rcases posedgeStep_cases (commitPins (advance s)) with ⟨_, _, e⟩ | ⟨_, v, e, k⟩
  · have he : advanceEval s = .refused .resetWindowTms := eval_refused (hd.trans e)
    simp [he, e]
  · have he : advanceEval s = .next (sampleOutputs v) := eval_next (hd.trans e)
    have hg : v.g = (advance s).g := k.g
    simp only [he, e, Bool.false_eq_true, if_false, tapPosedge, tapNegedge, sampleOutputs_posedge, sampleOutputs_negedge,
      hg, hn, hq, if_true]

/-- A link that does not end in the next TCK cycle is live up to that cycle's last advance. -/
theorem NotEnding.live {s : State} (hq : NotEnding 1 s) (h : ClockOk s) (hr : s.g.resetDur ≤ s.g.tick) :
    Live (s.g.tick + 3 * s.g.mainHalf) s := by
  have hT : s.g.tckHalf = 2 * s.g.mainHalf := h.tckHalf_eq
  exact ⟨h, hr, Nat.le_add_right _ _, hq.unfinished, hq.capFar.imp_right fun x => by omega,
    fun k hk => by have := hq.finishFar k hk; omega⟩

/-- The live states of a cycle: before its first advance and after it. -/
theorem cycle_live {s : State} (h : AfterRise s) (hl : Live (s.g.tick + 3 * s.g.mainHalf) s) (tms tdi : Bool) :
    Live (s.g.tick + 3 * s.g.mainHalf) (drive tms tdi s) ∧
    Live (s.g.tick + 3 * s.g.mainHalf) (sampleOutputs (commitPins (advance (drive tms tdi s)))) ∧
    phase (drive tms tdi s) % 4 = 2 ∧ phase (sampleOutputs (commitPins (advance (drive tms tdi s)))) % 4 = 3 := by
  have hp : phase s % 4 = 2 := h.toClockOk.risen_iff.mp h.risen
  have l0 := hl.drive tms tdi
  have l1 := l0.after (u := commitPins (advance (drive tms tdi s)))
    (by show s.g.tick + s.g.mainHalf ≤ _; omega) (EdgeKept.refl _)
  have p1 : phase (sampleOutputs (commitPins (advance (drive tms tdi s)))) = phase s + 1 := l0.advance_phase
  exact ⟨l0, l1, hp, by omega⟩

/-- The loop of a cycle after its first advance: the device's falling edge, whose TDO is the sample, then its rising edge. -/
theorem untilPosedge_rest {s : State} (h : AfterRise s) (hl : Live (s.g.tick + 3 * s.g.mainHalf) s) (tms tdi : Bool)
    (n : Nat) :
    untilPosedge (n + 3) none (sampleOutputs (commitPins (advance (drive tms tdi s)))) =
      match negedgeStep (fallState tms tdi s) with
      | .next u =>
        match posedgeStep (riseState u) with
        | .next v => .done (some u.t.tdo) (sampleOutputs v)
        | .fault r => .faulted r
        | .refused r => .refused r
      | .fault r => .faulted r
      | .refused r => .refused r := by
  have hm := h.main_pos
  obtain ⟨_, l1, _, p1⟩ := cycle_live h hl tms tdi
  have fs : commitPins (advance (sampleOutputs (commitPins (advance (drive tms tdi s))))) = fallState tms tdi s := rfl
  rw [untilPosedge_fall l1 p1, fs]
  rcases negedgeStep_cases (fallState tms tdi s) with e | ⟨u, e, k, _⟩
  · simp only [e]
  · simp only [e]
    have l2 := l1.after (by show s.g.tick + s.g.mainHalf + s.g.mainHalf ≤ _; omega) k.toEdgeKept
    have g2 : u.g.tick = s.g.tick + s.g.mainHalf + s.g.mainHalf := by rw [k.g]; rfl
    have m2 : u.g.mainHalf = s.g.mainHalf := by rw [k.g]; rfl
    have p2 : phase (sampleOutputs u) = phase (sampleOutputs (commitPins (advance (drive tms tdi s)))) + 1 := by
      rw [phase_sampleOutputs, phase_of_g k.g, ← fs, phase_commitPins, l1.advance_phase]
    have l3 := l2.after (u := commitPins (advance (sampleOutputs u)))
      (by show u.g.tick + u.g.mainHalf ≤ _; omega) (EdgeKept.refl _)
    have p3 : phase (sampleOutputs (commitPins (advance (sampleOutputs u)))) = phase (sampleOutputs u) + 1 := by
      rw [phase_sampleOutputs, phase_commitPins, l2.advance_phase]
    have rs : commitPins (advance (sampleOutputs (commitPins (advance (sampleOutputs u))))) = riseState u := rfl
    rw [untilPosedge_between l2 (by omega), untilPosedge_rise l3 (by omega), rs]

/-- The TCK cycle of a link that is out of reset (R157): the device's falling edge, whose TDO is the sample, then its rising
edge. A refusal of either edge is the cycle's. -/
theorem cycle_eq {s : State} (h : AfterRise s) (hl : Live (s.g.tick + 3 * s.g.mainHalf) s) (tms tdi : Bool) :
    cycle tms tdi s =
      match negedgeStep (fallState tms tdi s) with
      | .next u =>
        match posedgeStep (riseState u) with
        | .next v => .done (some u.t.tdo) (mirror tms (sampleOutputs v))
        | .fault r => .faulted r
        | .refused r => .refused r
      | .fault r => .faulted r
      | .refused r => .refused r := by
  have hm := h.main_pos
  have hT : s.g.tckHalf = 2 * s.g.mainHalf := h.tckHalf_eq
  obtain ⟨l0, _, p0, _⟩ := cycle_live h hl tms tdi
  have bound : edgeBound s = (2 * s.g.tckHalf - 3) + 3 + 1 := by unfold edgeBound; omega
  unfold cycle
  rw [bound, untilPosedge_between l0 (by omega), untilPosedge_rest h hl tms tdi]
  cases negedgeStep (fallState tms tdi s) with
  | next u => simp only; cases posedgeStep (riseState u) <;> rfl
  | fault r => rfl
  | refused r => rfl

/-- `Tap.reset` of a link that is out of reset is one TCK cycle with both pins low (R159, R202). -/
theorem tapReset_eq {s : State} (h : AfterRise s) (hl : Live (s.g.tick + 3 * s.g.mainHalf) s) :
    tapReset s =
      match cycle false false s with
      | .done _ s' => .next (setRet (.flag true) s')
      | .ended s' => .next (setRet (.flag false) s')
      | .faulted r => .fault r
      | .refused r => .refused r := by
  have hm := h.main_pos
  have hT : s.g.tckHalf = 2 * s.g.mainHalf := h.tckHalf_eq
  obtain ⟨l0, l1, p0, _⟩ := cycle_live h hl false false
  have first : untilOutOfReset (s.g.resetDur + 1) (drive false false s) =
      .done () (sampleOutputs (commitPins (advance (drive false false s)))) := by
    have hrst : inReset (sampleOutputs (commitPins (advance (drive false false s)))) = false := by
      unfold inReset
      have : (sampleOutputs (commitPins (advance (drive false false s)))).g.rstN = true := by
        rw [l1.rstN_eq]; exact rstNLevel_true l1.past
      rw [this]; rfl
    rw [untilOutOfReset, l0.notDone, advanceEval_between l0.toClockOk l0.past (by omega)]
    simp only [Bool.false_eq_true, if_false, hrst]
  have bound : edgeBound (sampleOutputs (commitPins (advance (drive false false s)))) = (2 * s.g.tckHalf - 2) + 3 := by
    show 2 * s.g.tckHalf + 1 = _; omega
  unfold tapReset
  rw [first, cycle_eq h hl]
  simp only
  rw [bound, untilPosedge_rest h hl]
  cases negedgeStep (fallState false false s) with
  | next u => simp only; cases posedgeStep (riseState u) <;> rfl
  | fault r => rfl
  | refused r => rfl

end Sys2Proof.Machine
end

