-- ==== Sys2Proof/Laws/Ready.lean ====
section
/-! SUPPORT. Laws/Ready.lean: a TCK cycle of a link that is up completes and leaves the link up; what no cycle changes. -/

namespace Sys2Proof.Machine

/-! ### The DR width -/

theorem drLen_pos (abits : Nat) (c : IrCode) : 1 ≤ drLen abits c := by
  unfold drLen; split <;> [omega; (split <;> omega)]

theorem captureDr_length (t : Device) : (captureDr t).drSr.length = drLen t.par.abits t.ir := by
  unfold captureDr drLen
  by_cases h1 : t.ir = 0x01#5
  · simp [h1]
  · by_cases h2 : t.ir = 0x10#5
    · simp [h2]
    · by_cases h3 : t.ir = 0x11#5
      · simp [h3, dmiCapture]; omega
      · simp [h1, h2, h3]

@[simp] theorem captureDr_ir (t : Device) : (captureDr t).ir = t.ir := by
  unfold captureDr; split <;> [rfl; (split <;> [rfl; (split <;> [simp; rfl])])]

/-- A rising edge keeps the DR register at the width of the register the IR selects (R116, R117, R120). -/
theorem drWidth_rise {s v : State} (k : RiseKept s v) (h : DrWidth s.t) : DrWidth v.t := by
  intro hv
  rw [k.state] at hv
  rw [k.drSr, k.ir, k.par]
  have h' : s.t.state.holdsDr = true → s.t.drSr.length = drLen s.t.par.abits s.t.ir := h
  unfold posedgeAction
  cases hs : s.t.state <;> rw [hs] at hv h' <;> cases ht : s.t.pins.tms <;> rw [ht] at hv <;>
    simp only [nextTap, TapState.holdsDr] at hv h' ⊢ <;>
    first
      | exact absurd hv (by decide)
      | exact (captureDr_length s.t).trans (by rw [captureDr_ir])
      | exact h' (by decide)
      | (have hl := h' (by decide)
         have hp := drLen_pos s.t.par.abits s.t.ir
         simp only [shiftDr, List.length_append, List.length_drop, List.length_singleton]
         omega)

theorem drWidth_of_eq {t u : Device} (hs : u.state = t.state) (hd : u.drSr = t.drSr) (hp : u.par = t.par)
    (hi : t.state.holdsDr = true → u.ir = t.ir) (h : DrWidth t) : DrWidth u := by
  intro hu
  rw [hs] at hu
  rw [hd, hp, hi hu]
  exact h hu

theorem settledIr_of_holdsDr {t : Device} (h : t.state.holdsDr = true) : settledIr t = t.ir := by
  unfold settledIr
  rw [if_neg]
  intro e
  rw [e] at h
  exact absurd h (by decide)

/-- Being up is about G, the device and H's record of its state. -/
theorem LinkUp.congr {s s' : State} (h : LinkUp s) (hg : s'.g = s.g) (ht : s'.t = s.t) (hh : s'.h.state = s.h.state) :
    LinkUp s' :=
  ⟨⟨⟨by rw [hg]; exact h.main_pos, by rw [hg]; exact h.tckHalf_eq, by rw [hg]; exact h.resetDur_eq, by rw [hg]; exact h.tick_whole,
        by rw [hg]; exact h.clk_eq, by rw [hg]; exact h.tck_eq, by rw [hg]; exact h.rstN_eq, by rw [hg]; exact h.lastTck_eq,
        by rw [hg, ht]; exact h.seen⟩, by rw [hg]; exact h.risen⟩,
    by rw [hg]; exact h.past, by rw [ht]; exact h.started, by rw [hh, ht]; exact h.mirrored, by rw [ht]; exact h.width⟩

theorem NotEnding.congr {n : Nat} {s s' : State} (h : NotEnding n s) (hg : s'.g = s.g) (ht : s'.t = s.t) : NotEnding n s' :=
  ⟨by rw [hg]; exact h.unfinished, by rw [hg]; exact h.capFar, by rw [hg, ht]; exact h.finishFar⟩

theorem Ready.congr {n : Nat} {s s' : State} (h : Ready n s) (hg : s'.g = s.g) (ht : s'.t = s.t) (hh : s'.h.state = s.h.state) :
    Ready n s' :=
  ⟨h.toLinkUp.congr hg ht hh, h.notEnding.congr hg ht⟩

theorem Ready.setRet {n : Nat} {s : State} (h : Ready n s) (r : Ret) : Ready n (setRet r s) := h.congr rfl rfl rfl

theorem NotEnding.mono {m n : Nat} {s : State} (h : NotEnding n s) (hm : m ≤ n) : NotEnding m s :=
  ⟨h.unfinished,
    h.capFar.imp_right fun x => by
      have := Nat.mul_le_mul_right (2 * s.g.tckHalf) hm
      omega,
    fun k hk => by
      have := h.finishFar k hk
      have := Nat.mul_le_mul_right (2 * s.g.tckHalf) hm
      omega⟩

/-- A link that stays up for more cycles stays up for fewer. -/
theorem Ready.mono {m n : Nat} {s : State} (h : Ready n s) (hm : m ≤ n) : Ready m s := ⟨h.toLinkUp, h.notEnding.mono hm⟩

/-- A link that stays up for a cycle is live up to that cycle's last advance. -/
theorem Ready.live {n : Nat} {s : State} (h : Ready (n + 1) s) : Live (s.g.tick + 3 * s.g.mainHalf) s :=
  (h.notEnding.mono (by omega)).live h.toClockOk h.past

/-! ### What no cycle changes -/

theorem Kept.refl (s : State) : Kept s s := ⟨rfl, rfl, rfl, rfl, rfl, rfl, rfl, rfl, rfl, rfl, rfl, rfl, rfl⟩

theorem Kept.trans {s u v : State} (a : Kept s u) (b : Kept u v) : Kept s v :=
  ⟨b.mainHalf.trans a.mainHalf, b.tckHalf.trans a.tckHalf, b.resetDur.trans a.resetDur, b.maxTime.trans a.maxTime,
    b.par.trans a.par, b.finishAt.trans a.finishAt, b.idleCycles.trans a.idleCycles, b.hwidth.trans a.hwidth,
    b.mask.trans a.mask, b.idcode.trans a.idcode, b.diag.trans a.diag, b.position.trans a.position,
    b.program.trans a.program⟩

/-- A device step after an advance, then the outputs sampled: kept. -/
theorem Kept.of_edge {s u : State} (k : EdgeKept (commitPins (advance s)) u) : Kept s (sampleOutputs u) := by
  have hg : u.g = (advance s).g := k.g
  have hh : u.h = s.h := k.h
  exact ⟨by simp [hg], by simp [hg], by simp [hg], by simp [hg], by simpa using k.par, by simpa using k.finishAt,
    by simp [hh], by simp [hh], by simp [hh], by simp [hh], by simp [hh], by simp [hh], by simp [hh]⟩

/-! ### A cycle completes -/

/-- The two edges of a cycle of a link that is up, with what each leaves: `u` after the falling edge, `v` after the rising. -/
structure CycleRun (tms tdi : Bool) (s u v : State) : Prop where
  fall : negedgeStep (fallState tms tdi s) = .next u
  fallKept : FallKept (fallState tms tdi s) u
  fallIr : u.t.ir = settledIr s.t
  rise : posedgeStep (riseState u) = .next v
  riseKept : RiseKept (riseState u) v

/-- The state a cycle of a link that is up ends in. -/
def cycleEnd (tms : Bool) (v : State) : State := mirror tms (sampleOutputs v)

theorem cycle_done {s : State} (h : LinkUp s) (hl : Live (s.g.tick + 3 * s.g.mainHalf) s) (ha : UpdateAllowed s.t)
    (tms tdi : Bool) :
    ∃ u v, CycleRun tms tdi s u v ∧ cycle tms tdi s = .done (some u.t.tdo) (cycleEnd tms v) := by
  obtain ⟨u, e, k, hi⟩ := negedgeStep_next (s := fallState tms tdi s) ha
  have hf : (riseState u).t.fresh = false := k.fresh.trans h.started
  rcases posedgeStep_cases (riseState u) with ⟨x, _, _⟩ | ⟨_, v, e', k'⟩
  · rw [hf] at x; cases x
  · refine ⟨u, v, ⟨e, k, hi, e', k'⟩, ?_⟩
    rw [cycle_eq h.toAfterRise hl, e]
    simp only [e', cycleEnd]

section
variable {tms tdi : Bool} {s u v : State} (r : CycleRun tms tdi s u v)
include r

theorem CycleRun.tick : (cycleEnd tms v).g.tick = s.g.tick + 4 * s.g.mainHalf := by
  have h1 : u.g.tick = s.g.tick + s.g.mainHalf + s.g.mainHalf := by rw [r.fallKept.g]; rfl
  have h2 : u.g.mainHalf = s.g.mainHalf := by rw [r.fallKept.g]; rfl
  show v.g.tick = _
  rw [r.riseKept.g]
  show u.g.tick + u.g.mainHalf + u.g.mainHalf = _
  omega

theorem CycleRun.pins_tms : (riseState u).t.pins.tms = tms := by
  show u.g.tms = tms
  rw [r.fallKept.g]
  rfl

theorem CycleRun.pins_tdi : (riseState u).t.pins.tdi = tdi := by
  show u.g.tdi = tdi
  rw [r.fallKept.g]
  rfl

/-- The controller takes the transition of R106 (R119). -/
theorem CycleRun.state : (cycleEnd tms v).t.state = nextTap s.t.state tms := by
  show v.t.state = _
  rw [r.riseKept.state, r.pins_tms]
  show nextTap u.t.state tms = _
  rw [r.fallKept.state]
  rfl

/-- H's record takes it too (R158). -/
theorem CycleRun.hstate : (cycleEnd tms v).h.state = nextTap s.h.state tms := by
  show nextTap v.h.state tms = _
  rw [r.riseKept.h]
  show nextTap u.h.state tms = _
  rw [r.fallKept.h]
  rfl

theorem CycleRun.lastIr : (cycleEnd tms v).h.lastIr = s.h.lastIr := by
  show v.h.lastIr = _
  rw [r.riseKept.h]
  show u.h.lastIr = _
  rw [r.fallKept.h]
  rfl

theorem CycleRun.ret : (cycleEnd tms v).h.ret = s.h.ret := by
  show v.h.ret = _
  rw [r.riseKept.h]
  show u.h.ret = _
  rw [r.fallKept.h]
  rfl

theorem CycleRun.kept : Kept s (cycleEnd tms v) := by
  have h1 : Kept s (sampleOutputs (commitPins (advance (drive tms tdi s)))) :=
    ⟨rfl, rfl, rfl, rfl, rfl, rfl, rfl, rfl, rfl, rfl, rfl, rfl, rfl⟩
  have h2 : Kept (sampleOutputs (commitPins (advance (drive tms tdi s)))) (sampleOutputs u) :=
    Kept.of_edge r.fallKept.toEdgeKept
  have h3 : Kept (sampleOutputs u) (sampleOutputs (commitPins (advance (sampleOutputs u)))) := Kept.of_edge (EdgeKept.refl _)
  have h4 : Kept (sampleOutputs (commitPins (advance (sampleOutputs u)))) (sampleOutputs v) :=
    Kept.of_edge r.riseKept.toEdgeKept
  have h := ((h1.trans h2).trans h3).trans h4
  exact ⟨h.mainHalf, h.tckHalf, h.resetDur, h.maxTime, h.par, h.finishAt, h.idleCycles, h.hwidth, h.mask, h.idcode, h.diag,
    h.position, h.program⟩

/-- The device before the rising edge, as far as its posedge action reads it. -/
theorem CycleRun.before : (riseState u).t.state = s.t.state ∧ (riseState u).t.ir = settledIr s.t ∧
    (riseState u).t.irSr = s.t.irSr ∧ (riseState u).t.drSr = s.t.drSr ∧ (riseState u).t.par = s.t.par :=
  ⟨r.fallKept.state, r.fallIr, r.fallKept.irSr, r.fallKept.drSr, r.fallKept.par⟩

/-- The four advances of a cycle leave G consistent (R24). -/
theorem CycleRun.clock (h : ClockOk s) : ClockOk (cycleEnd tms v) := by
  have c1 := (h.drive tms tdi).after (u := commitPins (advance (drive tms tdi s))) rfl rfl
  have c2 := c1.after r.fallKept.g r.fallKept.pins
  have c3 := c2.after (u := commitPins (advance (sampleOutputs u))) rfl rfl
  have c4 := c3.after r.riseKept.g r.riseKept.pins
  exact ⟨c4.main_pos, c4.tckHalf_eq, c4.resetDur_eq, c4.tick_whole, c4.clk_eq, c4.tck_eq, c4.rstN_eq, c4.lastTck_eq, c4.seen⟩

/-- A link that is up is up after a cycle. -/
theorem CycleRun.linkUp (h : LinkUp s) : LinkUp (cycleEnd tms v) := by
  have hm := h.main_pos
  have hk := r.kept
  have ht := r.tick
  have c4 := r.clock h.toClockOk
  have p4 : phase (cycleEnd tms v) = phase s + 4 := by
    unfold phase
    rw [ht, hk.mainHalf, Nat.add_mul_div_right _ _ (by omega)]
  have hp : phase s % 4 = 2 := h.toClockOk.risen_iff.mp h.risen
  have hpast := h.past
  refine ⟨⟨c4, c4.risen_iff.mpr (by omega)⟩, by rw [hk.resetDur, ht]; omega, r.riseKept.fresh, ?_, ?_⟩
  · rw [r.hstate, r.state, h.mirrored]
  · have hw : DrWidth (riseState u).t := drWidth_of_eq r.before.1 r.before.2.2.2.1 r.before.2.2.2.2
      (fun x => r.before.2.1.trans (settledIr_of_holdsDr x)) h.width
    have hv : DrWidth v.t := drWidth_rise r.riseKept hw
    exact hv

/-- A link that is up for `n + 1` cycles is up for `n` after one. -/
theorem CycleRun.ready {n : Nat} (h : Ready (n + 1) s) : Ready n (cycleEnd tms v) := by
  have hT : s.g.tckHalf = 2 * s.g.mainHalf := h.tckHalf_eq
  have hm := h.main_pos
  have hk := r.kept
  have ht := r.tick
  have e1 : (n + 1) * (2 * s.g.tckHalf) = n * (2 * s.g.tckHalf) + 4 * s.g.mainHalf := by rw [hT]; ring
  have q := h.notEnding
  have l0 : Live (s.g.tick + 4 * s.g.mainHalf) (drive tms tdi s) :=
    Live.drive ⟨h.toClockOk, h.past, Nat.le_add_right _ _, q.unfinished,
      q.capFar.imp_right fun x => by omega, fun k hk' => by have := q.finishFar k hk'; omega⟩ tms tdi
  have l1 := l0.after (u := commitPins (advance (drive tms tdi s)))
    (by show s.g.tick + s.g.mainHalf ≤ _; omega) (EdgeKept.refl _)
  have l2 := l1.after (by show s.g.tick + s.g.mainHalf + s.g.mainHalf ≤ _; omega) r.fallKept.toEdgeKept
  have g2 : u.g.tick = s.g.tick + s.g.mainHalf + s.g.mainHalf := by rw [r.fallKept.g]; rfl
  have m2 : u.g.mainHalf = s.g.mainHalf := by rw [r.fallKept.g]; rfl
  have l3 := l2.after (u := commitPins (advance (sampleOutputs u)))
    (by show u.g.tick + u.g.mainHalf ≤ _; omega) (EdgeKept.refl _)
  have l4 := l3.after (by show u.g.tick + u.g.mainHalf + u.g.mainHalf ≤ _; omega) r.riseKept.toEdgeKept
  refine ⟨r.linkUp h.toLinkUp, l4.unfinished, ?_, ?_⟩
  · rw [hk.maxTime, ht, hk.tckHalf]
    exact q.capFar.imp_right fun x => by omega
  · rw [hk.finishAt, ht, hk.tckHalf]
    exact fun k hk' => by have := q.finishFar k hk'; omega

end

end Sys2Proof.Machine
end

