-- ==== Sys2Proof/Laws/Scan.lean ====
section
/-! SUPPORT. Laws/Scan.lean: what a TCK cycle of a link that is up does to the TAP and to the DTM, and how the cycles of a path
compose. -/

namespace Sys2Proof.Machine

/-! ### The DTM over one rising edge -/

/-- The status a posedge action leaves: only a capture of the DMI register writes it (R142). -/
def actionStatus (t : Device) : DmiStatus :=
  if t.state = .capDR ∧ t.ir = 0x11#5 then (noteBusy t).status else t.status

theorem posedgeAction_status (t : Device) : (posedgeAction t).status = actionStatus t := by
  unfold posedgeAction actionStatus
  cases hs : t.state <;> simp only [reduceCtorEq, false_and, true_and, if_false] <;> try rfl
  unfold captureDr
  by_cases h1 : t.ir = 0x01#5
  · simp [h1]
  · by_cases h2 : t.ir = 0x10#5
    · simp [h2]
    · by_cases h3 : t.ir = 0x11#5
      · simp [h3]
      · simp [h1, h2, h3]

/-- What a rising edge does to the DTM and to M (R142, R147): `x` before it, `v` after it. -/
structure DtmRise (x v : State) : Prop where
  respAddr : v.t.respAddr = x.t.respAddr
  requests : v.m.requests = x.m.requests
  latencies : v.m.latencies = x.m.latencies
  idle : x.t.inflight = none →
    v.t.inflight = none ∧ v.t.status = actionStatus x.t ∧ v.t.respData = x.t.respData ∧ v.m.answers = x.m.answers
  waits : ∀ q r, x.t.inflight = some ⟨q, r + 1⟩ →
    v.t.inflight = some ⟨q, r⟩ ∧ v.t.status = actionStatus x.t ∧ v.t.respData = x.t.respData ∧ v.m.answers = x.m.answers
  answered : ∀ q, x.t.inflight = some ⟨q, 0⟩ → v.t.inflight = none ∧ v.m.answers = x.m.answers.drop 1 ∧
    ∃ a : DmiResponse, AnswerDrawn x.m.answers a ∧ (q.op = .read → v.t.respData = a.rdata) ∧
      v.t.status = if !a.ok && actionStatus x.t == .ok then .error else actionStatus x.t

theorem AnswerDrawn.head {l bs : List DmiResponse} {a b : DmiResponse} (h : AnswerDrawn l a) (hl : l = b :: bs) : a = b := by
  subst hl; exact h

/-- The answer a completion uses (R147, R148). -/
theorem drawResponse_drawn (x : State) : AnswerDrawn x.m.answers (drawResponse x) := by
  unfold AnswerDrawn drawResponse
  cases x.m.answers with
  | nil => exact ⟨_, rfl⟩
  | cons b bs => rfl

theorem dtmRise_of_posedge {x v : State} (h : posedgeStep x = .next v) : DtmRise x v := by
  unfold posedgeStep at h
  split at h
  · cases h
  · have a := posedgeAction_kept x.t
    have hst := posedgeAction_status x.t
    cases h
    have k := tickInflight_kept { x with t := posedgeAction x.t }
    refine ⟨k.respAddr.trans a.respAddr, k.requests, k.latencies, fun hi => ?_, fun q r hi => ?_, fun q hi => ?_⟩
    · have hi' : (posedgeAction x.t).inflight = none := a.inflight.trans hi
      simp only [tickInflight, hi']
      exact ⟨trivial, hst, a.respData, trivial⟩
    · have hi' : (posedgeAction x.t).inflight = some ⟨q, r + 1⟩ := a.inflight.trans hi
      simp only [tickInflight, hi']
      exact ⟨trivial, hst, a.respData, trivial⟩
    · have hi' : (posedgeAction x.t).inflight = some ⟨q, 0⟩ := a.inflight.trans hi
      simp only [tickInflight, hi']
      refine ⟨rfl, rfl, drawResponse { x with t := posedgeAction x.t }, drawResponse_drawn _, fun hq => ?_, ?_⟩
      · simp only [complete, hq]
      · simp only [complete, hst]

theorem DtmSame.refl (s : State) : DtmSame s s := ⟨rfl, rfl, rfl, rfl, rfl⟩

/-! ### One cycle, by the state it is spent in -/

/-- What a TCK cycle spent in `s.t.state` does (R109-R119, R157, R158). -/
structure CycleEffect (tms tdi : Bool) (s : State) (b : Bool) (s' : State) : Prop where
  kept : Kept s s'
  tick : s'.g.tick = s.g.tick + 2 * s.g.tckHalf
  lastIr : s'.h.lastIr = s.h.lastIr
  ret : s'.h.ret = s.h.ret
  pins : s'.g.tms = tms ∧ s'.g.tdi = tdi ∧ s'.h.tmsDrv = tms ∧ s'.h.tdiDrv = tdi
  state : s'.t.state = nextTap s.t.state tms
  hstate : s'.h.state = nextTap s.h.state tms
  ir : s'.t.ir = if s.t.state = .tlr then 0x01#5 else settledIr s.t
  irCapture : s.t.state = .capIR → s'.t.irSr = s.t.par.irCapture
  irShift : s.t.state = .shIR → b = s.t.irSr.getLsbD 0 ∧ s'.t.irSr = BitVec.cons tdi (s.t.irSr.extractLsb' 1 4)
  irHold : s.t.state ≠ .capIR → s.t.state ≠ .shIR → s'.t.irSr = s.t.irSr
  drCapture : s.t.state = .capDR → s'.t.drSr = (captureDr s.t).drSr
  drShift : s.t.state = .shDR → b = s.t.drSr.headD false ∧ s'.t.drSr = s.t.drSr.drop 1 ++ [tdi]
  drHold : s.t.state ≠ .capDR → s.t.state ≠ .shDR → s'.t.drSr = s.t.drSr
  dtm : ∃ u, DtmFall s u ∧ u.t.state = s.t.state ∧ u.t.ir = settledIr s.t ∧ DtmRise u s'

/-- Outside the Update states a falling edge only drives TDO (R109, R110). -/
theorem negedgeStep_quiet {s : State} (h : s.t.state ≠ .updDR) (h' : s.t.state ≠ .updIR) :
    negedgeStep s = .next (driveTdo s) := by
  unfold negedgeStep
  cases hs : s.t.state <;> first
    | rfl
    | exact absurd hs h
    | exact absurd hs h'

/-- The falling edge leaves the DTM and M, outside Update-DR. -/
theorem negedgeStep_dtm {s u : State} (h : s.t.state ≠ .updDR) (e : negedgeStep s = .next u) :
    u.t.status = s.t.status ∧ u.t.inflight = s.t.inflight ∧ u.t.respAddr = s.t.respAddr ∧ u.t.respData = s.t.respData ∧
      u.m = s.m := by
  by_cases h' : s.t.state = .updIR
  · unfold negedgeStep at e
    rw [h'] at e
    cases e
    simp
  · rw [negedgeStep_quiet h h'] at e
    cases e
    simp

theorem captureDr_irSr (t : Device) : (captureDr t).irSr = t.irSr := by
  unfold captureDr
  split
  · rfl
  · split
    · rfl
    · split
      · simp
      · rfl

theorem captureDr_congr {t u : Device} (hir : u.ir = t.ir) (hp : u.par = t.par) (hs : u.status = t.status)
    (hi : u.inflight = t.inflight) (ha : u.respAddr = t.respAddr) (hd : u.respData = t.respData) :
    (captureDr u).drSr = (captureDr t).drSr := by
  unfold captureDr dmiCapture dtmcsValue
  simp only [hir, hp, hs, noteBusy_status, hi, noteBusy_respData, noteBusy_respAddr, noteBusy_par, ha, hd]
  split <;> [rfl; (split <;> [rfl; (split <;> rfl)])]

/-- What the two edges of a cycle do together, by the state it is spent in. -/
theorem CycleRun.effect {tms tdi : Bool} {s u v : State} (r : CycleRun tms tdi s u v) (h : LinkUp s) :
    CycleEffect tms tdi s u.t.tdo (cycleEnd tms v) := by
  obtain ⟨bs, bir, birSr, bdr, bpar⟩ := r.before
  have hT : s.g.tckHalf = 2 * s.g.mainHalf := h.tckHalf_eq
  have hpins : (riseState u).t.pins.tdi = tdi := r.pins_tdi
  have hv := r.riseKept
  have hq : s.t.state ≠ .updDR → s.t.state ≠ .updIR → u = driveTdo (fallState tms tdi s) := fun x y => by
    have e := r.fall
    rw [negedgeStep_quiet (s := fallState tms tdi s) x y] at e
    cases e
    rfl
  refine ⟨r.kept, by rw [r.tick, hT]; ring, r.lastIr, r.ret, ⟨?_, ?_, ?_, ?_⟩, r.state, r.hstate, ?_, ?_, ?_, ?_, ?_, ?_, ?_, ?_⟩
  · show v.g.tms = tms
    rw [hv.g]; show u.g.tms = tms; rw [r.fallKept.g]; rfl
  · show v.g.tdi = tdi
    rw [hv.g]; show u.g.tdi = tdi; rw [r.fallKept.g]; rfl
  · show v.h.tmsDrv = tms
    rw [hv.h]; show u.h.tmsDrv = tms; rw [r.fallKept.h]; rfl
  · show v.h.tdiDrv = tdi
    rw [hv.h]; show u.h.tdiDrv = tdi; rw [r.fallKept.h]; rfl
  · show v.t.ir = _
    rw [hv.ir]
    unfold posedgeAction
    rw [bs]
    cases hs : s.t.state <;> simp only [reduceCtorEq, if_true, if_false, captureDr_ir] <;> exact bir
  · intro hs
    show v.t.irSr = _
    rw [hv.irSr]; unfold posedgeAction; rw [bs, hs]; simp [bpar]
  · intro hs
    constructor
    · rw [hq (by simp [hs]) (by simp [hs])]
      unfold driveTdo
      rw [show (fallState tms tdi s).t.state = .shIR from hs]
      rfl
    · show v.t.irSr = _
      rw [hv.irSr]; unfold posedgeAction; rw [bs, hs]; simp only [shiftIr, hpins, birSr]
  · intro x y
    show v.t.irSr = _
    rw [hv.irSr, ← birSr]
    unfold posedgeAction
    rw [bs]
    cases hs : s.t.state <;> first
      | exact absurd hs x
      | exact absurd hs y
      | rfl
      | exact captureDr_irSr _
  · intro hs
    show v.t.drSr = _
    rw [hv.drSr]
    unfold posedgeAction
    rw [bs, hs]
    have hd := negedgeStep_dtm (s := fallState tms tdi s) (u := u) (by
      rw [show (fallState tms tdi s).t.state = .capDR from hs]; simp) r.fall
    exact captureDr_congr (bir.trans (by unfold settledIr; rw [if_neg (by simp [hs])])) bpar hd.1 hd.2.1 hd.2.2.1 hd.2.2.2.1
  · intro hs
    constructor
    · rw [hq (by simp [hs]) (by simp [hs])]
      unfold driveTdo
      rw [show (fallState tms tdi s).t.state = .shDR from hs]
      rfl
    · show v.t.drSr = _
      rw [hv.drSr]; unfold posedgeAction; rw [bs, hs]; simp only [shiftDr, hpins, bdr]
  · intro x y
    show v.t.drSr = _
    rw [hv.drSr, ← bdr]
    unfold posedgeAction
    rw [bs]
    cases hs : s.t.state <;> first
      | exact absurd hs x
      | exact absurd hs y
      | rfl
  · refine ⟨riseState u, ⟨fun x => ?_, fun x => ⟨driveTdo (fallState tms tdi s), u, ?_, ?_, ?_, ?_, ?_, ?_⟩⟩, bs, bir, ?_⟩
    · have hd := negedgeStep_dtm (s := fallState tms tdi s) (u := u) x r.fall
      exact ⟨hd.1, hd.2.1, hd.2.2.1, hd.2.2.2.1, hd.2.2.2.2⟩
    · exact ⟨by simp [fallState], by simp [fallState], by simp [fallState], by simp [fallState], by simp⟩
    · simp [fallState]
    · simp [fallState]
    · simp [fallState]
    · have e := r.fall
      unfold negedgeStep at e
      rw [show (fallState tms tdi s).t.state = .updDR from x] at e
      exact e
    · exact ⟨rfl, rfl, rfl, rfl, rfl⟩
    · have d := dtmRise_of_posedge r.rise
      exact ⟨d.respAddr, d.requests, d.latencies, d.idle, d.waits, d.answered⟩

/-- A cycle of a link that is up completes, with the effect of the state it is spent in. -/
theorem cycle_effect {n : Nat} {s : State} (h : Ready (n + 1) s) (ha : UpdateAllowed s.t) (tms tdi : Bool) :
    ∃ b s', cycle tms tdi s = .done (some b) s' ∧ Ready n s' ∧ CycleEffect tms tdi s b s' := by
  obtain ⟨u, v, r, hc⟩ := cycle_done h.toLinkUp h.live ha tms tdi
  exact ⟨u.t.tdo, cycleEnd tms v, hc, r.ready h, r.effect h.toLinkUp⟩

/-- A `TCK_CYCLE` is the cycle, with its sample as H's result (R157). -/
theorem execTckCycle_done {tms tdi : Bool} {s s' : State} {b : Option Bool} (h : cycle tms tdi s = .done b s') :
    exec (.tckCycle tms tdi) s = .next (setRet (.tdo b) s') := by
  show execTckCycle tms tdi s = _
  unfold execTckCycle
  rw [h]

/-! ### Paths -/

theorem runPins_append (ps qs : List PinPair) (s : State) :
    runPins (ps ++ qs) s =
      match runPins ps s with
      | .done bs s' =>
        match runPins qs s' with
        | .done cs s'' => .done (bs ++ cs) s''
        | .ended s'' => .ended s''
        | .faulted r => .faulted r
        | .refused r => .refused r
      | .ended s' => .ended s'
      | .faulted r => .faulted r
      | .refused r => .refused r := by
  induction ps generalizing s with
  | nil => simp only [List.nil_append, runPins]; cases runPins qs s <;> rfl
  | cons p ps ih =>
    simp only [List.cons_append, runPins]
    cases cycle p.1 p.2 s with
    | done b s' =>
      simp only [ih s']
      cases runPins ps s' with
      | done bs s'' => simp only; cases runPins qs s'' <;> rfl
      | ended s'' => rfl
      | faulted r => rfl
      | refused r => rfl
    | ended s' => rfl
    | faulted r => rfl
    | refused r => rfl

end Sys2Proof.Machine
end

