-- ==== Sys2Proof/Laws/Path.lean ====
section
/-! SUPPORT. Laws/Path.lean: what the cycles of a path do together, where no cycle after the first is spent in an Update state
and none in Capture-DR or Test-Logic-Reset. -/

namespace Sys2Proof.Machine

/-! ### The DTM over several rising edges -/

theorem DtmRises.of_same {x v : State} (h : DtmSame x v) : DtmRises 0 x v where
  respAddr := h.respAddr
  requests := by rw [h.m]
  latencies := by rw [h.m]
  idle := fun hi => ⟨h.inflight.trans hi, h.status, h.respData, by rw [h.m]⟩
  waits := fun q r hi _ => ⟨h.inflight.trans hi, h.status, h.respData, by rw [h.m]⟩
  answered := fun _ _ _ hk => absurd hk (Nat.not_lt_zero _)

theorem DtmRises.of_rise {x v : State} (h : DtmRise x v) (hc : actionStatus x.t = x.t.status) : DtmRises 1 x v where
  respAddr := h.respAddr
  requests := h.requests
  latencies := h.latencies
  idle := fun hi => hc ▸ h.idle hi
  waits := fun q r hi hk => by
    obtain ⟨r, rfl⟩ : ∃ j, r = j + 1 := ⟨r - 1, by omega⟩
    rw [Nat.add_sub_cancel]
    exact hc ▸ h.waits q r hi
  answered := fun q r hi hk => by
    obtain rfl : r = 0 := by omega
    exact hc ▸ h.answered q hi

theorem DtmRises.trans {j k : Nat} {x y z : State} (a : DtmRises j x y) (b : DtmRises k y z) : DtmRises (j + k) x z where
  respAddr := b.respAddr.trans a.respAddr
  requests := b.requests.trans a.requests
  latencies := b.latencies.trans a.latencies
  idle := fun hi => by
    obtain ⟨h1, h2, h3, h4⟩ := a.idle hi
    obtain ⟨g1, g2, g3, g4⟩ := b.idle h1
    exact ⟨g1, g2.trans h2, g3.trans h3, g4.trans h4⟩
  waits := fun q r hi hk => by
    obtain ⟨h1, h2, h3, h4⟩ := a.waits q r hi (by omega)
    obtain ⟨g1, g2, g3, g4⟩ := b.waits q (r - j) h1 (by omega)
    exact ⟨by rw [g1, Nat.sub_sub], g2.trans h2, g3.trans h3, g4.trans h4⟩
  answered := fun q r hi hk => by
    by_cases hj : r < j
    · obtain ⟨h1, h2, c, h3, h4, h5⟩ := a.answered q r hi hj
      obtain ⟨g1, g2, g3, g4⟩ := b.idle h1
      exact ⟨g1, g4.trans h2, c, h3, fun hq => g3.trans (h4 hq), g2.trans h5⟩
    · obtain ⟨h1, h2, h3, h4⟩ := a.waits q r hi (by omega)
      obtain ⟨g1, g2, c, g3, g4, g5⟩ := b.answered q (r - j) h1 (by omega)
      exact ⟨g1, by rw [g2, h4], c, h4 ▸ g3, g4, by rw [g5, h2]⟩

/-- The `n` edges counted another way. -/
theorem DtmRises.cast {j k : Nat} {x y : State} (a : DtmRises j x y) (e : j = k) : DtmRises k x y := e ▸ a

theorem actionStatus_eq {t : Device} (h : t.state ≠ .capDR ∨ t.ir ≠ 0x11#5) : actionStatus t = t.status := by
  unfold actionStatus
  rw [if_neg]
  rintro ⟨h1, h2⟩
  rcases h with h | h
  · exact h h1
  · exact h h2

/-! ### The states a path goes through -/

/-- The states the cycles of a path are spent in. -/
def visits : TapState → List PinPair → List TapState
  | _, [] => []
  | x, p :: ps => x :: visits (nextTap x p.1) ps

theorem visits_append (x : TapState) (ps qs : List PinPair) :
    visits x (ps ++ qs) = visits x ps ++ visits (endState x ps) qs := by
  induction ps generalizing x with
  | nil => rfl
  | cons p ps ih => simp only [List.cons_append, visits, endState, ih]

theorem endState_append (x : TapState) (ps qs : List PinPair) :
    endState x (ps ++ qs) = endState (endState x ps) qs := by
  induction ps generalizing x with
  | nil => rfl
  | cons p ps ih => simp only [List.cons_append, endState, ih]

/-! ### A path -/

/-- What a path does to everything but the shift registers and the DTM. -/
structure PathKept (ps : List PinPair) (s s' : State) : Prop where
  kept : Kept s s'
  tick : s'.g.tick = s.g.tick + ps.length * (2 * s.g.tckHalf)
  lastIr : s'.h.lastIr = s.h.lastIr
  ret : s'.h.ret = s.h.ret
  state : s'.t.state = endState s.t.state ps

theorem PathKept.nil (s : State) : PathKept [] s s :=
  ⟨Kept.refl s, by simp, rfl, rfl, rfl⟩

theorem PathKept.cons {p : PinPair} {ps : List PinPair} {s u s' : State} {b : Bool} (a : CycleEffect p.1 p.2 s b u)
    (c : PathKept ps u s') : PathKept (p :: ps) s s' :=
  ⟨a.kept.trans c.kept, by
      rw [c.tick, a.tick, a.kept.tckHalf, List.length_cons]; ring,
    c.lastIr.trans a.lastIr, c.ret.trans a.ret, by rw [c.state, a.state]; rfl⟩

theorem PathKept.append {ps qs : List PinPair} {s u s' : State} (a : PathKept ps s u) (c : PathKept qs u s') :
    PathKept (ps ++ qs) s s' :=
  ⟨a.kept.trans c.kept, by
      rw [c.tick, a.tick, a.kept.tckHalf, List.length_append]; ring,
    c.lastIr.trans a.lastIr, c.ret.trans a.ret, by rw [c.state, a.state, endState_append]⟩

theorem runPins_cons_done {p : PinPair} {ps : List PinPair} {s u s' : State} {b : Option Bool} {bs : List (Option Bool)}
    (h : cycle p.1 p.2 s = .done b u) (hs : runPins ps u = .done bs s') : runPins (p :: ps) s = .done (b :: bs) s' := by
  simp only [runPins, h, hs]

theorem runPins_append_done {ps qs : List PinPair} {s u s' : State} {bs cs : List (Option Bool)}
    (h : runPins ps s = .done bs u) (hs : runPins qs u = .done cs s') : runPins (ps ++ qs) s = .done (bs ++ cs) s' := by
  rw [runPins_append, h]; simp only [hs]

/-- A path none of whose cycles is spent in an Update state, Capture-DR or Test-Logic-Reset: the IR is kept, and the DTM meets one
rising edge a cycle. -/
theorem runPins_quiet (ps : List PinPair) (n : Nat) (s : State) (h : Ready (n + ps.length) s)
    (hv : ∀ y ∈ visits s.t.state ps, y ≠ .updDR ∧ y ≠ .updIR ∧ y ≠ .capDR ∧ y ≠ .tlr) :
    ∃ bs s', runPins ps s = .done bs s' ∧ bs.length = ps.length ∧ Ready n s' ∧ PathKept ps s s' ∧ s'.t.ir = s.t.ir ∧
      DtmRises ps.length s s' ∧
      ((∀ y ∈ visits s.t.state ps, y ≠ .capIR ∧ y ≠ .shIR) → s'.t.irSr = s.t.irSr) := by
  induction ps generalizing s with
  | nil => exact ⟨[], s, rfl, rfl, h, PathKept.nil s, rfl, DtmRises.of_same (DtmSame.refl s), fun _ => rfl⟩
  | cons p ps ih =>
    obtain ⟨h1, h2, h3, h4⟩ := hv s.t.state (by simp [visits])
    obtain ⟨b, u, e, hr, c⟩ := cycle_effect (n := n + ps.length) h (fun x => h1 x.1) p.1 p.2
    obtain ⟨bs, s', e', hl, hr', k, hir, d, hsr⟩ := ih u hr (fun y hy => hv y (by rw [c.state] at hy; simp [visits, hy]))
    obtain ⟨w, f, ws, wi, r⟩ := c.dtm
    have d0 : DtmRises 1 w u := DtmRises.of_rise r (actionStatus_eq (.inl (by rw [ws]; exact h3)))
    have hi : s'.t.ir = s.t.ir := by
      rw [hir, c.ir, if_neg h4, settledIr, if_neg h2]
    refine ⟨some b :: bs, s', runPins_cons_done e e', by simp [hl], hr', k.cons c, hi, ?_, fun hq => ?_⟩
    · exact (((DtmRises.of_same (f.quiet h1)).trans d0).trans d).cast (by simp [Nat.add_comm])
    · obtain ⟨q1, q2⟩ := hq s.t.state (by simp [visits])
      rw [hsr (fun y hy => hq y (by rw [c.state] at hy; simp [visits, hy])), c.irHold q1 q2]

/-- A path that begins where an access does, and goes on quietly. -/
theorem runPins_start (p : PinPair) (ps : List PinPair) (n : Nat) (s : State) (h : Ready (n + (ps.length + 1)) s)
    (ha : UpdateAllowed s.t) (hs : s.t.state ≠ .capDR ∧ s.t.state ≠ .tlr)
    (hv : ∀ y ∈ visits (nextTap s.t.state p.1) ps, y ≠ .updDR ∧ y ≠ .updIR ∧ y ≠ .capDR ∧ y ≠ .tlr) :
    ∃ bs u s', runPins (p :: ps) s = .done bs s' ∧ bs.length = ps.length + 1 ∧ Ready n s' ∧ PathKept (p :: ps) s s' ∧
      s'.t.ir = settledIr s.t ∧ DtmFall s u ∧ DtmRises (ps.length + 1) u s' ∧
      ((∀ y ∈ visits s.t.state (p :: ps), y ≠ .capIR ∧ y ≠ .shIR) → s'.t.irSr = s.t.irSr) := by
  obtain ⟨b, u, e, hr, c⟩ := cycle_effect (n := n + ps.length) h ha p.1 p.2
  obtain ⟨bs, s', e', hl, hr', k, hir, d, hsr⟩ := runPins_quiet ps n u hr (by rw [c.state]; exact hv)
  obtain ⟨w, f, ws, wi, r⟩ := c.dtm
  have d0 : DtmRises 1 w u := DtmRises.of_rise r (actionStatus_eq (.inl (by rw [ws]; exact hs.1)))
  refine ⟨some b :: bs, w, s', runPins_cons_done e e', by simp [hl], hr', k.cons c, ?_, f, ?_, fun hq => ?_⟩
  · rw [hir, c.ir, if_neg hs.2]
  · exact (d0.trans d).cast (by omega)
  · obtain ⟨q1, q2⟩ := hq s.t.state (by simp [visits])
    rw [hsr (fun y hy => hq y (by rw [c.state] at hy; simp [visits, hy])), c.irHold q1 q2]

end Sys2Proof.Machine
end

