-- ==== Sys2Proof/Laws/Access.lean ====
section
/-! SUPPORT. Laws/Access.lean: what a register access does (R160-R165, R121, R180), said once. -/

namespace Sys2Proof.Machine

/-! ### The shift cycles -/

@[simp] theorem shiftPins_length (w : Bits) : (shiftPins w).length = w.length := by
  induction w with
  | nil => rfl
  | cons b w ih => cases w with
    | nil => rfl
    | cons c w => simp only [shiftPins, List.length_cons] at ih ⊢; omega

theorem visits_shiftPins_dr (w : Bits) : visits .shDR (shiftPins w) = List.replicate w.length .shDR := by
  induction w with
  | nil => rfl
  | cons b w ih => cases w with
    | nil => rfl
    | cons c w => simp only [shiftPins, visits, nextTap, ih, List.length_cons, List.replicate_succ]

theorem endState_shiftPins_dr (b : Bool) (w : Bits) : endState .shDR (shiftPins (b :: w)) = .ex1DR := by
  induction w generalizing b with
  | nil => rfl
  | cons c w ih => exact ih c

/-- The Shift-DR cycles of a scan (R117, R121): the bits leave in order, the scan-in follows them. -/
theorem runPins_shiftDr (w : Bits) (n : Nat) (s : State) (h : Ready (n + w.length) s) (hs : s.t.state = .shDR)
    (hd : s.t.drSr ≠ []) :
    ∃ s', runPins (shiftPins w) s = .done (((s.t.drSr ++ w).take w.length).map some) s' ∧
      s'.t.drSr = (s.t.drSr ++ w).drop w.length := by
  induction w generalizing s with
  | nil => exact ⟨s, rfl, by simp⟩
  | cons x w ih =>
    obtain ⟨a, c, hac⟩ := List.exists_cons_of_ne_nil hd
    have step : ∀ tms, ∃ u, cycle tms x s = .done (some a) u ∧ Ready (n + w.length) u ∧ u.t.state = nextTap .shDR tms ∧
        u.t.drSr = c ++ [x] := fun tms => by
      obtain ⟨b, u, e, hr, k⟩ := cycle_effect (n := n + w.length) h (fun z => by rw [hs] at z; cases z.1) tms x
      obtain ⟨hb, hdr⟩ := k.drShift hs
      rw [hac] at hb hdr
      exact ⟨u, by rw [e, hb]; rfl, hr, by rw [k.state, hs], by rw [hdr]; simp⟩
    cases w with
    | nil =>
      obtain ⟨u, e, _, _, hdr⟩ := step true
      exact ⟨u, by rw [shiftPins, hac]; simp [runPins, e], by rw [hdr, hac]; simp⟩
    | cons y w =>
      obtain ⟨u, e, hr, hst, hdr⟩ := step false
      obtain ⟨s', e', hd'⟩ := ih u hr hst (by rw [hdr]; simp)
      refine ⟨s', ?_, ?_⟩
      · have := runPins_cons_done (p := (false, x)) e e'
        rw [show shiftPins (x :: y :: w) = (false, x) :: shiftPins (y :: w) from rfl, this, hdr, hac]
        simp
      · rw [hd', hdr, hac]; simp

/-- Five Shift-IR cycles replace the register (R115). -/
theorem shiftIr_five (r code : IrCode) :
    BitVec.cons (code.toNat / 2 / 2 / 2 / 2 % 2 == 1) ((BitVec.cons (code.toNat / 2 / 2 / 2 % 2 == 1)
      ((BitVec.cons (code.toNat / 2 / 2 % 2 == 1) ((BitVec.cons (code.toNat / 2 % 2 == 1)
        ((BitVec.cons (code.toNat % 2 == 1) (r.extractLsb' 1 4)).extractLsb' 1 4)).extractLsb' 1 4)).extractLsb' 1 4)).extractLsb'
          1 4) = code := by
  revert r code
  decide +kernel

theorem shiftPins_ir (code : IrCode) : shiftPins (natBits 5 code.toNat) =
    [(false, code.toNat % 2 == 1), (false, code.toNat / 2 % 2 == 1), (false, code.toNat / 2 / 2 % 2 == 1),
      (false, code.toNat / 2 / 2 / 2 % 2 == 1), (true, code.toNat / 2 / 2 / 2 / 2 % 2 == 1)] := rfl

/-- The Shift-IR cycles of a scan (R71, R115). -/
theorem runPins_shiftIr (code : IrCode) (n : Nat) (s : State) (h : Ready (n + 5) s) (hs : s.t.state = .shIR) :
    ∃ bs s', runPins (shiftPins (natBits 5 code.toNat)) s = .done bs s' ∧ s'.t.irSr = code := by
  have step : ∀ (j : Nat) (x : State) (tms tdi : Bool), Ready (j + 1) x → x.t.state = .shIR →
      ∃ b u, cycle tms tdi x = .done b u ∧ Ready j u ∧ u.t.state = nextTap .shIR tms ∧
        u.t.irSr = BitVec.cons tdi (x.t.irSr.extractLsb' 1 4) := fun j x tms tdi hr hx => by
    obtain ⟨b, u, e, hr', k⟩ := cycle_effect hr (fun z => by rw [hx] at z; cases z.1) tms tdi
    exact ⟨some b, u, e, hr', by rw [k.state, hx], (k.irShift hx).2⟩
  rw [shiftPins_ir]
  obtain ⟨b0, s0, e0, r0, t0, i0⟩ := step (n + 4) s false (code.toNat % 2 == 1) h hs
  obtain ⟨b1, s1, e1, r1, t1, i1⟩ := step (n + 3) s0 false (code.toNat / 2 % 2 == 1) r0 t0
  obtain ⟨b2, s2, e2, r2, t2, i2⟩ := step (n + 2) s1 false (code.toNat / 2 / 2 % 2 == 1) r1 t1
  obtain ⟨b3, s3, e3, r3, t3, i3⟩ := step (n + 1) s2 false (code.toNat / 2 / 2 / 2 % 2 == 1) r2 t2
  obtain ⟨b4, s4, e4, r4, t4, i4⟩ := step n s3 true (code.toNat / 2 / 2 / 2 / 2 % 2 == 1) r3 t3
  refine ⟨[b0, b1, b2, b3, b4], s4, runPins_cons_done e0 (runPins_cons_done e1 (runPins_cons_done e2 (runPins_cons_done e3
    (runPins_cons_done e4 rfl)))), ?_⟩
  rw [i4, i3, i2, i1, i0]
  exact shiftIr_five _ _

/-! ### To the Capture-DR -/

theorem startState_cases {x : TapState} (h : startState x = true) : x = .rti ∨ x = .updDR ∨ x = .updIR := by
  cases x <;> simp [startState] at h ⊢

theorem runPins_inj {ps : List PinPair} {s u v : State} {bs cs : List (Option Bool)} (h : runPins ps s = .done bs u)
    (h' : runPins ps s = .done cs v) : bs = cs ∧ u = v := by
  rw [h] at h'; cases h'; exact ⟨rfl, rfl⟩

theorem visits_dwell (k : Nat) : visits .rti (List.replicate k (false, false)) = List.replicate k .rti := by
  induction k with
  | zero => rfl
  | succ k ih => simp only [List.replicate_succ, visits, nextTap, ih]

theorem endState_dwell (k : Nat) : endState .rti (List.replicate k (false, false)) = .rti := by
  induction k with
  | zero => rfl
  | succ k ih => simp only [List.replicate_succ, endState, nextTap, ih]

/-- What brings an access to Capture-DR: `u` after the falling edge of its first cycle, `s'` in Capture-DR. -/
structure ToCapture (code : IrCode) (n : Nat) (s u s' : State) : Prop where
  ready : Ready n s'
  kept : Kept s s'
  tick : s'.g.tick = s.g.tick + edgesBeforeCapture code s * (2 * s.g.tckHalf)
  ret : s'.h.ret = s.h.ret
  lastIr : s'.h.lastIr = code
  state : s'.t.state = .capDR
  ir : s'.t.ir = scannedIr code s
  irSr : s'.t.irSr = if code ≠ s.h.lastIr then code else s.t.irSr
  fall : DtmFall s u
  rises : DtmRises (edgesBeforeCapture code s) u s'

/-- The IR path, then the two cycles to Capture-DR (R161, R163). -/
theorem irPath_toCapture {code : IrCode} {n : Nat} {s : State} (h : Ready (n + 12) s) (hs : startState s.t.state = true)
    (ha : UpdateAllowed s.t) (hne : code ≠ s.h.lastIr) :
    ∃ bs s₁ cs u s', runPins (irPins code) s = .done bs s₁ ∧
      runPins [(true, false), (false, false)] (noteIr code s₁) = .done cs s' ∧ cs.length = 2 ∧ ToCapture code n s u s' := by
  have h0 : s.t.state ≠ .capDR ∧ s.t.state ≠ .tlr := by
    rcases startState_cases hs with x | x | x <;> rw [x] <;> exact ⟨by simp, by simp⟩
  have hsel : nextTap s.t.state true = .selDR := by rcases startState_cases hs with x | x | x <;> rw [x] <;> rfl
  -- to Shift-IR
  obtain ⟨b1, u, s1, e1, l1, r1, k1, i1, f1, d1, q1⟩ := runPins_start (true, false)
    [(true, false), (false, false), (false, false)] (n + 8) s h ha h0 (by rw [hsel]; decide)
  have t1 : s1.t.state = .shIR := by rw [k1.state]; simp only [endState, hsel]; rfl
  -- the five shifts
  obtain ⟨b2, s2, e2, l2, r2, k2, i2, d2, q2⟩ := runPins_quiet (shiftPins (natBits 5 code.toNat)) (n + 3) s1 (by simpa using r1)
    (by rw [t1]; rw [shiftPins_ir]; simp [visits, nextTap])
  obtain ⟨b2', s2', e2', sr2⟩ := runPins_shiftIr code (n + 3) s1 (by simpa using r1) t1
  obtain ⟨_, rfl⟩ := runPins_inj e2 e2'
  have t2 : s2.t.state = .ex1IR := by rw [k2.state, t1, shiftPins_ir]; rfl
  -- to Update-IR
  obtain ⟨b3, s3, e3, r3, c3⟩ := cycle_effect (n := n + 2) r2 (fun z => by rw [t2] at z; cases z.1) true false
  have t3 : s3.t.state = .updIR := by rw [c3.state, t2]; rfl
  obtain ⟨w3, f3, ws3, _, dr3⟩ := c3.dtm
  have d3 : DtmRises 1 s2 s3 := ((DtmRises.of_same (f3.quiet (by rw [t2]; simp))).trans
    (DtmRises.of_rise dr3 (actionStatus_eq (.inl (by rw [ws3, t2]; simp))))).cast (by omega)
  have sr3 : s3.t.irSr = code := by rw [c3.irHold (by rw [t2]; simp) (by rw [t2]; simp), sr2]
  have k3 : PathKept [(true, false)] s2 s3 := (PathKept.nil s3).cons c3
  -- the first two cycles of the DR path
  have r3' : Ready (n + 2) (noteIr code s3) := r3.congr rfl rfl rfl
  obtain ⟨b4, w4, s4, e4, l4, r4, k4, i4, f4, d4, q4'⟩ := runPins_start (true, false) [(false, false)] n (noteIr code s3) r3'
    (fun z => by rw [noteIr_t, t3] at z; cases z.1) (by rw [noteIr_t, t3]; simp) (by rw [noteIr_t, t3]; decide)
  have q4 : DtmSame (noteIr code s3) w4 := f4.quiet (by rw [noteIr_t, t3]; simp)
  have d4' : DtmRises 2 s3 s4 := ((DtmRises.of_same (x := s3) (v := w4)
    ⟨q4.status, q4.inflight, q4.respAddr, q4.respData, q4.m⟩).trans d4).cast (by simp)
  have kk : Kept s3 (noteIr code s3) := ⟨rfl, rfl, rfl, rfl, rfl, rfl, rfl, rfl, rfl, rfl, rfl, rfl, rfl⟩
  have k10 := (k1.append k2).append k3
  refine ⟨_, s3, b4, u, s4, runPins_append_done (runPins_append_done e1 e2) (runPins_cons_done e3 rfl), e4, l4, ?_⟩
  have e12 : edgesBeforeCapture code s = 12 := by unfold edgesBeforeCapture; rw [if_pos hne]
  refine ⟨r4, (k10.kept.trans kk).trans k4.kept, ?_, ?_, ?_, ?_, ?_, ?_, f1, ?_⟩
  · rw [k4.tick, noteIr_g, k10.tick, k10.kept.tckHalf, e12, shiftPins_ir]
    simp only [List.length_append, List.length_cons, List.length_nil]
    ring
  · exact k4.ret.trans k10.ret
  · exact k4.lastIr
  · rw [k4.state, noteIr_t, t3]; rfl
  · rw [i4, noteIr_t, settledIr, if_pos t3, sr3, scannedIr, if_pos hne]
  · rw [q4' (by rw [noteIr_t, t3]; decide), noteIr_t, sr3, if_pos hne]
  · exact (((d1.trans d2).trans d3).trans d4').cast (by rw [e12, shiftPins_ir]; rfl)

/-- The dwell path, then the two cycles to Capture-DR (R162, R163). -/
theorem dwellPath_toCapture {code : IrCode} {n : Nat} {s : State} (h : Ready (n + (s.h.idleCycles + 3)) s)
    (hs : startState s.t.state = true) (ha : UpdateAllowed s.t) (heq : code = s.h.lastIr) :
    ∃ bs s₁ cs u s', runPins (dwellPins s.h.idleCycles) s = .done bs s₁ ∧
      runPins [(true, false), (false, false)] s₁ = .done cs s' ∧ cs.length = 2 ∧ ToCapture code n s u s' := by
  have h0 : s.t.state ≠ .capDR ∧ s.t.state ≠ .tlr := by
    rcases startState_cases hs with x | x | x <;> rw [x] <;> exact ⟨by simp, by simp⟩
  have hrti : nextTap s.t.state false = .rti := by rcases startState_cases hs with x | x | x <;> rw [x] <;> rfl
  obtain ⟨b1, u, s1, e1, l1, r1, k1, i1, f1, d1, q1⟩ := runPins_start (false, false) (List.replicate s.h.idleCycles (false, false))
    (n + 2) s (by simpa [Nat.add_assoc, Nat.add_comm, Nat.add_left_comm] using h) ha h0 (by
      rw [hrti, visits_dwell]
      intro y hy
      rw [List.eq_of_mem_replicate hy]
      simp)
  have t1 : s1.t.state = .rti := by rw [k1.state]; simp only [endState, hrti, endState_dwell]
  obtain ⟨b2, s2, e2, l2, r2, k2, i2, d2, q2⟩ := runPins_quiet [(true, false), (false, false)] n s1 r1 (by rw [t1]; decide)
  have en : edgesBeforeCapture code s = s.h.idleCycles + 3 := by unfold edgesBeforeCapture; rw [if_neg (by simp [heq])]
  have e1' : runPins (dwellPins s.h.idleCycles) s = .done b1 s1 := by
    unfold dwellPins; rw [Nat.add_comm, List.replicate_succ]; exact e1
  have k := k1.append k2
  refine ⟨b1, s1, b2, u, s2, e1', e2, l2, r2, k.kept, ?_, k.ret, ?_, ?_, ?_, ?_, f1, ?_⟩
  · rw [k.tick, en]
    simp only [List.length_append, List.length_cons, List.length_replicate, List.length_nil]
  · rw [k.lastIr, heq]
  · rw [k2.state, t1]; rfl
  · rw [i2, i1, scannedIr, if_neg (by simp [heq])]
  · rw [q2 (by rw [t1]; decide), q1 (by
      simp only [visits, hrti, visits_dwell]
      intro y hy
      rcases List.mem_cons.mp hy with e | e
      · rw [e]; rcases startState_cases hs with x | x | x <;> rw [x] <;> exact ⟨by simp, by simp⟩
      · rw [List.eq_of_mem_replicate e]; exact ⟨by simp, by simp⟩), if_neg (by simp [heq])]
  · exact (d1.trans d2).cast (by simp [en])

/-! ### From the Capture-DR -/

/-- What leads an access from Capture-DR in `d` to Update-DR in `s'`, through `e` right after the capture (R163, R121). -/
structure FromCapture (n : Nat) (w : Bits) (d e s' : State) : Prop where
  ready : Ready n s'
  kept : Kept d s'
  tick : s'.g.tick = d.g.tick + (w.length + 2) * (2 * d.g.tckHalf)
  ret : s'.h.ret = d.h.ret
  lastIr : s'.h.lastIr = d.h.lastIr
  state : s'.t.state = .updDR
  ir : s'.t.ir = d.t.ir
  irSr : s'.t.irSr = d.t.irSr
  pins : s'.g.tms = true ∧ s'.g.tdi = false ∧ s'.h.tmsDrv = true ∧ s'.h.tdiDrv = false
  drSr : s'.t.drSr = ((captureDr d.t).drSr ++ w).drop w.length
  capture : DtmRise d e
  after : DtmRises (w.length + 1) e s'

theorem captureDr_ne_nil (t : Device) : (captureDr t).drSr ≠ [] := by
  intro h
  have := captureDr_length t
  rw [h] at this
  have := drLen_pos t.par.abits t.ir
  simp at *
  omega

theorem drPath_fromCapture {w : Bits} {n : Nat} {d : State} (h : Ready (n + (w.length + 2)) d) (hs : d.t.state = .capDR)
    (hw : w ≠ []) :
    ∃ x y e s', runPins ((false, false) :: (shiftPins w ++ [(true, false)])) d =
        .done (x :: ((((captureDr d.t).drSr ++ w).take w.length).map some ++ [y])) s' ∧ FromCapture n w d e s' := by
  obtain ⟨b0, w0, hw0⟩ := List.exists_cons_of_ne_nil hw
  -- the capture
  obtain ⟨b1, s1, e1, r1, c1⟩ := cycle_effect (n := n + 1 + w.length) (by
    have e : n + (w.length + 2) = n + 1 + w.length + 1 := by omega
    exact e ▸ h) (fun z => by rw [hs] at z; cases z.1) false false
  have t1 : s1.t.state = .shDR := by rw [c1.state, hs]; rfl
  have i1 : s1.t.ir = d.t.ir := by rw [c1.ir, if_neg (by rw [hs]; simp), settledIr, if_neg (by rw [hs]; simp)]
  have dr1 := c1.drCapture hs
  obtain ⟨u, f, us, ui, rise⟩ := c1.dtm
  have q := f.quiet (by rw [hs]; simp)
  have hact : actionStatus u.t = actionStatus d.t := by
    have hi : settledIr d.t = d.t.ir := by rw [settledIr, if_neg (by rw [hs]; simp)]
    unfold actionStatus
    rw [noteBusy_status, noteBusy_status, us, ui, q.status, q.inflight, hi]
  have cap : DtmRise d s1 := by
    refine ⟨rise.respAddr.trans q.respAddr, by rw [rise.requests, q.m], by rw [rise.latencies, q.m], fun hi => ?_, fun a j hi => ?_, fun a hi => ?_⟩
    · have g := rise.idle (q.inflight.trans hi)
      rw [hact, q.respData, q.m] at g; exact g
    · have g := rise.waits a j (q.inflight.trans hi)
      rw [hact, q.respData, q.m] at g; exact g
    · have g := rise.answered a (q.inflight.trans hi)
      rw [hact, q.m] at g; exact g
  -- the shifts
  obtain ⟨b2, s2, e2, l2, r2, k2, i2, d2, q2⟩ := runPins_quiet (shiftPins w) (n + 1) s1 (by simpa using r1) (by
    rw [t1, visits_shiftPins_dr]
    intro y hy
    rw [List.eq_of_mem_replicate hy]
    simp)
  obtain ⟨s2', e2', sr2⟩ := runPins_shiftDr w (n + 1) s1 r1 t1 (by rw [dr1]; exact captureDr_ne_nil _)
  obtain ⟨rfl, rfl⟩ := runPins_inj e2 e2'
  have t2 : s2.t.state = .ex1DR := by rw [k2.state, t1, hw0, endState_shiftPins_dr]
  -- to Update-DR
  obtain ⟨b3, s3, e3, l3, r3, k3, i3, d3, q3⟩ := runPins_quiet [(true, false)] n s2 r2 (by rw [t2]; decide)
  obtain ⟨b3', s3', e3', r3', c3⟩ := cycle_effect (n := n) r2 (fun z => by rw [t2] at z; cases z.1) true false
  obtain ⟨rfl, rfl⟩ := runPins_inj e3 (runPins_cons_done (p := (true, false)) e3' (show runPins [] s3' = .done [] s3' from rfl))
  have k : PathKept ((false, false) :: (shiftPins w ++ [(true, false)])) d s3 := (k2.append k3).cons c1
  refine ⟨some b1, some b3', s1, s3, ?_, r3, k.kept, ?_, k.ret, k.lastIr, ?_, ?_, ?_, c3.pins, ?_, cap, ?_⟩
  · have := runPins_cons_done (p := (false, false)) e1 (runPins_append_done e2 e3)
    rw [this, dr1]
  · rw [k.tick]
    simp only [List.length_append, List.length_cons, List.length_nil, shiftPins_length]
  · rw [k3.state, t2]; rfl
  · rw [i3, i2, i1]
  · rw [q3 (by rw [t2]; decide), q2 (by
      rw [t1, visits_shiftPins_dr]
      intro y hy
      rw [List.eq_of_mem_replicate hy]
      exact ⟨by simp, by simp⟩), c1.irHold (by rw [hs]; simp) (by rw [hs]; simp)]
  · rw [c3.drHold (by rw [t2]; simp) (by rw [t2]; simp), sr2, dr1]
  · exact (d2.trans d3).cast (by simp)

/-! ### The access -/

/-- What an access does (R160-R165): `u` after the falling edge of its first cycle, `d` in Capture-DR, `e` after the capture. -/
structure AccessRun (code : IrCode) (w : Bits) (n : Nat) (s u d e s' : State) : Prop where
  ready : Ready n s'
  kept : Kept s s'
  tick : s'.g.tick = s.g.tick + accessCycles code w.length s * (2 * s.g.tckHalf)
  lastIr : s'.h.lastIr = code
  state : s'.t.state = .updDR
  ir : s'.t.ir = scannedIr code s
  irSr : s'.t.irSr = if code ≠ s.h.lastIr then code else s.t.irSr
  pins : s'.g.tms = true ∧ s'.g.tdi = false ∧ s'.h.tmsDrv = true ∧ s'.h.tdiDrv = false
  drSr : s'.t.drSr = ((captureDr d.t).drSr ++ w).drop w.length
  fall : DtmFall s u
  before : DtmRises (edgesBeforeCapture code s) u d
  capState : d.t.state = .capDR
  capIr : d.t.ir = scannedIr code s
  capPar : d.t.par = s.t.par
  capture : DtmRise d e
  after : DtmRises (w.length + 1) e s'

theorem accessCycles_eq (code : IrCode) (len : Nat) (s : State) :
    accessCycles code len s = edgesBeforeCapture code s + (len + 2) := by
  unfold accessCycles edgesBeforeCapture
  split <;> omega

theorem mapIdx_sampleBit (l : Bits) : (l.map some).mapIdx sampleBit = l := by
  apply List.ext_getElem
  · simp
  · intro i h1 h2
    simp [sampleBit]

/-- The scan-out of a DR path (R165). -/
theorem scanOut_samples {len : Nat} {cs : List (Option Bool)} {x y : Option Bool} {l : Bits} (hc : cs.length = 2)
    (hl : l.length = len) : scanOut len (cs ++ x :: (l.map some ++ [y])) = l := by
  unfold scanOut
  have e1 : (cs ++ x :: (l.map some ++ [y])).drop 3 = l.map some ++ [y] := by
    rw [List.drop_append, hc, List.drop_eq_nil_of_le (by omega)]
    rfl
  rw [e1, List.take_append_of_le_length (by simp [hl]), List.take_of_length_le (by simp [hl]), mapIdx_sampleBit]

theorem irOrDwell_toCapture {code : IrCode} {n : Nat} {s : State} (h : Ready (n + edgesBeforeCapture code s) s)
    (hs : startState s.t.state = true) (ha : UpdateAllowed s.t) :
    ∃ s₁ cs u d, irOrDwell code s = .done () s₁ ∧ runPins [(true, false), (false, false)] s₁ = .done cs d ∧
      cs.length = 2 ∧ ToCapture code n s u d := by
  by_cases hne : code = s.h.lastIr
  · have en : edgesBeforeCapture code s = s.h.idleCycles + 3 := by unfold edgesBeforeCapture; rw [if_neg (by simp [hne])]
    obtain ⟨bs, s₁, cs, u, d, e1, e2, l2, t⟩ := dwellPath_toCapture (en ▸ h) hs ha hne
    refine ⟨s₁, cs, u, d, ?_, e2, l2, t⟩
    unfold irOrDwell
    rw [if_neg (by simp [hne]), e1]
  · have en : edgesBeforeCapture code s = 12 := by unfold edgesBeforeCapture; rw [if_pos hne]
    obtain ⟨bs, s₁, cs, u, d, e1, e2, l2, t⟩ := irPath_toCapture (en ▸ h) hs ha hne
    refine ⟨noteIr code s₁, cs, u, d, ?_, e2, l2, t⟩
    unfold irOrDwell
    rw [if_pos hne, e1]

/-- The register access of a link that is up completes (R160), with the scan-out of R121. -/
theorem accessReg_done {code : IrCode} {wdata : ScanWord} {len n : Nat} {s : State} (h : AccessReady n code len s) :
    ∃ u d e s', AccessRun code (natBits len wdata.toNat) n s u d e s' ∧
      accessReg code wdata len s =
        .next (setRet (.bits (((captureDr d.t).drSr ++ natBits len wdata.toNat).take len)) s') := by
  have hs := h.start
  have hr := h.ready
  have h1 := h.lenPos
  have h2 : len ≤ 64 := h.lenMax
  rw [h.ready.mirrored] at hs
  obtain ⟨s₁, cs, u, d, e1, e2, l2, t⟩ := irOrDwell_toCapture (n := n + (len + 2)) (s := s) (code := code)
    (by rw [accessCycles_eq] at hr; convert hr using 1; omega) hs h.allowed
  have lw : (natBits len wdata.toNat).length = len := natBits_length _ _
  obtain ⟨x, y, e, s', e3, f⟩ := drPath_fromCapture (w := natBits len wdata.toNat) (n := n) (d := d)
    (by rw [lw]; exact t.ready) t.state (by intro z; rw [z] at lw; simp at lw; omega)
  rw [lw] at e3
  have e4 : runPins (drPins wdata len) s₁ = .done (cs ++ x :: ((((captureDr d.t).drSr ++ natBits len wdata.toNat).take len).map
      some ++ [y])) s' := by
    have := runPins_append_done e2 e3
    exact this
  refine ⟨u, d, e, s', ⟨f.ready, t.kept.trans f.kept, ?_, f.lastIr.trans t.lastIr, f.state, f.ir.trans t.ir, f.irSr.trans t.irSr,
    f.pins, f.drSr, t.fall, t.rises, t.state, t.ir, t.kept.par, f.capture, f.after⟩, ?_⟩
  · rw [f.tick, t.tick, t.kept.tckHalf, lw, accessCycles_eq]; ring
  · unfold accessReg accessScan
    rw [if_neg (by simp [Config.maxScanLen]; omega), if_neg (by omega), h.ready.mirrored, hs, e1]
    simp only [Bool.not_true, Bool.false_eq_true, if_false, e4]
    rw [scanOut_samples l2]
    simp [lw]

/-! ### The DTM's frame over an access -/

theorem DtmSame.trans {s u v : State} (a : DtmSame s u) (b : DtmSame u v) : DtmSame s v :=
  ⟨b.status.trans a.status, b.inflight.trans a.inflight, b.respAddr.trans a.respAddr, b.respData.trans a.respData, b.m.trans a.m⟩

/-- An update that carries no command sends nothing, and leaves a DTM without a request in flight as it is. -/
theorem updateDr_noCommand {x w : State} (h : updateDr x = .next w) (h1 : x.t.ir = 0x11#5 → dmiOpField x.t.drSr = 0)
    (h2 : x.t.ir = 0x10#5 → (dtmcsField x.t.drSr).getLsbD 16 = false ∧ (dtmcsField x.t.drSr).getLsbD 17 = false) :
    (w = x ∨ w = dropBusy x) := by
  unfold updateDr at h
  split at h
  · rename_i hir
    unfold updateDmi at h
    rw [h1 hir] at h
    cases h
    exact .inr rfl
  · split at h
    · rename_i hir
      obtain ⟨b16, b17⟩ := h2 hir
      unfold updateDtmcs at h
      rw [b16, b17] at h
      cases h
      exact .inl rfl
    · cases h; exact .inl rfl

theorem dropBusy_idle {x : State} (h : x.t.inflight = none) : dropBusy x = x := by
  unfold dropBusy noteBusy
  rw [h]
  rfl

/-- The falling edge without a command (R118). -/
theorem DtmFall.noUpdate {s u : State} (f : DtmFall s u) (h : NoUpdate s.t) :
    u.t.respAddr = s.t.respAddr ∧ u.m = s.m ∧ (s.t.inflight = none → DtmSame s u) := by
  by_cases hs : s.t.state = .updDR
  · obtain ⟨x, w, sx, xi, xd, _, e, sw⟩ := f.word hs
    obtain ⟨h1, h2⟩ := h hs
    rcases updateDr_noCommand e (by rw [xi, xd]; exact h1) (by rw [xi, xd]; exact h2) with rfl | rfl
    · exact ⟨(sx.trans sw).respAddr, (sx.trans sw).m, fun _ => sx.trans sw⟩
    · refine ⟨?_, ?_, fun hi => ?_⟩
      · rw [sw.respAddr, dropBusy_t, noteBusy_respAddr, sx.respAddr]
      · rw [sw.m, dropBusy_m, sx.m]
      · rw [dropBusy_idle (sx.inflight.trans hi)] at sw
        exact sx.trans sw
  · have q := f.quiet hs
    exact ⟨q.respAddr, q.m, fun _ => q⟩

/-- Rising edges leave a DTM without a request in flight as it is. -/
theorem DtmRises.idle_same {k : Nat} {x v : State} (d : DtmRises k x v) (h : x.t.inflight = none) : DtmSame x v := by
  obtain ⟨h1, h2, h3, h4⟩ := d.idle h
  refine ⟨h2, h1.trans h.symm, d.respAddr, h3, ?_⟩
  have e1 := d.requests
  have e2 := d.latencies
  cases hv : v.m with
  | mk a b c => cases hx : x.m with
    | mk a' b' c' => rw [hv] at e1 e2 h4; rw [hx] at e1 e2 h4; simp_all

/-- So does a capture, of any register. -/
theorem DtmRise.idle_same {x v : State} (d : DtmRise x v) (h : x.t.inflight = none) : DtmSame x v := by
  have ha : actionStatus x.t = x.t.status := by
    unfold actionStatus
    split
    · rw [noteBusy_status, if_neg (by simp [h])]
    · rfl
  exact (DtmRises.of_rise d ha).idle_same h

theorem AccessRun.dtmFrame {code : IrCode} {w : Bits} {n : Nat} {s u d e s' : State} (a : AccessRun code w n s u d e s') :
    DtmFrame s s' ∧ (DtmQuiet s.t → DtmSame s d) ∧ (NoUpdate s.t → d.t.respAddr = s.t.respAddr) := by
  refine ⟨⟨fun q => ?_, fun q => ?_⟩, fun q => ?_, fun q => ?_⟩
  · have h1 := (a.fall.noUpdate q.noUpdate).2.2 q.idle
    have h2 := h1.trans (a.before.idle_same (h1.inflight.trans q.idle))
    have h3 := h2.trans (a.capture.idle_same (h2.inflight.trans q.idle))
    exact h3.trans (a.after.idle_same (h3.inflight.trans q.idle))
  · obtain ⟨h1, h2, _⟩ := a.fall.noUpdate q
    refine ⟨?_, ?_, ?_⟩
    · rw [a.after.respAddr, a.capture.respAddr, a.before.respAddr, h1]
    · rw [a.after.requests, a.capture.requests, a.before.requests, h2]
    · rw [a.after.latencies, a.capture.latencies, a.before.latencies, h2]
  · have h1 := (a.fall.noUpdate q.noUpdate).2.2 q.idle
    exact h1.trans (a.before.idle_same (h1.inflight.trans q.idle))
  · rw [a.before.respAddr, (a.fall.noUpdate q).1]

/-- How the access ends, in the terms of the claims. -/
theorem AccessRun.ends {code : IrCode} {w : Bits} {n : Nat} {s u d e s' : State} (a : AccessRun code w n s u d e s') :
    AccessEnds code (captureDr d.t).drSr w s (setRet (.bits (((captureDr d.t).drSr ++ w).take w.length)) s') where
  out := rfl
  drSr := a.drSr
  state := a.state
  mirrored := a.ready.mirrored.trans a.state
  ir := a.ir
  irSr := a.irSr
  lastIr := a.lastIr
  tick := a.tick
  pins := a.pins
  kept := a.kept.trans ⟨rfl, rfl, rfl, rfl, rfl, rfl, rfl, rfl, rfl, rfl, rfl, rfl, rfl⟩

/-- The register access of a link that is up (R160-R165): `u` is the DTM after the falling edge of its first cycle, `d` the state
in which it captures. -/
theorem accessReg_captures {code : IrCode} {wdata : ScanWord} {len n : Nat} {s : State} (h : AccessReady n code len s) :
    ∃ u d s', accessReg code wdata len s = .next s' ∧ AccessEnds code (captureDr d.t).drSr (natBits len wdata.toNat) s s' ∧
      DtmFrame s s' ∧ Ready n s' ∧ d.t.ir = scannedIr code s ∧ d.t.par = s.t.par ∧ (DtmQuiet s.t → DtmSame s d) ∧
      DtmFall s u ∧ DtmRises (edgesBeforeCapture code s) u d := by
  obtain ⟨u, d, e, s', a, x⟩ := accessReg_done (wdata := wdata) h
  obtain ⟨f, q1, q2⟩ := a.dtmFrame
  refine ⟨u, d, _, x, ?_, ⟨fun q => ?_, f.sentNothing⟩, a.ready.setRet _, a.capIr, a.capPar, q1, a.fall, a.before⟩
  · have := a.ends
    rw [natBits_length] at this
    exact this
  · obtain ⟨h1, h2, h3, h4, h5⟩ := f.quiet q
    exact ⟨h1, h2, h3, h4, h5⟩

theorem accessReg_ends {code : IrCode} {wdata : ScanWord} {len n : Nat} {s : State} (h : AccessReady n code len s) :
    ∃ d s', accessReg code wdata len s = .next s' ∧ AccessEnds code (captureDr d.t).drSr (natBits len wdata.toNat) s s' ∧
      DtmFrame s s' ∧ Ready n s' ∧ d.t.ir = scannedIr code s ∧ d.t.par = s.t.par ∧ (DtmQuiet s.t → DtmSame s d) ∧
      (NoUpdate s.t → d.t.respAddr = s.t.respAddr) := by
  obtain ⟨u, d, s', x, a, f, r, i, p, q, g, k⟩ := accessReg_captures (wdata := wdata) h
  exact ⟨d, s', x, a, f, r, i, p, q, fun z => k.respAddr.trans (g.noUpdate z).1⟩

/-- A sticky status outlives rising edges (R143, R147). -/
theorem DtmRises.sticky {k : Nat} {x v : State} (d : DtmRises k x v) (h : x.t.status ≠ .ok) : v.t.status = x.t.status := by
  cases hi : x.t.inflight with
  | none => exact (d.idle hi).2.1
  | some p =>
    obtain ⟨q, r⟩ := p
    by_cases hk : k ≤ r
    · exact (d.waits q r hi hk).2.1
    · obtain ⟨_, _, a, _, _, e⟩ := d.answered q r hi (by omega)
      rw [e, if_neg (by simp [h])]

/-- A sticky status outlives a falling edge without a command (R136, R143). -/
theorem DtmFall.sticky {s u : State} (f : DtmFall s u) (h : NoUpdate s.t) (hs : s.t.status ≠ .ok) : u.t.status = s.t.status := by
  by_cases hx : s.t.state = .updDR
  · obtain ⟨x, w, sx, xi, xd, _, e, sw⟩ := f.word hx
    obtain ⟨h1, h2⟩ := h hx
    rcases updateDr_noCommand e (by rw [xi, xd]; exact h1) (by rw [xi, xd]; exact h2) with rfl | rfl
    · exact sw.status.trans sx.status
    · rw [sw.status, dropBusy_t, noteBusy_status, if_neg (by simp [sx.status, hs]), sx.status]
  · exact (f.quiet hx).status

/-- The instruction of an IR code is the register access for that code (42_jtag_registers.md). -/
theorem exec_decodeIr (code : IrCode) (len : Nat) (wdata : ScanWord) (s : State) :
    exec (decodeIr code len wdata) s = accessReg code wdata len s := by
  obtain ⟨v, hv⟩ := code
  interval_cases v <;> rfl

end Sys2Proof.Machine
end

