-- ==== Sys2Proof/Laws/Update.lean ====
section
/-! SUPPORT. Laws/Update.lean: what an update of Update-DR does to the DTM (R112, R128, R136-R146), and how a sticky status and
an ended simulation go on. -/

namespace Sys2Proof.Machine

/-- A sticky status outlives a rising edge (R143, R147). -/
theorem DtmRise.sticky {x v : State} (d : DtmRise x v) (h : actionStatus x.t ≠ .ok) : v.t.status = actionStatus x.t := by
  cases hi : x.t.inflight with
  | none => exact (d.idle hi).2.1
  | some p =>
    obtain ⟨q, r⟩ := p
    cases r with
    | succ r => exact (d.waits q r hi).2.1
    | zero =>
      obtain ⟨_, _, a, _, _, e⟩ := d.answered q hi
      rw [e, if_neg (by simp [h])]

theorem noteBusy_sticky {t : Device} (h : t.status ≠ .ok) : (noteBusy t).status = t.status := by
  rw [noteBusy_status, if_neg (by simp [h])]

/-- What a request does to the status (R140, R141). -/
theorem dmiRequestUpdate_status (r : DmiRequest) (x : State) :
    (x.t.status ≠ .ok → (dmiRequestUpdate r x).t.status = x.t.status) ∧
    (x.t.status = .ok → (dmiRequestUpdate r x).t.status ≠ .ok →
      (dmiRequestUpdate r x).t.status = .retry ∧ x.t.inflight ≠ none) := by
  unfold dmiRequestUpdate
  split
  · exact ⟨fun _ => rfl, fun a b => absurd a b⟩
  · split
    · rename_i h2
      refine ⟨fun a => noteBusy_sticky a, fun a b => ⟨?_, Option.isSome_iff_ne_none.mp h2⟩⟩
      rw [dropBusy_t, noteBusy_status, if_pos (by simp [a, h2])]
    · exact ⟨fun _ => rfl, fun a b => absurd a b⟩

/-- What an update does to the status (R140, R141, R144, R145): only a DTMCS command clears it, only a request in flight sets
it. -/
theorem updateDr_status {x v : State} (h : updateDr x = .next v) :
    (x.t.status ≠ .ok → v.t.status ≠ x.t.status →
      x.t.ir = 0x10#5 ∧ ((dtmcsField x.t.drSr).getLsbD 16 = true ∨ (dtmcsField x.t.drSr).getLsbD 17 = true)) ∧
    (x.t.status = .ok → v.t.status ≠ .ok → v.t.status = .retry ∧ x.t.ir = 0x11#5 ∧ x.t.inflight ≠ none) := by
  unfold updateDr at h
  split at h
  · rename_i hir
    unfold updateDmi at h
    split at h
    · cases h
      refine ⟨fun a b => absurd (noteBusy_sticky a) b, fun a b => ?_⟩
      by_cases hi : x.t.inflight.isSome = true
      · exact ⟨by rw [dropBusy_t, noteBusy_status, if_pos (by simp [a, hi])], hir, Option.isSome_iff_ne_none.mp hi⟩
      · rw [dropBusy_t, noteBusy_status, if_neg (by simp [hi])] at b
        exact absurd a b
    · cases h
      obtain ⟨g1, g2⟩ := dmiRequestUpdate_status _ x
      exact ⟨fun a b => absurd (g1 a) b, fun a b => ⟨(g2 a b).1, hir, (g2 a b).2⟩⟩
    · cases h
      obtain ⟨g1, g2⟩ := dmiRequestUpdate_status _ x
      exact ⟨fun a b => absurd (g1 a) b, fun a b => ⟨(g2 a b).1, hir, (g2 a b).2⟩⟩
    · cases h
  · split at h
    · rename_i hir
      unfold updateDtmcs at h
      split at h
      · rename_i hb; cases h; exact ⟨fun a b => ⟨hir, .inr hb⟩, fun a b => absurd rfl b⟩
      · split at h
        · rename_i hb; cases h; exact ⟨fun a b => ⟨hir, .inl hb⟩, fun a b => absurd rfl b⟩
        · cases h; exact ⟨fun a b => absurd rfl b, fun a b => absurd a b⟩
    · cases h; exact ⟨fun a b => absurd rfl b, fun a b => absurd a b⟩

/-- The status after an update, in three cases: as it was, cleared by a DTMCS command, or RETRY because a request is in flight. -/
theorem updateDr_status_cases {x v : State} (h : updateDr x = .next v) :
    v.t.status = x.t.status ∨ (v.t.status = .ok ∧ x.t.ir = 0x10#5) ∨
      (v.t.status = .retry ∧ x.t.status = .ok ∧ x.t.ir = 0x11#5 ∧ x.t.inflight ≠ none) := by
  obtain ⟨h1, h2⟩ := updateDr_status h
  by_cases hs : x.t.status = .ok
  · by_cases hv : v.t.status = .ok
    · exact .inl (hv.trans hs.symm)
    · exact .inr (.inr ⟨(h2 hs hv).1, hs, (h2 hs hv).2⟩)
  · by_cases hv : v.t.status = x.t.status
    · exact .inl hv
    · obtain ⟨hir, hb⟩ := h1 hs hv
      refine .inr (.inl ⟨?_, hir⟩)
      unfold updateDr updateDtmcs at h
      rw [if_neg (by rw [hir]; decide), if_pos hir] at h
      split at h
      · cases h; rfl
      · split at h
        · cases h; rfl
        · cases h; exact absurd rfl hv

/-- The request in flight after an update: as before, none (R145), or a new one, which waits for the latency M draws (R137, R138). -/
theorem updateDr_inflight {x v : State} (h : updateDr x = .next v) :
    v.t.inflight = x.t.inflight ∨ v.t.inflight = none ∨
      (x.t.ir = 0x11#5 ∧ (dmiOpField x.t.drSr = 1 ∨ dmiOpField x.t.drSr = 2) ∧ x.t.status = .ok ∧ x.t.inflight = none ∧
        ∃ r, v.t.inflight = some ⟨r, drawLatency x⟩) := by
  have req : ∀ r, (dmiRequestUpdate r x).t.inflight = x.t.inflight ∨
      (x.t.status = .ok ∧ x.t.inflight = none ∧ (dmiRequestUpdate r x).t.inflight = some ⟨r, drawLatency x⟩) := fun r => by
    unfold dmiRequestUpdate
    split
    · exact .inl rfl
    · rename_i h1
      split
      · exact .inl (by simp)
      · rename_i h2
        exact .inr ⟨not_not.mp h1, by simpa using h2, rfl⟩
  unfold updateDr at h
  split at h
  · rename_i hir
    unfold updateDmi at h
    split at h
    · cases h; exact .inl (by simp)
    · rename_i hop
      cases h
      rcases req ⟨.read, dmiAddrField x.t.par.abits x.t.drSr, 0#32⟩ with e | ⟨e1, e2, e3⟩
      · exact .inl e
      · exact .inr (.inr ⟨hir, .inl hop, e1, e2, _, e3⟩)
    · rename_i hop
      cases h
      rcases req ⟨.write, dmiAddrField x.t.par.abits x.t.drSr, dmiDataField x.t.drSr⟩ with e | ⟨e1, e2, e3⟩
      · exact .inl e
      · exact .inr (.inr ⟨hir, .inr hop, e1, e2, _, e3⟩)
    · cases h
  · split at h
    · unfold updateDtmcs at h
      split at h
      · cases h; exact .inr (.inl rfl)
      · split at h
        · cases h; exact .inl rfl
        · cases h; exact .inl rfl
    · cases h; exact .inl rfl

/-- The datum a request carries (R137, R138). -/
def ReqOp.datum (op : ReqOp) (w : Word32) : Word32 :=
  match op with
  | .read => 0#32
  | .write => w

/-- A request that an idle DTM takes at Update-DR (R137, R138, R148). -/
theorem updateDr_request {x v : State} {op : ReqOp} {d : Nat} {ds : List Nat} (h : updateDr x = .next v) (hir : x.t.ir = 0x11#5)
    (hop : dmiOpField x.t.drSr = op.code) (hs : x.t.status = .ok) (hi : x.t.inflight = none) (hl : x.m.latencies = d :: ds) :
    v.t.inflight = some ⟨⟨op, dmiAddrField x.t.par.abits x.t.drSr, op.datum (dmiDataField x.t.drSr)⟩, d⟩ ∧
    v.t.respAddr = dmiAddrField x.t.par.abits x.t.drSr ∧ v.t.status = .ok ∧ v.t.respData = x.t.respData ∧
    v.m.requests = x.m.requests ++ [⟨op, dmiAddrField x.t.par.abits x.t.drSr, op.datum (dmiDataField x.t.drSr)⟩] ∧
    v.m.latencies = ds ∧ v.m.answers = x.m.answers := by
  unfold updateDr at h
  rw [if_pos hir] at h
  unfold updateDmi at h
  rw [hop] at h
  cases op <;> simp only [ReqOp.code] at h <;> cases h <;>
    simp [dmiRequestUpdate, hs, hi, sendRequest, drawLatency, hl, ReqOp.datum]

/-! ### An ended simulation (R184) -/

theorem untilPosedge_ended {n : Nat} {tdo : Option Bool} {s : State} (h : allDone s = true) :
    untilPosedge (n + 1) tdo s = .ended s := by
  unfold untilPosedge
  rw [if_pos h]

theorem cycle_ended {tms tdi : Bool} {s : State} (h : allDone s = true) : cycle tms tdi s = .ended (drive tms tdi s) := by
  unfold cycle
  rw [show edgeBound s = 2 * s.g.tckHalf + 1 from rfl, untilPosedge_ended (show allDone (drive tms tdi s) = true from h)]

theorem runPins_ended {p : PinPair} {ps : List PinPair} {s : State} (h : allDone s = true) :
    runPins (p :: ps) s = .ended (drive p.1 p.2 s) := by
  simp only [runPins, cycle_ended h]

end Sys2Proof.Machine
end

