-- ==== Sys2Proof/Laws/Ending.lean ====
section
/-! SUPPORT. Laws/Ending.lean: a simulation that ends inside an operation of a link that is up (R97, R178, R189): the TCK cycle, a
path, the access, `Tap.reset`. -/

namespace Sys2Proof.Machine

/-! ### When the simulation is over -/

theorem OverAt.mono {j k : Nat} {s : State} (h : OverAt j s) (hk : j ≤ k) : OverAt k s :=
  h.imp (fun x => ⟨x.1, x.2.trans hk⟩) fun ⟨i, hi, x⟩ => ⟨i, hi, x.trans hk⟩

theorem OverAt.congr {k : Nat} {s u : State} (hm : u.g.maxTime = s.g.maxTime) (hf : u.t.finishAt = s.t.finishAt) :
    OverAt k u ↔ OverAt k s := by unfold OverAt; rw [hm, hf]

theorem Kept.overAt {k : Nat} {s u : State} (h : Kept s u) : OverAt k u ↔ OverAt k s := OverAt.congr h.maxTime h.finishAt

/-- An `eval` at a tick at which the simulation is over sees it (R93, R97). -/
theorem allDone_of_overAt {s : State} (h : OverAt s.g.tick s) : allDone (sampleOutputs s) = true := by
  unfold allDone
  rcases h with ⟨h1, h2⟩ | ⟨j, h1, h2⟩
  · simp [h1, h2]
  · rw [Option.mem_def] at h1
    simp [sampleOutputs, h1, h2]

/-- A consistent G past the window is live as long as the simulation is not over. -/
theorem Live.of_not_overAt {b : Nat} {s : State} (h : ClockOk s) (hr : s.g.resetDur ≤ s.g.tick) (hf : s.g.finished = false)
    (hb : s.g.tick ≤ b) (ho : ¬ OverAt b s) : Live b s := by
  refine ⟨h, hr, hb, hf, ?_, fun k hk => ?_⟩
  · by_cases hm : s.g.maxTime = 0
    · exact .inl hm
    · exact .inr (Nat.lt_of_not_le fun x => ho (.inl ⟨hm, x⟩))
  · exact Nat.lt_of_not_le fun x => ho (.inr ⟨k, hk, x⟩)

theorem NotEnding.not_overAt {n : Nat} {s : State} (h : NotEnding n s) : ¬ OverAt (s.g.tick + n * (2 * s.g.tckHalf)) s := by
  rintro (⟨h1, h2⟩ | ⟨j, h1, h2⟩)
  · rcases h.capFar with x | x
    · exact h1 x
    · omega
  · have := h.finishFar j h1
    omega

theorem NotEnding.of_not_overAt {s : State} (hf : s.g.finished = false) (ho : ¬ OverAt s.g.tick s) : NotEnding 0 s := by
  refine ⟨hf, ?_, fun k hk => ?_⟩
  · by_cases hm : s.g.maxTime = 0
    · exact .inl hm
    · exact .inr (by
        have : s.g.tick < s.g.maxTime := Nat.lt_of_not_le fun x => ho (.inl ⟨hm, x⟩)
        omega)
  · have : s.g.tick < k := Nat.lt_of_not_le fun x => ho (.inr ⟨k, hk, x⟩)
    omega

/-! ### The frame of one edge after another -/

theorem DtmFrame.of_fall {s u : State} (f : DtmFall s u) : DtmFrame s u :=
  ⟨fun q => (f.noUpdate q.noUpdate).2.2 q.idle, fun q => by
    obtain ⟨h1, h2, _⟩ := f.noUpdate q
    exact ⟨h1, by rw [h2], by rw [h2]⟩⟩

theorem DtmFrame.of_same {s u : State} (h : DtmSame s u) : DtmFrame s u :=
  ⟨fun _ => h, fun _ => ⟨h.respAddr, by rw [h.m], by rw [h.m]⟩⟩

/-- A frame goes on from a state in which no update waits. -/
theorem DtmFrame.trans {s u v : State} (a : DtmFrame s u) (b : DtmFrame u v) (hu : u.t.state ≠ .updDR) : DtmFrame s v :=
  ⟨fun q => (a.quiet q).trans (b.quiet ⟨(a.quiet q).inflight.trans q.idle, fun x => absurd x hu⟩), fun q => by
    obtain ⟨h1, h2, h3⟩ := a.sentNothing q
    obtain ⟨g1, g2, g3⟩ := b.sentNothing fun x => absurd x hu
    exact ⟨g1.trans h1, g2.trans h2, g3.trans h3⟩⟩

theorem CycleEffect.frame {tms tdi b : Bool} {s s' : State} (c : CycleEffect tms tdi s b s') : DtmFrame s s' := by
  obtain ⟨w, f, _, _, d⟩ := c.dtm
  refine ⟨fun q => ?_, fun q => ?_⟩
  · have h1 := (f.noUpdate q.noUpdate).2.2 q.idle
    exact h1.trans (d.idle_same (h1.inflight.trans q.idle))
  · obtain ⟨h1, h2, _⟩ := f.noUpdate q
    exact ⟨d.respAddr.trans h1, by rw [d.requests, h2], by rw [d.latencies, h2]⟩

/-! ### The TCK cycle -/

/-- A TCK cycle inside which the simulation ends: after its falling edge the update of the word that waits has happened, before it
nothing has (R109-R112). -/
structure CycleEnded (tms tdi : Bool) (s e : State) : Prop extends EndedInside [(tms, tdi)] 0 s e where
  lastIr : e.h.lastIr = s.h.lastIr
  irSr : e.t.irSr = s.t.irSr
  drSr : e.t.drSr = s.t.drSr
  early : e.g.tick < s.g.tick + s.g.tckHalf → DtmSame s e ∧ e.t.ir = s.t.ir
  late : s.g.tick + s.g.tckHalf ≤ e.g.tick → DtmFall s e ∧ e.t.ir = settledIr s.t

/-- What of a state `e` inside a cycle begun in `s` does not depend on the edge it stands after. -/
structure Inside (tms tdi : Bool) (j : Nat) (s e : State) : Prop where
  tick : e.g.tick = s.g.tick + j * s.g.mainHalf
  clock : ClockOk e
  h : e.h = (drive tms tdi s).h
  pins : e.g.tms = tms ∧ e.g.tdi = tdi
  state : e.t.state = s.t.state
  irSr : e.t.irSr = s.t.irSr
  drSr : e.t.drSr = s.t.drSr
  kept : Kept s e

theorem Inside.ended {tms tdi : Bool} {j : Nat} {s e : State} (i : Inside tms tdi j s e) (hs : LinkUp s) (hd : allDone e = true)
    (hj : 1 ≤ j ∧ j ≤ 3) (ho : OverAt (s.g.tick + j * s.g.mainHalf) s) (hn : ¬ OverAt (s.g.tick + (j - 1) * s.g.mainHalf) s)
    (hf : DtmFrame s e) : EndedInside [(tms, tdi)] 0 s e := by
  have hm := hs.main_pos
  have hT : s.g.tckHalf = 2 * s.g.mainHalf := hs.tckHalf_eq
  obtain ⟨k, rfl⟩ : ∃ k, j = k + 1 := ⟨j - 1, by omega⟩
  have e1 : (k + 1) * s.g.mainHalf = k * s.g.mainHalf + s.g.mainHalf := by ring
  have e2 : k * s.g.mainHalf ≤ 2 * s.g.mainHalf := Nat.mul_le_mul_right _ (by omega)
  have ht := i.tick
  refine ⟨hd, ht ▸ ho, ?_, by omega, by omega, i.clock, i.state, ?_, ?_, i.kept, hf⟩
  · rw [ht, e1, ← Nat.add_assoc, Nat.add_sub_cancel]
    simpa using hn
  · rw [i.state, i.h]; exact hs.mirrored
  · exact ⟨(tms, tdi), rfl, i.pins.1, i.pins.2, by rw [i.h]; rfl, by rw [i.h]; rfl⟩

/-- After the first advance of a cycle. -/
theorem inside_first {s : State} (h : ClockOk s) (tms tdi : Bool) :
    Inside tms tdi 1 s (sampleOutputs (commitPins (advance (drive tms tdi s)))) :=
  ⟨by rw [Nat.one_mul]; rfl, (h.drive tms tdi).after rfl rfl, rfl, ⟨rfl, rfl⟩, rfl, rfl, rfl,
    ⟨rfl, rfl, rfl, rfl, rfl, rfl, rfl, rfl, rfl, rfl, rfl, rfl, rfl⟩⟩

/-- After its falling edge. -/
theorem Inside.fall {tms tdi : Bool} {s u : State} (h : ClockOk s) (k : FallKept (fallState tms tdi s) u) :
    Inside tms tdi 2 s (sampleOutputs u) := by
  have i := inside_first h tms tdi
  have hg := k.g
  refine ⟨?_, i.clock.after k.g k.pins, k.h, ⟨?_, ?_⟩, k.state, k.irSr, k.drSr, i.kept.trans (Kept.of_edge k.toEdgeKept)⟩
  · show u.g.tick = _
    rw [hg]
    show s.g.tick + s.g.mainHalf + s.g.mainHalf = _
    omega
  · show u.g.tms = _
    rw [hg]; rfl
  · show u.g.tdi = _
    rw [hg]; rfl

/-- After an advance that is no edge. -/
theorem Inside.between {tms tdi : Bool} {j : Nat} {s x : State} (i : Inside tms tdi j s x) :
    Inside tms tdi (j + 1) s (sampleOutputs (commitPins (advance x))) := by
  refine ⟨?_, i.clock.after rfl rfl, i.h, i.pins, i.state, i.irSr, i.drSr, i.kept.trans (Kept.of_edge (EdgeKept.refl _))⟩
  show x.g.tick + x.g.mainHalf = _
  rw [i.tick, i.kept.mainHalf]
  ring

/-- What the falling edge of a cycle leaves of the DTM. -/
theorem dtmFall_of_negedge {tms tdi : Bool} {s u : State} (e : negedgeStep (fallState tms tdi s) = .next u) : DtmFall s u := by
  refine ⟨fun x => ?_, fun x => ⟨driveTdo (fallState tms tdi s), u, ?_, ?_, ?_, ?_, ?_, DtmSame.refl u⟩⟩
  · have hd := negedgeStep_dtm (s := fallState tms tdi s) (u := u) x e
    exact ⟨hd.1, hd.2.1, hd.2.2.1, hd.2.2.2.1, hd.2.2.2.2⟩
  · exact ⟨by simp [fallState], by simp [fallState], by simp [fallState], by simp [fallState], by simp⟩
  · simp [fallState]
  · simp [fallState]
  · simp [fallState]
  · unfold negedgeStep at e
    rw [show (fallState tms tdi s).t.state = .updDR from x] at e
    exact e

/-- The loop of a cycle after its first advance, where the simulation ends before the rising edge. -/
theorem untilPosedge_rest_ends {s : State} (h : LinkUp s) (hn : NotEnding 0 s) (ha : UpdateAllowed s.t)
    (ho : OverAt (s.g.tick + 3 * s.g.mainHalf) s) (tms tdi : Bool) (n : Nat) :
    ∃ e, untilPosedge (n + 3) none (sampleOutputs (commitPins (advance (drive tms tdi s)))) = .ended e ∧
      CycleEnded tms tdi s e := by
  have hm := h.main_pos
  have hT : s.g.tckHalf = 2 * s.g.mainHalf := h.tckHalf_eq
  have hpast := h.past
  have n0 : ¬ OverAt s.g.tick s := by simpa using hn.not_overAt
  have hp : phase s % 4 = 2 := h.toClockOk.risen_iff.mp h.risen
  have i1 := inside_first h.toClockOk tms tdi
  have same1 : DtmSame s (sampleOutputs (commitPins (advance (drive tms tdi s)))) := ⟨rfl, rfl, rfl, rfl, rfl⟩
  by_cases o1 : OverAt (s.g.tick + 1 * s.g.mainHalf) s
  · have d1 : allDone (sampleOutputs (commitPins (advance (drive tms tdi s)))) = true :=
      allDone_of_overAt (by
        show OverAt (s.g.tick + s.g.mainHalf) s
        rwa [Nat.one_mul] at o1)
    refine ⟨_, untilPosedge_ended d1, i1.ended h d1 ⟨by omega, by omega⟩ o1 (by simpa using n0) (DtmFrame.of_same same1), rfl, rfl,
      rfl, fun _ => ⟨same1, rfl⟩, fun x => ?_⟩
    have := i1.tick
    omega
  obtain ⟨u, e, k, hi⟩ := negedgeStep_next (s := fallState tms tdi s) ha
  have fall := dtmFall_of_negedge e
  have fall2 : DtmFall s (sampleOutputs u) :=
    ⟨fun x => ⟨(fall.quiet x).1, (fall.quiet x).2, (fall.quiet x).3, (fall.quiet x).4, (fall.quiet x).5⟩, fun x => by
      obtain ⟨y, w, a1, a2, a3, a4, a5, a6⟩ := fall.word x
      exact ⟨y, w, a1, a2, a3, a4, a5, ⟨a6.1, a6.2, a6.3, a6.4, a6.5⟩⟩⟩
  have fall3 : DtmFall s (sampleOutputs (commitPins (advance (sampleOutputs u)))) :=
    ⟨fun x => ⟨(fall.quiet x).1, (fall.quiet x).2, (fall.quiet x).3, (fall.quiet x).4, (fall.quiet x).5⟩, fun x => by
      obtain ⟨y, w, a1, a2, a3, a4, a5, a6⟩ := fall.word x
      exact ⟨y, w, a1, a2, a3, a4, a5, ⟨a6.1, a6.2, a6.3, a6.4, a6.5⟩⟩⟩
  have i2 : Inside tms tdi 2 s (sampleOutputs u) := Inside.fall h.toClockOk k
  have i3 := i2.between
  have t1 := i1.tick
  have t2 := i2.tick
  have t3 := i3.tick
  have live1 : ∀ b, s.g.tick + 1 * s.g.mainHalf ≤ b → ¬ OverAt b s →
      Live b (sampleOutputs (commitPins (advance (drive tms tdi s)))) := fun b hb o => by
    refine Live.of_not_overAt i1.clock (by rw [i1.kept.resetDur, t1]; omega) ?_ (by rw [t1]; exact hb) (mt i1.kept.overAt.mp o)
    refine sampleOutputs_finished hn.unfinished fun j hj => ?_
    exact Nat.lt_of_not_le fun x => o1 (.inr ⟨j, hj, by rw [Nat.one_mul]; exact x⟩)
  have p1 : phase (sampleOutputs (commitPins (advance (drive tms tdi s)))) % 4 = 3 := by
    have : phase (sampleOutputs (commitPins (advance (drive tms tdi s)))) = phase s + 1 := (h.toClockOk.drive tms tdi).advance_phase
    omega
  have fs : commitPins (advance (sampleOutputs (commitPins (advance (drive tms tdi s))))) = fallState tms tdi s := rfl
  rw [untilPosedge_fall (live1 _ (Nat.le_refl _) o1) p1, fs, e]
  simp only
  by_cases o2 : OverAt (s.g.tick + 2 * s.g.mainHalf) s
  · have d2 : allDone (sampleOutputs u) = true := allDone_of_overAt (by
      rw [show u.g.tick = _ from t2]; exact (i2.kept.overAt (u := sampleOutputs u)).mpr o2)
    exact ⟨_, untilPosedge_ended d2, i2.ended h d2 ⟨by omega, by omega⟩ o2 o1 (DtmFrame.of_fall fall2), by rw [i2.h]; rfl, i2.irSr,
      i2.drSr, fun x => by omega, fun _ => ⟨fall2, hi⟩⟩
  · have l2 : Live (s.g.tick + 2 * s.g.mainHalf) (sampleOutputs u) := by
      refine Live.of_not_overAt i2.clock (by rw [i2.kept.resetDur, t2]; omega) ?_ (by rw [t2]) (mt i2.kept.overAt.mp o2)
      exact ((live1 _ (by omega) o2).after (by
        show s.g.tick + s.g.mainHalf + s.g.mainHalf ≤ _
        omega) k.toEdgeKept).unfinished
    have p2 : phase (sampleOutputs u) % 4 = 0 := by
      have : phase (sampleOutputs u) = phase (sampleOutputs (commitPins (advance (drive tms tdi s)))) + 1 := by
        rw [phase_sampleOutputs, phase_of_g k.g, ← fs, phase_commitPins, i1.clock.advance_phase]
      omega
    have d3 : allDone (sampleOutputs (commitPins (advance (sampleOutputs u)))) = true := allDone_of_overAt (by
      rw [show (commitPins (advance (sampleOutputs u))).g.tick = _ from t3]
      exact (i3.kept.overAt (u := sampleOutputs (commitPins (advance (sampleOutputs u))))).mpr ho)
    rw [untilPosedge_between l2 (by omega)]
    exact ⟨_, untilPosedge_ended d3, i3.ended h d3 ⟨by omega, by omega⟩ ho o2 (DtmFrame.of_fall fall3), by rw [i3.h]; rfl, i3.irSr,
      i3.drSr, fun x => by omega, fun _ => ⟨fall3, hi⟩⟩

/-- The first advance of a cycle of a link that is up. -/
theorem untilPosedge_first {s : State} (h : LinkUp s) (hn : NotEnding 0 s) (tms tdi : Bool) (n : Nat) :
    untilPosedge (n + 1) none (drive tms tdi s) =
      untilPosedge n none (sampleOutputs (commitPins (advance (drive tms tdi s)))) := by
  have hp : phase s % 4 = 2 := h.toClockOk.risen_iff.mp h.risen
  have l : Live s.g.tick (drive tms tdi s) := Live.drive (Live.of_not_overAt h.toClockOk h.past hn.unfinished (Nat.le_refl _)
    (by simpa using hn.not_overAt)) tms tdi
  refine untilPosedge_between l ?_
  have : phase (drive tms tdi s) = phase s := rfl
  omega

/-- A TCK cycle inside which the simulation ends (R157, R189). -/
theorem cycle_ends {s : State} (h : LinkUp s) (hn : NotEnding 0 s) (ha : UpdateAllowed s.t)
    (ho : OverAt (s.g.tick + 3 * s.g.mainHalf) s) (tms tdi : Bool) :
    ∃ e, cycle tms tdi s = .ended e ∧ CycleEnded tms tdi s e := by
  have hm := h.main_pos
  have hT : s.g.tckHalf = 2 * s.g.mainHalf := h.tckHalf_eq
  obtain ⟨e, he, c⟩ := untilPosedge_rest_ends h hn ha ho tms tdi (2 * s.g.tckHalf - 3)
  refine ⟨e, ?_, c⟩
  have bound : edgeBound s = (2 * s.g.tckHalf - 3) + 3 + 1 := by unfold edgeBound; omega
  unfold cycle
  rw [bound, untilPosedge_first h hn, he]

/-- A later `Tap.reset` inside which the simulation ends (R159, R202). -/
theorem tapReset_ends {s : State} (h : LinkUp s) (hn : NotEnding 0 s) (ha : UpdateAllowed s.t)
    (ho : OverAt (s.g.tick + 3 * s.g.mainHalf) s) :
    ∃ e, tapReset s = .next (setRet (.flag false) e) ∧ CycleEnded false false s e := by
  have hm := h.main_pos
  have hT : s.g.tckHalf = 2 * s.g.mainHalf := h.tckHalf_eq
  have hp : phase s % 4 = 2 := h.toClockOk.risen_iff.mp h.risen
  obtain ⟨e, he, c⟩ := untilPosedge_rest_ends h hn ha ho false false (2 * s.g.tckHalf - 2)
  refine ⟨e, ?_, c⟩
  have l : Live s.g.tick (drive false false s) := Live.drive (Live.of_not_overAt h.toClockOk h.past hn.unfinished (Nat.le_refl _)
    (by simpa using hn.not_overAt)) false false
  have first : untilOutOfReset (s.g.resetDur + 1) (drive false false s) =
      .done () (sampleOutputs (commitPins (advance (drive false false s)))) := by
    have hrst : inReset (sampleOutputs (commitPins (advance (drive false false s)))) = false := by
      unfold inReset
      have : (sampleOutputs (commitPins (advance (drive false false s)))).g.rstN = true := by
        rw [(inside_first h.toClockOk false false).clock.rstN_eq]
        exact rstNLevel_true (by
          have := h.past
          show s.g.resetDur ≤ s.g.tick + s.g.mainHalf
          omega)
      rw [this]; rfl
    have hp' : phase (drive false false s) = phase s := rfl
    rw [untilOutOfReset, l.notDone, advanceEval_between l.toClockOk l.past (by omega)]
    simp only [Bool.false_eq_true, if_false, hrst]
  have bound : edgeBound (sampleOutputs (commitPins (advance (drive false false s)))) = (2 * s.g.tckHalf - 2) + 3 := by
    show 2 * s.g.tckHalf + 1 = _; omega
  unfold tapReset
  rw [first]
  simp only
  rw [bound, he]

/-! ### A path -/

/-- What a path did that ran to its end, with no rising edge left over (R157). -/
structure Walked (ps : List PinPair) (s e : State) : Prop where
  up : LinkUp e
  kept : Kept s e
  state : e.t.state = endState s.t.state ps
  tick : e.g.tick = s.g.tick + ps.length * (2 * s.g.tckHalf)
  frame : DtmFrame s e
  going : NotEnding 0 e ∨ allDone e = true ∧ OverAt e.g.tick s
  notBefore : ps ≠ [] → ¬ OverAt (e.g.tick - s.g.mainHalf) s

/-- After a whole cycle the simulation goes on, or it is over and that cycle's last advance has seen it. -/
theorem CycleRun.going {tms tdi : Bool} {s u v : State} (r : CycleRun tms tdi s u v) (hl : Live (s.g.tick + 3 * s.g.mainHalf) s) :
    NotEnding 0 (cycleEnd tms v) ∨ allDone (cycleEnd tms v) = true ∧ OverAt (cycleEnd tms v).g.tick s := by
  have ht := r.tick
  have hk := r.kept
  by_cases o : OverAt (s.g.tick + 4 * s.g.mainHalf) s
  · right
    refine ⟨?_, ht ▸ o⟩
    have : allDone (sampleOutputs v) = true := allDone_of_overAt (by
      have hg : v.g.tick = s.g.tick + 4 * s.g.mainHalf := ht
      rw [hg]
      exact (OverAt.congr (u := v) hk.maxTime hk.finishAt).mpr o)
    exact this
  · left
    refine NotEnding.of_not_overAt ?_ (by rw [ht]; exact mt hk.overAt.mp o)
    have hfin : ∀ k ∈ s.t.finishAt, s.g.tick + 4 * s.g.mainHalf < k := fun k hk => Nat.lt_of_not_le fun x => o (.inr ⟨k, hk, x⟩)
    have l0 : Live (s.g.tick + 4 * s.g.mainHalf) (drive tms tdi s) :=
      Live.drive (Live.of_not_overAt hl.toClockOk hl.past hl.unfinished (Nat.le_add_right _ _) o) tms tdi
    have l1 := l0.after (u := commitPins (advance (drive tms tdi s)))
      (by show s.g.tick + s.g.mainHalf ≤ _; omega) (EdgeKept.refl _)
    have l2 := l1.after (by show s.g.tick + s.g.mainHalf + s.g.mainHalf ≤ _; omega) r.fallKept.toEdgeKept
    have g2 : u.g.tick = s.g.tick + s.g.mainHalf + s.g.mainHalf := by rw [r.fallKept.g]; rfl
    have m2 : u.g.mainHalf = s.g.mainHalf := by rw [r.fallKept.g]; rfl
    have l3 := l2.after (u := commitPins (advance (sampleOutputs u)))
      (by show u.g.tick + u.g.mainHalf ≤ _; omega) (EdgeKept.refl _)
    have l4 := l3.after (by show u.g.tick + u.g.mainHalf + u.g.mainHalf ≤ _; omega) r.riseKept.toEdgeKept
    exact l4.unfinished

/-- One cycle of a link that is up: the simulation ends inside it, or it completes. -/
theorem cycle_walk {s : State} (h : LinkUp s) (hn : NotEnding 0 s) (ha : UpdateAllowed s.t) (tms tdi : Bool) :
    (∃ e, cycle tms tdi s = .ended e ∧ CycleEnded tms tdi s e) ∨
    (∃ b e, cycle tms tdi s = .done b e ∧ Walked [(tms, tdi)] s e ∧ e.h.lastIr = s.h.lastIr) := by
  have hm := h.main_pos
  have hT : s.g.tckHalf = 2 * s.g.mainHalf := h.tckHalf_eq
  by_cases o : OverAt (s.g.tick + 3 * s.g.mainHalf) s
  · exact .inl (cycle_ends h hn ha o tms tdi)
  · have hl : Live (s.g.tick + 3 * s.g.mainHalf) s :=
      Live.of_not_overAt h.toClockOk h.past hn.unfinished (Nat.le_add_right _ _) o
    obtain ⟨u, v, r, hc⟩ := cycle_done h hl ha tms tdi
    have ht := r.tick
    refine .inr ⟨_, _, hc, ⟨r.linkUp h, r.kept, r.state, ?_, (r.effect h).frame, r.going hl, fun _ => ?_⟩, r.lastIr⟩
    · rw [ht, hT, List.length_singleton]; ring
    · rw [ht, show s.g.tick + 4 * s.g.mainHalf - s.g.mainHalf = s.g.tick + 3 * s.g.mainHalf by omega]
      exact o

theorem visits_cons (x : TapState) (p : PinPair) (ps : List PinPair) : visits x (p :: ps) = x :: visits (nextTap x p.1) ps := rfl

theorem head_mem_visits (x : TapState) {ps : List PinPair} (h : ps ≠ []) : x ∈ visits x ps := by
  cases ps with
  | nil => exact absurd rfl h
  | cons p ps => exact List.mem_cons_self

/-- A path that runs on from the end of another. -/
theorem Walked.append {ps qs : List PinPair} {s u e : State} (a : Walked ps s u) (b : Walked qs u e) (hq : qs ≠ [])
    (hu : u.t.state ≠ .updDR) : Walked (ps ++ qs) s e where
  up := b.up
  kept := a.kept.trans b.kept
  state := by rw [b.state, a.state, endState_append]
  tick := by rw [b.tick, a.tick, a.kept.tckHalf, List.length_append]; ring
  frame := a.frame.trans b.frame hu
  going := b.going.imp_right fun x => ⟨x.1, a.kept.overAt.mp x.2⟩
  notBefore := fun _ => by rw [← a.kept.mainHalf]; exact mt a.kept.overAt.mpr (b.notBefore hq)

/-- The simulation ends in a path that runs on from the end of another. -/
theorem Walked.ended {ps qs : List PinPair} {k : Nat} {s u e : State} (a : Walked ps s u) (b : EndedInside qs k u e)
    (hu : u.t.state ≠ .updDR) : EndedInside (ps ++ qs) (ps.length + k) s e where
  done := b.done
  overAt := a.kept.overAt.mp b.overAt
  notBefore := by rw [← a.kept.mainHalf]; exact mt a.kept.overAt.mpr b.notBefore
  tickLo := by
    have := b.tickLo
    rw [a.tick, a.kept.tckHalf] at this
    rw [Nat.add_mul]; omega
  tickHi := by
    have := b.tickHi
    rw [a.tick, a.kept.tckHalf] at this
    rw [Nat.add_assoc, Nat.add_mul]; omega
  clock := b.clock
  state := by
    rw [b.state, a.state, ← endState_append, List.take_append, List.take_of_length_le (l := ps) (by omega),
      show ps.length + k - ps.length = k by omega]
  mirrored := b.mirrored
  pins := by
    obtain ⟨p, h, x⟩ := b.pins
    exact ⟨p, by rw [List.getElem?_append_right (by omega), show ps.length + k - ps.length = k by omega]; exact h, x⟩
  kept := a.kept.trans b.kept
  frame := a.frame.trans b.frame hu

/-- A path that would run on from where the simulation is over: only the next pin pair is driven. -/
theorem Walked.ended_drive {ps qs : List PinPair} {p : PinPair} {s u : State} (a : Walked ps s u) (hp : ps ≠ [])
    (hd : allDone u = true) (ho : OverAt u.g.tick s) : EndedInside (ps ++ p :: qs) ps.length s (drive p.1 p.2 u) where
  done := hd
  overAt := ho
  notBefore := a.notBefore hp
  tickLo := by show _ ≤ u.g.tick; rw [a.tick]
  tickHi := by
    have h1 := a.up.tckHalf_eq
    have h2 := a.up.main_pos
    rw [a.kept.tckHalf, Config.tckHalfMult] at h1
    show u.g.tick < _
    rw [a.tick, Nat.add_mul]; omega
  clock := a.up.toClockOk.drive _ _
  state := by
    show u.t.state = _
    rw [a.state, List.take_append, List.take_of_length_le (l := ps) (by omega), Nat.sub_self, List.take_zero, List.append_nil]
  mirrored := a.up.mirrored
  pins := ⟨p, by rw [List.getElem?_append_right (by omega), Nat.sub_self]; rfl, rfl, rfl, rfl, rfl⟩
  kept := a.kept.trans ⟨rfl, rfl, rfl, rfl, rfl, rfl, rfl, rfl, rfl, rfl, rfl, rfl, rfl⟩
  frame := ⟨fun q => (a.frame.quiet q).trans ⟨rfl, rfl, rfl, rfl, rfl⟩, a.frame.sentNothing⟩

theorem EndedInside.lt {ps : List PinPair} {k : Nat} {s e : State} (h : EndedInside ps k s e) : k < ps.length := by
  obtain ⟨p, x, _⟩ := h.pins
  exact (List.getElem?_eq_some_iff.mp x).1

/-- The pin pairs after the one the simulation ends in do not matter. -/
theorem EndedInside.append {ps : List PinPair} {k : Nat} {s e : State} (h : EndedInside ps k s e) (qs : List PinPair) :
    EndedInside (ps ++ qs) k s e := by
  have hk := h.lt
  refine ⟨h.done, h.overAt, h.notBefore, h.tickLo, h.tickHi, h.clock, ?_, h.mirrored, ?_, h.kept, h.frame⟩
  · rw [List.take_append_of_le_length (by omega)]; exact h.state
  · rw [List.getElem?_append_left hk]; exact h.pins

/-- A path no cycle of which, after the first, is spent in Update-DR: the simulation ends in it, or it runs to its end. -/
theorem runPins_walk (ps : List PinPair) (s : State) (h : LinkUp s) (hn : NotEnding 0 s) (ha : UpdateAllowed s.t)
    (hv : ∀ y ∈ (visits s.t.state ps).tail, y ≠ .updDR) :
    (∃ k e, runPins ps s = .ended e ∧ EndedInside ps k s e ∧ e.h.lastIr = s.h.lastIr) ∨
    (∃ bs e, runPins ps s = .done bs e ∧ Walked ps s e ∧ e.h.lastIr = s.h.lastIr) := by
  induction ps generalizing s with
  | nil =>
    exact .inr ⟨[], s, rfl, ⟨h, Kept.refl s, rfl, by simp, DtmFrame.of_same (DtmSame.refl s), .inl hn, fun x => absurd rfl x⟩, rfl⟩
  | cons p ps ih =>
    rcases cycle_walk h hn ha p.1 p.2 with ⟨e, x, c⟩ | ⟨b, u, x, w, hl⟩
    · exact .inl ⟨0, e, by simp only [runPins, x], c.toEndedInside.append ps, c.lastIr⟩
    · have hs : u.t.state = nextTap s.t.state p.1 := w.state
      rw [visits_cons, List.tail_cons, ← hs] at hv
      by_cases hp : ps = []
      · subst hp
        exact .inr ⟨[b], u, by simp only [runPins, x], w, hl⟩
      · have hu : u.t.state ≠ .updDR := hv _ (head_mem_visits _ hp)
        rcases w.going with hg | ⟨hd, ho⟩
        · rcases ih u w.up hg (fun z => hu z.1) (fun y hy => hv y (List.mem_of_mem_tail hy)) with ⟨k, e, x', c, l⟩ | ⟨bs, e, x', c, l⟩
          · exact .inl ⟨1 + k, e, by simp only [runPins, x, x'], w.ended c hu, l.trans hl⟩
          · exact .inr ⟨b :: bs, e, by simp only [runPins, x, x'], w.append c hp hu, l.trans hl⟩
        · obtain ⟨q, qs, rfl⟩ := List.exists_cons_of_ne_nil hp
          exact .inl ⟨1, drive q.1 q.2 u, by rw [runPins, x]; simp only [runPins_ended hd], w.ended_drive (by simp) hd ho, hl⟩

/-! ### The access -/

theorem visits_irPins {x : TapState} (code : IrCode) (h : startState x = true) :
    (∀ y ∈ (visits x (irPins code)).tail, y ≠ .updDR) ∧ endState x (irPins code) = .updIR := by
  unfold irPins
  rw [shiftPins_ir]
  rcases startState_cases h with e | e | e <;> rw [e] <;> refine ⟨?_, rfl⟩ <;> simp [visits, nextTap]

theorem visits_dwellPins {x : TapState} (n : Nat) (h : startState x = true) :
    (∀ y ∈ (visits x (dwellPins n)).tail, y ≠ .updDR) ∧ endState x (dwellPins n) = .rti := by
  unfold dwellPins
  rw [Nat.add_comm, List.replicate_succ]
  have hr : nextTap x false = .rti := by rcases startState_cases h with e | e | e <;> rw [e] <;> rfl
  refine ⟨?_, ?_⟩
  · rw [visits_cons, List.tail_cons, hr, visits_dwell]
    intro y hy
    rw [List.eq_of_mem_replicate hy]; simp
  · rw [endState, hr, endState_dwell]

theorem visits_drPins {x : TapState} (wdata : ScanWord) {len : Nat} (hl : 1 ≤ len) (h : x = .rti ∨ x = .updIR) :
    ∀ y ∈ visits x (drPins wdata len), y ≠ .updDR := by
  obtain ⟨b, w, hw⟩ := List.exists_cons_of_ne_nil (l := natBits len wdata.toNat) (by
    intro z
    have := natBits_length len wdata.toNat
    rw [z] at this
    simp at this
    omega)
  unfold drPins
  rw [visits_append, visits_append, hw]
  have e1 : endState x [(true, false), (false, false), (false, false)] = .shDR := by rcases h with e | e <;> rw [e] <;> rfl
  have e2 : endState x ([(true, false), (false, false), (false, false)] ++ shiftPins (b :: w)) = .ex1DR := by
    rw [endState_append, e1, endState_shiftPins_dr]
  rw [e1, e2, visits_shiftPins_dr]
  intro y hy
  simp only [List.mem_append] at hy
  rcases hy with (hy | hy) | hy
  · rcases h with e | e <;> rw [e] at hy <;> simp [visits, nextTap] at hy <;> rcases hy with rfl | rfl | rfl <;> simp
  · rw [List.eq_of_mem_replicate hy]; simp
  · simp [visits] at hy; rw [hy]; simp

theorem accessPins_length (code : IrCode) (wdata : ScanWord) (len : Nat) (s : State) :
    (accessPins code wdata len s).length = accessCycles code len s := by
  unfold accessPins accessCycles
  split
  · rw [irPins, shiftPins_ir]; simp [drPins]
  · simp [dwellPins, drPins]; omega

theorem Walked.noteIr {ps : List PinPair} {s u : State} (code : IrCode) (a : Walked ps s u) : Walked ps s (noteIr code u) :=
  ⟨a.up.congr rfl rfl rfl, a.kept.trans ⟨rfl, rfl, rfl, rfl, rfl, rfl, rfl, rfl, rfl, rfl, rfl, rfl, rfl⟩, a.state, a.tick,
    ⟨fun q => (a.frame.quiet q).trans ⟨rfl, rfl, rfl, rfl, rfl⟩, a.frame.sentNothing⟩,
    a.going.imp (fun x => x.congr rfl rfl) id, a.notBefore⟩

/-- The IR path or the dwell path (R161, R162): the simulation ends in it, or it leads to where the DR path begins. -/
theorem irOrDwell_walk {code : IrCode} {s : State} (h : LinkUp s) (hn : NotEnding 0 s) (ha : UpdateAllowed s.t)
    (hs : startState s.t.state = true) :
    let ps := if code ≠ s.h.lastIr then irPins code else dwellPins s.h.idleCycles
    (∃ k e, irOrDwell code s = .ended e ∧ EndedInside ps k s e ∧ e.h.lastIr = s.h.lastIr) ∨
    (∃ u, irOrDwell code s = .done () u ∧ Walked ps s u ∧ u.h.lastIr = code ∧ (u.t.state = .rti ∨ u.t.state = .updIR)) := by
  unfold irOrDwell
  by_cases hc : code ≠ s.h.lastIr
  · obtain ⟨v, es⟩ := visits_irPins code hs
    simp only [if_pos hc]
    rcases runPins_walk _ s h hn ha v with ⟨k, e, x, c, l⟩ | ⟨bs, u, x, w, l⟩
    · exact .inl ⟨k, e, by rw [x], c, l⟩
    · exact .inr ⟨noteIr code u, by rw [x], w.noteIr code, rfl, .inr (w.state.trans es)⟩
  · obtain ⟨v, es⟩ := visits_dwellPins s.h.idleCycles hs
    simp only [if_neg hc]
    rcases runPins_walk _ s h hn ha v with ⟨k, e, x, c, l⟩ | ⟨bs, u, x, w, l⟩
    · exact .inl ⟨k, e, by rw [x], c, l⟩
    · exact .inr ⟨u, by rw [x], w, l.trans (not_not.mp hc).symm, .inl (w.state.trans es)⟩

/-- An access inside which the simulation ends (R178, R189). -/
theorem accessReg_ends_inside {code : IrCode} {wdata : ScanWord} {len : Nat} {s : State} (h : LinkUp s) (hn : NotEnding 0 s)
    (hs : startState s.h.state = true) (ha : UpdateAllowed s.t) (h1 : 1 ≤ len) (h2 : len ≤ 64)
    (ho : OverAt (s.g.tick + accessCycles code len s * (2 * s.g.tckHalf) - s.g.mainHalf) s) :
    ∃ k e, accessReg code wdata len s = .next (setRet .simEnded e) ∧ EndedInside (accessPins code wdata len s) k s e ∧
      e.h.lastIr = if code ≠ s.h.lastIr ∧ 10 ≤ k then code else s.h.lastIr := by
  have hs' : startState s.t.state = true := h.mirrored ▸ hs
  have key : ∀ e, accessScan code wdata len s = .ended e → accessReg code wdata len s = .next (setRet .simEnded e) := fun e x => by
    unfold accessReg
    rw [if_neg (by simp [Config.maxScanLen]; omega), if_neg (by omega), hs, x]
    rfl
  have hlen : code ≠ s.h.lastIr → (if code ≠ s.h.lastIr then irPins code else dwellPins s.h.idleCycles).length = 10 := fun hc => by
    rw [if_pos hc, irPins, shiftPins_ir]; rfl
  unfold accessPins
  rcases irOrDwell_walk (code := code) h hn ha hs' with ⟨k, e, x, c, l⟩ | ⟨u, x, w, l, st⟩
  · refine ⟨k, e, key e (by unfold accessScan; rw [x]), c.append _, ?_⟩
    rw [l, if_neg]
    rintro ⟨hc, hk⟩
    have := c.lt
    rw [hlen hc] at this
    omega
  · have hu : u.t.state ≠ .updDR := by rcases st with z | z <;> rw [z] <;> simp
    have lastIr : ∀ j, u.h.lastIr = if code ≠ s.h.lastIr ∧
        10 ≤ (if code ≠ s.h.lastIr then irPins code else dwellPins s.h.idleCycles).length + j then code else s.h.lastIr := fun j => by
      by_cases hc : code ≠ s.h.lastIr
      · rw [hlen hc, if_pos ⟨hc, by omega⟩, l]
      · rw [if_neg (fun z => hc z.1), l]; exact not_not.mp hc
    rcases w.going with hg | ⟨hd, hov⟩
    · rcases runPins_walk (drPins wdata len) u w.up hg (fun z => hu z.1)
        (fun y hy => visits_drPins wdata h1 st y (List.mem_of_mem_tail hy)) with ⟨k, e, x', c, l'⟩ | ⟨bs, e, x', c, l'⟩
      · exact ⟨_, e, key e (by unfold accessScan; rw [x]; simp only [x']), w.ended c hu, by rw [l', lastIr k]⟩
      · exfalso
        have full := w.append c (by simp [drPins]) hu
        have ht : e.g.tick = s.g.tick + accessCycles code len s * (2 * s.g.tckHalf) := by
          rw [← accessPins_length code wdata len s]
          exact full.tick
        exact full.notBefore (by simp [drPins]) (ht ▸ ho)
    · have hd' : drPins wdata len = (true, false) :: ([(false, false), (false, false)] ++ shiftPins (natBits len wdata.toNat) ++
        [(true, false)]) := rfl
      refine ⟨_, drive true false u, key _ (by unfold accessScan; rw [x, hd']; simp only [runPins_ended hd]), ?_, lastIr 0⟩
      rw [hd']
      refine w.ended_drive ?_ hd hov
      intro z
      by_cases hc : code ≠ s.h.lastIr
      · rw [if_pos hc] at z; simp [irPins] at z
      · rw [if_neg hc] at z; simp [dwellPins] at z

end Sys2Proof.Machine
end

