-- ==== Sys2Proof/Laws/Window.lean ====
section
/-! SUPPORT. Laws/Window.lean: the reset window and the first rising edge after it (R108, R123, R159, R198). -/

namespace Sys2Proof.Machine

/-- The device as reset holds it (R49, R108). -/
structure Held (t : Device) : Prop where
  state : t.state = .tlr
  ir : t.ir = 0x01#5
  status : t.status = .ok
  inflight : t.inflight = none
  fresh : t.fresh = true

/-- The device right after the first rising edge it takes (R119, R159). -/
structure Released (t : Device) : Prop where
  state : t.state = .rti
  ir : t.ir = 0x01#5
  status : t.status = .ok
  inflight : t.inflight = none
  fresh : t.fresh = false

/-- G is consistent and the simulation does not end while the tick is at most `b`. -/
structure Timed (b : Nat) (s : State) : Prop extends ClockOk s where
  inTime : s.g.tick ≤ b
  unfinished : s.g.finished = false
  cap : s.g.maxTime = 0 ∨ b < s.g.maxTime
  fin : ∀ k ∈ s.t.finishAt, b < k

theorem Timed.notDone {b : Nat} {s : State} (h : Timed b s) : allDone s = false :=
  allDone_false h.unfinished (h.cap.imp_right fun x => Nat.lt_of_le_of_lt h.inTime x)

theorem Timed.drive {b : Nat} {s : State} (h : Timed b s) (tms tdi : Bool) : Timed b (drive tms tdi s) :=
  ⟨h.toClockOk.drive tms tdi, h.inTime, h.unfinished, h.cap, h.fin⟩

theorem Timed.after {b : Nat} {s u : State} (h : Timed b s) (hb : s.g.tick + s.g.mainHalf ≤ b)
    (k : EdgeKept (commitPins (advance s)) u) : Timed b (sampleOutputs u) := by
  have hg : u.g = (advance s).g := k.g
  have hf : u.t.finishAt = s.t.finishAt := k.finishAt
  refine ⟨h.toClockOk.after hg k.pins, ?_, ?_, ?_, ?_⟩
  · simpa [hg] using hb
  · refine sampleOutputs_finished (by rw [hg]; exact h.unfinished) fun j hj => ?_
    rw [hf] at hj
    rw [hg]
    exact Nat.lt_of_le_of_lt hb (h.fin j hj)
  · simpa [hg] using h.cap
  · simpa [hf] using h.fin

theorem Timed.of_not_overAt {b : Nat} {s : State} (h : ClockOk s) (hf : s.g.finished = false) (hb : s.g.tick ≤ b)
    (ho : ¬ OverAt b s) : Timed b s := by
  refine ⟨h, hb, hf, ?_, fun k hk => Nat.lt_of_not_le fun x => ho (.inr ⟨k, hk, x⟩)⟩
  by_cases hm : s.g.maxTime = 0
  · exact .inl hm
  · exact .inr (Nat.lt_of_not_le fun x => ho (.inl ⟨hm, x⟩))

/-- What `j` advances with their `eval`s do to everything but the device and the draws (R91-R93). -/
structure Steps (j : Nat) (s s' : State) : Prop where
  clock : ClockOk s'
  phase : phase s' = phase s + j
  h : s'.h = s.h
  m : s'.m = s.m
  kept : Kept s s'
  tms : s'.g.tms = s.g.tms
  tdi : s'.g.tdi = s.g.tdi
  tick : s'.g.tick = s.g.tick + j * s.g.mainHalf
  timed : ∀ b, Timed b s → s.g.tick + j * s.g.mainHalf ≤ b → Timed b s'
  seesEnd : OverAt s'.g.tick s → allDone s' = true

theorem Steps.trans {i j : Nat} {s u v : State} (a : Steps i s u) (b : Steps j u v) : Steps (i + j) s v where
  clock := b.clock
  phase := by rw [b.phase, a.phase, Nat.add_assoc]
  h := b.h.trans a.h
  m := b.m.trans a.m
  kept := a.kept.trans b.kept
  tms := b.tms.trans a.tms
  tdi := b.tdi.trans a.tdi
  tick := by rw [b.tick, a.tick, a.kept.mainHalf]; ring
  timed := fun c hc hb => by
    have e : (i + j) * s.g.mainHalf = i * s.g.mainHalf + j * s.g.mainHalf := by ring
    exact b.timed c (a.timed c hc (by omega)) (by rw [a.tick, a.kept.mainHalf]; omega)
  seesEnd := fun o => b.seesEnd (a.kept.overAt.mpr o)

theorem Steps.cast {i j : Nat} {s u : State} (a : Steps i s u) (e : i = j) : Steps j s u := e ▸ a

/-- One advance, by the device step it ends in. -/
theorem Steps.one {s u : State} (h : ClockOk s) (k : EdgeKept (commitPins (advance s)) u) (hm : u.m = s.m) :
    Steps 1 s (sampleOutputs u) := by
  have hg : u.g = (advance s).g := k.g
  refine ⟨h.after hg k.pins, ?_, k.h, hm, Kept.of_edge k, ?_, ?_, ?_, fun b t hb => t.after (by omega) k, fun o => ?_⟩
  · rw [phase_sampleOutputs, phase_of_g hg, h.advance_phase]
  · simp [hg]
  · simp [hg]
  · simp [hg]
  · exact allDone_of_overAt ((OverAt.congr (u := u) (by rw [hg]; rfl) k.finishAt).mpr o)

theorem deviceReset_kept (s : State) : EdgeKept s (deviceReset s) := ⟨rfl, rfl, rfl, rfl, rfl⟩

theorem deviceReset_held (s : State) : Held (deviceReset s).t := ⟨rfl, rfl, rfl, rfl, rfl⟩

theorem driveTdo_held {s : State} (h : Held s.t) : Held (driveTdo s).t :=
  ⟨by simpa using h.state, by simpa using h.ir, by simpa using h.status, by simpa using h.inflight, by simpa using h.fresh⟩

/-- What the device sees of an advance: its levels before and after. -/
theorem ClockOk.device_levels {s : State} (h : ClockOk s) :
    (advance s).t.pins.tck = (phase s / 2 % 2 == 1) ∧ (commitPins (advance s)).t.pins.tck = ((phase s + 1) / 2 % 2 == 1) :=
  ⟨(h.seen.trans h.tck_phase : s.t.pins.tck = _), h.advance_level⟩

/-- An advance of a held device that is no rising edge leaves it held. -/
theorem held_advance {s : State} (h : ClockOk s) (hd : Held s.t) (hp : (phase s + 1) % 4 ≠ 2) :
    ∃ s', advanceEval s = .next s' ∧ Steps 1 s s' ∧ Held s'.t ∧ tapPosedge s' = false := by
  have hq : (advance s).g.posedge = false := by rw [Bool.eq_false_iff, ne_eq, h.advance_posedge_iff]; omega
  have finish : ∀ u, EdgeKept (commitPins (advance s)) u → Held u.t → u.m = s.m →
      deviceStep (advance s).t.pins.tck (commitPins (advance s)) = .next u →
      ∃ s', advanceEval s = .next s' ∧ Steps 1 s s' ∧ Held s'.t ∧ tapPosedge s' = false := by
    intro u k hu hm e
    refine ⟨sampleOutputs u, eval_next e, Steps.one h k hm, hu, ?_⟩
    show u.g.posedge = false
    rw [k.g]
    exact hq
  obtain ⟨l1, l2⟩ := h.device_levels
  have hr : rose (advance s).t.pins.tck (commitPins (advance s)).t.pins.tck = false := by
    rw [l1, l2]; simp only [rose]
    cases x : (phase s / 2 % 2 == 1) <;> cases y : ((phase s + 1) / 2 % 2 == 1) <;> simp at x y ⊢
    omega
  by_cases hrst : (commitPins (advance s)).g.rstN = true
  · by_cases hf : fell (advance s).t.pins.tck (commitPins (advance s)).t.pins.tck = true
    · refine finish (driveTdo (commitPins (advance s))) (driveTdo_kept _).toEdgeKept (driveTdo_held ⟨hd.state, hd.ir, hd.status, hd.inflight, hd.fresh⟩) (by simp) ?_
      rw [deviceStep_high _ hrst, hf, if_pos rfl]
      unfold negedgeStep
      rw [show (commitPins (advance s)).t.state = .tlr from hd.state]
    · refine finish (commitPins (advance s)) (EdgeKept.refl _) ⟨hd.state, hd.ir, hd.status, hd.inflight, hd.fresh⟩ rfl ?_
      rw [deviceStep_high _ hrst, if_neg hf, hr]
      rfl
  · refine finish (deviceReset (commitPins (advance s))) (deviceReset_kept _) (deviceReset_held _) rfl ?_
    unfold deviceStep resetStep
    rw [Bool.not_eq_true] at hrst
    rw [hrst, hr]
    rfl

/-- The rising edge of a held device with TMS low (R108, R119): held on while `rst_n` is low, released by the first one after. -/
theorem held_rise {s : State} (h : ClockOk s) (hd : Held s.t) (hp : (phase s + 1) % 4 = 2) (ht : s.g.tms = false) :
    ∃ s', advanceEval s = .next s' ∧ Steps 1 s s' ∧ (s'.g.tick < s.g.resetDur → Held s'.t) ∧
      (s.g.resetDur ≤ s'.g.tick → Released s'.t) ∧ tapPosedge s' = true := by
  have hq : (advance s).g.posedge = true := by rw [h.advance_posedge_iff]; omega
  have finish : ∀ u, EdgeKept (commitPins (advance s)) u → ((advance s).g.tick < s.g.resetDur → Held u.t) →
      (s.g.resetDur ≤ (advance s).g.tick → Released u.t) → u.m = s.m →
      deviceStep (advance s).t.pins.tck (commitPins (advance s)) = .next u →
      ∃ s', advanceEval s = .next s' ∧ Steps 1 s s' ∧ (s'.g.tick < s.g.resetDur → Held s'.t) ∧
        (s.g.resetDur ≤ s'.g.tick → Released s'.t) ∧ tapPosedge s' = true := by
    intro u k h1 h2 hm e
    have hg : u.g = (advance s).g := k.g
    refine ⟨sampleOutputs u, eval_next e, Steps.one h k hm, ?_, ?_, ?_⟩
    · rw [sampleOutputs_tick, hg]; exact h1
    · rw [sampleOutputs_tick, hg]; exact h2
    · show u.g.posedge = true
      rw [hg, hq]
  obtain ⟨l1, l2⟩ := h.device_levels
  have hf : fell (advance s).t.pins.tck (commitPins (advance s)).t.pins.tck = false := by
    rw [l1, l2]; simp only [fell]
    cases x : (phase s / 2 % 2 == 1) <;> cases y : ((phase s + 1) / 2 % 2 == 1) <;> simp at x y ⊢
    omega
  have hr : rose (advance s).t.pins.tck (commitPins (advance s)).t.pins.tck = true := by
    rw [l1, l2]; simp only [rose]
    cases x : (phase s / 2 % 2 == 1) <;> cases y : ((phase s + 1) / 2 % 2 == 1) <;> simp at x y ⊢ <;> omega
  have ht' : (commitPins (advance s)).t.pins.tms = false := ht
  by_cases hrst : s.g.resetDur ≤ (advance s).g.tick
  · have hrst' : (commitPins (advance s)).g.rstN = true := rstNLevel_true hrst
    obtain ⟨v, e, k⟩ : ∃ v, posedgeStep (commitPins (advance s)) = .next v ∧ RiseKept (commitPins (advance s)) v := by
      rcases posedgeStep_cases (commitPins (advance s)) with ⟨_, x, _⟩ | ⟨_, v, e, k⟩
      · rw [ht'] at x; cases x
      · exact ⟨v, e, k⟩
    have es : (commitPins (advance s)).t.state = .tlr := hd.state
    have hact : posedgeAction (commitPins (advance s)).t = { (commitPins (advance s)).t with ir := 0x01#5 } := by
      unfold posedgeAction; split <;> simp_all
    have hv : v.t.status = .ok ∧ v.t.inflight = none ∧ v.m = s.m := by
      unfold posedgeStep at e
      rw [ht', hact] at e
      simp only [Bool.and_false, Bool.false_eq_true, if_false] at e
      rw [tickInflight_none (show ({ commitPins (advance s) with t := { (commitPins (advance s)).t with ir := 0x01#5 } } :
        State).t.inflight = none from hd.inflight)] at e
      cases e
      exact ⟨hd.status, hd.inflight, rfl⟩
    refine finish v k.toEdgeKept (fun x => by omega) (fun _ => ⟨?_, ?_, hv.1, hv.2.1, k.fresh⟩) hv.2.2 ?_
    · rw [k.state, es, ht']; rfl
    · rw [k.ir, hact]
    · rw [deviceStep_high _ hrst', hf, hr, if_neg (by simp), if_pos rfl, e]
  · have hlow : (commitPins (advance s)).g.rstN = false := by
      show rstNLevel _ _ = false
      unfold rstNLevel
      simp only [Bool.not_eq_false', decide_eq_true_eq]
      simpa using hrst
    refine finish (deviceReset (commitPins (advance s))) (deviceReset_kept _) (fun _ => deviceReset_held _) (fun x => absurd x hrst)
      rfl ?_
    unfold deviceStep resetStep
    rw [hlow, hr, ht']
    rfl

/-- The rising edge of a held device with TMS high is refused (R123). -/
theorem held_rise_refused {s : State} (h : ClockOk s) (hd : Held s.t) (hp : (phase s + 1) % 4 = 2) (ht : s.g.tms = true) :
    advanceEval s = .refused .resetWindowTms := by
  apply eval_refused
  obtain ⟨l1, l2⟩ := h.device_levels
  have hf : fell (advance s).t.pins.tck (commitPins (advance s)).t.pins.tck = false := by
    rw [l1, l2]; simp only [fell]
    cases x : (phase s / 2 % 2 == 1) <;> cases y : ((phase s + 1) / 2 % 2 == 1) <;> simp at x y ⊢
    omega
  have hr : rose (advance s).t.pins.tck (commitPins (advance s)).t.pins.tck = true := by
    rw [l1, l2]; simp only [rose]
    cases x : (phase s / 2 % 2 == 1) <;> cases y : ((phase s + 1) / 2 % 2 == 1) <;> simp at x y ⊢ <;> omega
  have ht' : (commitPins (advance s)).t.pins.tms = true := ht
  have hfr : (commitPins (advance s)).t.fresh = true := hd.fresh
  cases hrst : (commitPins (advance s)).g.rstN
  · unfold deviceStep resetStep
    rw [hrst, hr, ht']
    rfl
  · rw [deviceStep_high _ hrst, hf, hr, if_neg (by simp), if_pos rfl]
    unfold posedgeStep
    rw [hfr, ht']
    rfl

/-! ### The loops -/

/-- From a held device to its next rising edge, `j` advances away, with TMS low (R157, R159). -/
theorem untilPosedge_held (j : Nat) (n : Nat) (tdo : Option Bool) (b : Nat) (s : State) (h : Timed b s)
    (hb : s.g.tick + j * s.g.mainHalf ≤ b) (hd : Held s.t) (hj : 1 ≤ j) (hj4 : j ≤ 4) (hp : (phase s + j) % 4 = 2) (hn : j ≤ n)
    (ht : s.g.tms = false) :
    ∃ x s', untilPosedge n tdo s = .done x s' ∧ Steps j s s' ∧ (s'.g.tick < s.g.resetDur → Held s'.t) ∧
      (s.g.resetDur ≤ s'.g.tick → Released s'.t) := by
  induction j generalizing n tdo s with
  | zero => omega
  | succ j ih =>
    obtain ⟨n, rfl⟩ : ∃ k, n = k + 1 := ⟨n - 1, by omega⟩
    have e : (j + 1) * s.g.mainHalf = j * s.g.mainHalf + s.g.mainHalf := by ring
    by_cases hz : j = 0
    · subst hz
      obtain ⟨s', e', st, h1, h2, pe⟩ := held_rise h.toClockOk hd hp ht
      refine ⟨if tapNegedge s' then some s'.g.tdo else tdo, s', ?_, st, h1, h2⟩
      rw [untilPosedge, h.notDone, e']
      simp only [Bool.false_eq_true, if_false, pe, if_true]
    · obtain ⟨s1, e1, st, hd1, pe⟩ := held_advance h.toClockOk hd (by omega)
      have tk := st.tick
      have ph := st.phase
      obtain ⟨x, s', e', st', h1, h2⟩ := ih n (if tapNegedge s1 then some s1.g.tdo else tdo) s1 (st.timed b h (by omega))
        (by rw [tk, st.kept.mainHalf]; omega) hd1 (by omega) (by omega) (by omega) (by omega) (st.tms.trans ht)
      refine ⟨x, s', ?_, (st.trans st').cast (by omega), st.kept.resetDur ▸ h1, st.kept.resetDur ▸ h2⟩
      rw [untilPosedge, h.notDone, e1]
      simp only [Bool.false_eq_true, if_false, pe]
      exact e'

/-- From a held device to its next rising edge with TMS high: refused there (R123). -/
theorem untilPosedge_refused (j : Nat) (n : Nat) (tdo : Option Bool) (b : Nat) (s : State) (h : Timed b s)
    (hb : s.g.tick + j * s.g.mainHalf ≤ b) (hd : Held s.t) (hj : 1 ≤ j) (hj4 : j ≤ 4) (hp : (phase s + j) % 4 = 2) (hn : j ≤ n)
    (ht : s.g.tms = true) : untilPosedge n tdo s = .refused .resetWindowTms := by
  induction j generalizing n tdo s with
  | zero => omega
  | succ j ih =>
    obtain ⟨n, rfl⟩ : ∃ k, n = k + 1 := ⟨n - 1, by omega⟩
    have e : (j + 1) * s.g.mainHalf = j * s.g.mainHalf + s.g.mainHalf := by ring
    by_cases hz : j = 0
    · subst hz
      rw [untilPosedge, h.notDone, held_rise_refused h.toClockOk hd hp ht]
      rfl
    · obtain ⟨s1, e1, st, hd1, pe⟩ := held_advance h.toClockOk hd (by omega)
      have tk := st.tick
      have ph := st.phase
      have := ih n (if tapNegedge s1 then some s1.g.tdo else tdo) s1 (st.timed b h (by omega))
        (by rw [tk, st.kept.mainHalf]; omega) hd1 (by omega) (by omega) (by omega) (by omega) (st.tms.trans ht)
      rw [untilPosedge, h.notDone, e1]
      simp only [Bool.false_eq_true, if_false, pe]
      exact this

/-- One advance of a held device inside the window, or to its end, with TMS low. -/
theorem held_window {s : State} (h : ClockOk s) (hd : Held s.t) (hp : phase s < 20) (ht : s.g.tms = false) :
    ∃ s', advanceEval s = .next s' ∧ Steps 1 s s' ∧ Held s'.t ∧ inReset s' = decide (phase s' < 20) := by
  have hm := h.main_pos
  have hdur : s.g.resetDur = 20 * s.g.mainHalf := by
    rw [h.resetDur_eq, h.tckHalf_eq, Config.resetTckHalves, Config.tckHalfMult]; ring
  have hin : ∀ s', Steps 1 s s' → inReset s' = decide (phase s' < 20) := fun s' st => by
    unfold inReset
    rw [st.clock.rstN_eq, rstNLevel, Bool.not_not, st.clock.tick_eq, st.kept.resetDur, hdur, st.kept.mainHalf]
    congr 1
    exact propext ⟨fun x => Nat.lt_of_mul_lt_mul_right x, fun x => Nat.mul_lt_mul_of_pos_right x hm⟩
  by_cases hq : (phase s + 1) % 4 = 2
  · obtain ⟨s', e', st, h1, _, _⟩ := held_rise h hd hq ht
    refine ⟨s', e', st, h1 ?_, hin s' st⟩
    rw [st.clock.tick_eq, st.phase, st.kept.mainHalf, hdur]
    exact Nat.mul_lt_mul_of_pos_right (by omega) hm
  · obtain ⟨s', e', st, h1, _⟩ := held_advance h hd hq
    exact ⟨s', e', st, h1, hin s' st⟩

/-- Through the reset window with TMS low, `j + 1` advances from its end (R159). -/
theorem untilOutOfReset_held (j : Nat) (n : Nat) (b : Nat) (s : State) (h : Timed b s) (hb : s.g.tick + j * s.g.mainHalf ≤ b)
    (hd : Held s.t) (hp : phase s + (j + 1) = 20) (hn : j < n) (ht : s.g.tms = false) :
    ∃ s', untilOutOfReset n s = .done () s' ∧ Steps (j + 1) s s' ∧ Held s'.t := by
  induction j generalizing n s with
  | zero =>
    obtain ⟨n, rfl⟩ : ∃ k, n = k + 1 := ⟨n - 1, by omega⟩
    obtain ⟨s1, e1, st, hd1, hin⟩ := held_window h.toClockOk hd (by omega) ht
    refine ⟨s1, ?_, st, hd1⟩
    have ph := st.phase
    rw [untilOutOfReset, h.notDone, e1]
    simp only [Bool.false_eq_true, if_false, hin, decide_eq_true_eq]
    rw [if_neg (by omega)]
  | succ j ih =>
    obtain ⟨n, rfl⟩ : ∃ k, n = k + 1 := ⟨n - 1, by omega⟩
    have e : (j + 1) * s.g.mainHalf = j * s.g.mainHalf + s.g.mainHalf := by ring
    obtain ⟨s1, e1, st, hd1, hin⟩ := held_window h.toClockOk hd (by omega) ht
    have ph := st.phase
    obtain ⟨s', e', st', h1⟩ := ih n s1 (st.timed b h (by omega)) (by rw [st.tick, st.kept.mainHalf]; omega) hd1 (by omega)
      (by omega) (st.tms.trans ht)
    refine ⟨s', ?_, (st.trans st').cast (by omega), h1⟩
    rw [untilOutOfReset, h.notDone, e1]
    simp only [Bool.false_eq_true, if_false, hin, decide_eq_true_eq]
    rw [if_pos (by omega)]
    exact e'

/-- The simulation ends inside the reset window, `j + 1` advances on (R159). -/
theorem untilOutOfReset_ends (j : Nat) (n : Nat) (b : Nat) (s : State) (h : Timed b s) (hb : s.g.tick + j * s.g.mainHalf ≤ b)
    (hd : Held s.t) (hp : phase s + (j + 1) < 20) (hn : j + 1 < n) (ht : s.g.tms = false)
    (ho : OverAt (s.g.tick + (j + 1) * s.g.mainHalf) s) :
    ∃ s', untilOutOfReset n s = .ended s' ∧ Steps (j + 1) s s' ∧ Held s'.t := by
  induction j generalizing n s with
  | zero =>
    obtain ⟨n, rfl⟩ : ∃ k, n = k + 2 := ⟨n - 2, by omega⟩
    obtain ⟨s1, e1, st, hd1, hin⟩ := held_window h.toClockOk hd (by omega) ht
    refine ⟨s1, ?_, st, hd1⟩
    have ph := st.phase
    rw [untilOutOfReset, h.notDone, e1]
    simp only [Bool.false_eq_true, if_false, hin, decide_eq_true_eq]
    rw [if_pos (by omega), untilOutOfReset, if_pos (st.seesEnd (st.tick ▸ ho))]
  | succ j ih =>
    obtain ⟨n, rfl⟩ : ∃ k, n = k + 1 := ⟨n - 1, by omega⟩
    have e : (j + 1) * s.g.mainHalf = j * s.g.mainHalf + s.g.mainHalf := by ring
    have e' : (j + 1 + 1) * s.g.mainHalf = (j + 1) * s.g.mainHalf + s.g.mainHalf := by ring
    obtain ⟨s1, e1, st, hd1, hin⟩ := held_window h.toClockOk hd (by omega) ht
    have ph := st.phase
    obtain ⟨s', e', st', h1⟩ := ih n s1 (st.timed b h (by omega)) (by rw [st.tick, st.kept.mainHalf]; omega) hd1 (by omega)
      (by omega) (st.tms.trans ht) (by
        refine (st.kept.overAt.mpr ho).mono ?_
        rw [st.tick, st.kept.mainHalf]; omega)
    refine ⟨s', ?_, (st.trans st').cast (by omega), h1⟩
    rw [untilOutOfReset, h.notDone, e1]
    simp only [Bool.false_eq_true, if_false, hin, decide_eq_true_eq]
    rw [if_pos (by omega)]
    exact e'

/-- `Tap.reset` of a held device at tick 0, where the simulation ends before the first rising edge after the window: after the
first of its 22 advances at which it is over, it returns false (R159, R183). -/
theorem tapReset_ends_window {s : State} (h : ClockOk s) (hd : Held s.t) (h0 : s.g.tick = 0) (hf : s.g.finished = false)
    (hn : ¬ OverAt 0 s) (ho : OverAt (21 * s.g.mainHalf) s) :
    ∃ j e, tapReset s = .next (setRet (.flag false) e) ∧ j < 21 ∧ OverAt ((j + 1) * s.g.mainHalf) s ∧
      ¬ OverAt (j * s.g.mainHalf) s ∧ Steps (j + 1) (drive false false s) e ∧ Held e.t := by
  have hm := h.main_pos
  have hT : s.g.tckHalf = 2 * s.g.mainHalf := h.tckHalf_eq
  have hdur : s.g.resetDur = 20 * s.g.mainHalf := by
    rw [h.resetDur_eq, h.tckHalf_eq, Config.resetTckHalves, Config.tckHalfMult]; ring
  obtain ⟨j, hj, o1, o2⟩ : ∃ j, j < 21 ∧ OverAt ((j + 1) * s.g.mainHalf) s ∧ ¬ OverAt (j * s.g.mainHalf) s := by
    by_contra hx
    have : ∀ j, j ≤ 21 → ¬ OverAt (j * s.g.mainHalf) s := fun j => by
      induction j with
      | zero => intro _; simpa using hn
      | succ j ih => exact fun hj o => hx ⟨j, by omega, o, ih (by omega)⟩
    exact this 21 (by omega) ho
  have p0 : phase (drive false false s) = 0 := by
    show s.g.tick / s.g.mainHalf = 0
    rw [h0, Nat.zero_div]
  have t0 : (drive false false s).g.tick = 0 := h0
  have t : ∀ b, ¬ OverAt b s → Timed b (drive false false s) := fun b o =>
    (Timed.of_not_overAt h hf (by omega) o).drive false false
  have hd' : Held (drive false false s).t := hd
  have jm : ∀ i, i * (drive false false s).g.mainHalf = i * s.g.mainHalf := fun _ => rfl
  refine ⟨j, ?_⟩
  by_cases j1 : j + 1 < 20
  · obtain ⟨e, x, st, he⟩ := untilOutOfReset_ends j (s.g.resetDur + 1) _ _ (t _ o2) (by rw [t0, jm]; omega) hd' (by omega)
      (by omega) rfl (by rw [t0, jm, Nat.zero_add]; exact o1)
    exact ⟨e, by unfold tapReset; rw [x], hj, o1, o2, st, he⟩
  · have o19 : ¬ OverAt (19 * s.g.mainHalf) s := fun z => o2 (z.mono (Nat.mul_le_mul_right _ (by omega)))
    obtain ⟨u, x, st, hu⟩ := untilOutOfReset_held 19 (s.g.resetDur + 1) _ _ (t _ o19) (by rw [t0, jm]; omega) hd' (by omega)
      (by omega) rfl
    have bound : edgeBound u = (2 * s.g.tckHalf - 1) + 1 + 1 := by
      show 2 * u.g.tckHalf + 1 = _
      rw [show u.g.tckHalf = s.g.tckHalf from st.kept.tckHalf]; omega
    have ut : u.g.tick = 20 * s.g.mainHalf := by rw [st.tick, t0, jm, Nat.zero_add]
    by_cases j2 : j = 19
    · subst j2
      have dn : allDone u = true := st.seesEnd (by rw [ut]; exact o1)
      exact ⟨u, by unfold tapReset; rw [x]; simp only [bound, untilPosedge_ended dn], hj, o1, o2, st, hu⟩
    · obtain rfl : j = 20 := by omega
      have pu := st.phase
      have nd := (st.timed _ (t _ o2) (by rw [t0, jm]; omega)).notDone
      obtain ⟨e, y, st1, he, pe⟩ := held_advance st.clock hu (by omega)
      have dn : allDone e = true := st1.seesEnd ((st.kept.overAt).mpr (by
        rw [st1.tick, ut, st.kept.mainHalf]
        exact o1.mono (by rw [jm]; omega)))
      refine ⟨e, ?_, hj, o1, o2, st.trans st1, he⟩
      unfold tapReset
      rw [x]
      simp only [bound]
      rw [untilPosedge, nd, y]
      simp only [Bool.false_eq_true, if_false, pe, untilPosedge_ended dn]

/-! ### Where the window is entered -/

/-- Construction leaves G consistent for this hardware's clock ratios (R24, R47). -/
theorem initial_clockOk {p : Params} (hv : Params.valid p = true) (h1 : p.tckHalfMult = Config.tckHalfMult)
    (h2 : p.resetTckHalves = Config.resetTckHalves) : ClockOk (State.initial p) := by
  have hm : 1 ≤ p.mainHalf := by
    unfold Params.valid at hv
    simp only [Bool.and_eq_true] at hv
    exact of_decide_eq_true hv.1.1.1.1.1.2
  have hR : 0 < p.resetDur := by
    unfold Params.resetDur Params.tckHalf
    rw [h1, h2, Config.tckHalfMult, Config.resetTckHalves]
    omega
  refine ⟨hm, ?_, ?_, Nat.zero_mod _, ?_, ?_, ?_, rfl, rfl⟩
  · show p.tckHalf = _
    unfold Params.tckHalf
    rw [h1]; rfl
  · show p.resetDur = _
    unfold Params.resetDur
    rw [h2]; rfl
  · show false = clockLevel 0 p.mainHalf
    simp [clockLevel]
  · show false = clockLevel 0 p.tckHalf
    simp [clockLevel]
  · show false = rstNLevel 0 p.resetDur
    simp [rstNLevel, hR]

/-- Where the device still waits for its first rising edge, it is held, and G stands at the start or right after a rising edge. -/
theorem Inv.fresh {s : State} (h : Inv s) (hf : s.t.fresh = true) (hn : NotEnding 1 s) :
    Held s.t ∧ Timed (s.g.tick + 4 * s.g.mainHalf) s ∧
      ((s.g.tick = 0 ∧ phase s = 0) ∨ (s.g.tick ≠ 0 ∧ phase s % 4 = 2)) := by
  have hT : s.g.tckHalf = 2 * s.g.mainHalf := h.clock.tckHalf_eq
  have hm := h.clock.main_pos
  obtain ⟨h1, h2, h3, h4, h5⟩ := h.freshHeld hf
  have t : Timed (s.g.tick + 4 * s.g.mainHalf) s := ⟨h.clock, Nat.le_add_right _ _, hn.unfinished,
    hn.capFar.imp_right fun x => by omega, fun k hk => by have := hn.finishFar k hk; omega⟩
  refine ⟨⟨h1, h2, h3, h4, hf⟩, t, ?_⟩
  rcases h.aligned with x | x | x
  · exact .inl ⟨x, by unfold phase; rw [x]; simp⟩
  · refine .inr ⟨fun z => ?_, h.clock.risen_iff.mp x⟩
    rw [z] at x
    simp at x
    omega
  · rw [t.notDone] at x
    cases x

end Sys2Proof.Machine
end

