-- ==== Sys2Proof/Laws/Invariant.lean ====
section
/-! SUPPORT. Laws/Invariant.lean: every operation keeps the invariant of the machine (R24, R27, R40, R42, R49, R120): one
advance, one `eval`, the loops, the cycle, the paths, the access, `Tap.reset`. -/

namespace Sys2Proof.Machine

/-! ### The device's step -/

/-- Whatever the device's step of an `eval` does, it keeps G, H, the committed pins and the read-only contents. -/
theorem deviceStep_kept {prev : Bool} {s u : State} (h : deviceStep prev s = .next u) : EdgeKept s u := by
  unfold deviceStep at h
  split at h
  · unfold resetStep at h
    split at h
    · cases h
    · cases h; exact deviceReset_kept s
  · split at h
    · rcases negedgeStep_cases s with e | ⟨u', e, k, _⟩
      · rw [e] at h; cases h
      · rw [e] at h; cases h; exact k.toEdgeKept
    · split at h
      · rcases posedgeStep_cases s with ⟨_, _, e⟩ | ⟨_, u', e, k⟩
        · rw [e] at h; cases h
        · rw [e] at h; cases h; exact k.toEdgeKept
      · cases h; exact EdgeKept.refl s

/-- An `eval` that goes on: the device's step, then the outputs sampled (R93). -/
theorem eval_next_inv {s s' : State} (h : eval s = .next s') :
    ∃ u, deviceStep s.t.pins.tck (commitPins s) = .next u ∧ s' = sampleOutputs u := by
  unfold eval at h
  split at h
  · rename_i u e; cases h; exact ⟨u, e, rfl⟩
  · cases h
  · cases h

theorem bitsVal_take_lt (b : Bits) (n : Nat) : bitsVal (b.take n) < 2 ^ n :=
  lt_of_lt_of_le (bitsVal_lt (b.take n)) (Nat.pow_le_pow_right (by omega) (by simp))

/-- The response address keeps its width over a request (R40, R77). -/
theorem dmiRequestUpdate_addr {r : DmiRequest} {s : State} (hr : r.addr < 2 ^ s.t.par.abits)
    (h : s.t.respAddr < 2 ^ s.t.par.abits) : (dmiRequestUpdate r s).t.respAddr < 2 ^ s.t.par.abits := by
  unfold dmiRequestUpdate
  split
  · exact h
  · split
    · simpa using h
    · exact hr

theorem updateDr_addr {s v : State} (e : updateDr s = .next v) (h : s.t.respAddr < 2 ^ s.t.par.abits) :
    v.t.respAddr < 2 ^ s.t.par.abits := by
  unfold updateDr at e
  split at e
  · unfold updateDmi at e
    split at e
    · cases e; simpa using h
    · cases e; exact dmiRequestUpdate_addr (bitsVal_take_lt _ _) h
    · cases e; exact dmiRequestUpdate_addr (bitsVal_take_lt _ _) h
    · cases e
  · split at e
    · unfold updateDtmcs at e
      split at e
      · cases e; exact h
      · split at e
        · cases e; exact h
        · cases e; exact h
    · cases e; exact h

theorem negedgeStep_addr {s v : State} (e : negedgeStep s = .next v) (h : s.t.respAddr < 2 ^ s.t.par.abits) :
    v.t.respAddr < 2 ^ s.t.par.abits := by
  by_cases hs : s.t.state = .updDR
  · unfold negedgeStep at e
    rw [hs] at e
    have := updateDr_addr e (by simpa using h)
    simpa using this
  · rw [(negedgeStep_dtm hs e).2.2.1]; exact h

/-! ### The invariant inside an operation -/

/-- What holds of G and the device at every advance, inside an operation too. -/
structure Mid (s : State) : Prop where
  clock : ClockOk s
  edges : ¬ (s.g.posedge = true ∧ s.g.negedge = true)
  driven : s.h.tmsDrv = s.g.tms ∧ s.h.tdiDrv = s.g.tdi
  resetHeld : s.g.rstN = false → s.t.fresh = true
  held : s.t.fresh = true → Held s.t
  drWidth : DrWidth s.t
  addrWidth : s.t.respAddr < 2 ^ s.t.par.abits

/-- H's record of the TAP state agrees with the device's (R27); before the device's first rising edge it may be one ahead. -/
def Agree (s : State) : Prop :=
  (s.t.fresh = true → s.h.state = .tlr ∨ s.h.state = .rti) ∧ (s.t.fresh = false → s.h.state = s.t.state)

/-- Right after a rising edge, before H's record moves: it is about to agree (R158). -/
def AgreeNext (tms : Bool) (s : State) : Prop :=
  (s.t.fresh = true → tms = false ∧ (s.h.state = .tlr ∨ s.h.state = .rti)) ∧
  (s.t.fresh = false → nextTap s.h.state tms = s.t.state)

/-- Between operations G stands at the start or right after a rising edge, unless the simulation is over. -/
def Aligned (s : State) : Prop := s.g.tick = 0 ∨ s.g.tick % (2 * s.g.tckHalf) = s.g.tckHalf ∨ allDone s = true

theorem Inv.mid {s : State} (h : Inv s) : Mid s ∧ Agree s ∧ Aligned s :=
  ⟨⟨h.clock, h.edges, h.driven, h.resetHeld,
      fun f => by obtain ⟨a, b, c, d, _⟩ := h.freshHeld f; exact ⟨a, b, c, d, f⟩, h.drWidth, h.addrWidth⟩,
    ⟨fun f => (h.freshHeld f).2.2.2.2, h.mirror⟩, h.aligned⟩

theorem Mid.inv {s : State} (m : Mid s) (a : Agree s) (h : Aligned s) : Inv s :=
  ⟨m.clock, h, m.edges, m.driven, m.resetHeld,
    fun f => have x := m.held f; ⟨x.state, x.ir, x.status, x.inflight, a.1 f⟩, a.2, m.drWidth, m.addrWidth⟩

/-- The invariant is about G, the device, H's record of the TAP state and the pins H recorded. -/
theorem Inv.congr {s s' : State} (h : Inv s) (hg : s'.g = s.g) (ht : s'.t = s.t) (h1 : s'.h.state = s.h.state)
    (h2 : s'.h.tmsDrv = s.h.tmsDrv) (h3 : s'.h.tdiDrv = s.h.tdiDrv) : Inv s' := by
  obtain ⟨g, hh, t, m, f⟩ := s
  obtain ⟨g', hh', t', m', f'⟩ := s'
  simp only at hg ht h1 h2 h3
  subst hg ht
  obtain ⟨a, b, c, d, e, i, j, k, l⟩ := h
  refine ⟨⟨a.main_pos, a.tckHalf_eq, a.resetDur_eq, a.tick_whole, a.clk_eq, a.tck_eq, a.rstN_eq, a.lastTck_eq, a.seen⟩, b, c,
    ⟨h2.trans d.1, h3.trans d.2⟩, e, fun z => ?_, fun z => h1.trans (j z), k, l⟩
  rw [h1]
  exact i z

theorem Inv.setRet {s : State} (h : Inv s) (r : Ret) : Inv (setRet r s) := h.congr rfl rfl rfl rfl rfl

/-- The clock fields and the device of a state are the clock fields and the device of another. -/
theorem Mid.congr {s s' : State} (m : Mid s) (hc : ClockOk s') (hp : s'.g.posedge = s.g.posedge)
    (hn : s'.g.negedge = s.g.negedge) (hr : s'.g.rstN = s.g.rstN) (ht : s'.t = s.t)
    (hd : s'.h.tmsDrv = s'.g.tms ∧ s'.h.tdiDrv = s'.g.tdi) : Mid s' :=
  ⟨hc, by rw [hp, hn]; exact m.edges, hd, by rw [hr, ht]; exact m.resetHeld, by rw [ht]; exact m.held,
    by rw [ht]; exact m.drWidth, by rw [ht]; exact m.addrWidth⟩

theorem Mid.drive {s : State} (m : Mid s) (a b : Bool) : Mid (drive a b s) :=
  m.congr (m.clock.drive a b) rfl rfl rfl rfl ⟨rfl, rfl⟩

theorem Inv.drive {s : State} (h : Inv s) (a b : Bool) : Inv (drive a b s) := (h.mid.1.drive a b).inv h.mid.2.1 h.aligned

theorem Inv.setTms {s : State} (h : Inv s) (b : Bool) : Inv (setTms b s) :=
  have c := h.clock
  Mid.inv (h.mid.1.congr ⟨c.main_pos, c.tckHalf_eq, c.resetDur_eq, c.tick_whole, c.clk_eq, c.tck_eq, c.rstN_eq, c.lastTck_eq,
    c.seen⟩ rfl rfl rfl rfl ⟨rfl, h.driven.2⟩) h.mid.2.1 h.aligned

theorem Inv.setTdi {s : State} (h : Inv s) (b : Bool) : Inv (setTdi b s) :=
  have c := h.clock
  Mid.inv (h.mid.1.congr ⟨c.main_pos, c.tckHalf_eq, c.resetDur_eq, c.tick_whole, c.clk_eq, c.tck_eq, c.rstN_eq, c.lastTck_eq,
    c.seen⟩ rfl rfl rfl rfl ⟨h.driven.1, rfl⟩) h.mid.2.1 h.aligned

/-! ### One advance -/

/-- What an advance with its `eval` leaves, where it goes on. -/
structure Advanced (s s' : State) : Prop where
  mid : Mid s'
  h : s'.h = s.h
  tms : s'.g.tms = s.g.tms
  rstN : s'.g.rstN = (advance s).g.rstN
  phase : phase s' = phase s + 1
  kept : Kept s s'
  noRise : s'.g.posedge = false → Agree s → Agree s'
  rise : s'.g.posedge = true → Agree s → AgreeNext s.g.tms s'
  risen : s'.g.posedge = true → s'.g.tick % (2 * s'.g.tckHalf) = s'.g.tckHalf

/-- The device's step of an advance keeps the invariant if it keeps the device's part of it. -/
theorem advanced_of_step {s u : State} (m : Mid s) (k : EdgeKept (commitPins (advance s)) u)
    (hf : (advance s).g.rstN = false → u.t.fresh = true) (hh : u.t.fresh = true → Held u.t) (hw : DrWidth u.t)
    (ha : u.t.respAddr < 2 ^ u.t.par.abits) (h0 : (advance s).g.posedge = false → Agree s → Agree u)
    (h1 : (advance s).g.posedge = true → Agree s → AgreeNext s.g.tms u) : Advanced s (sampleOutputs u) := by
  have c : ClockOk (sampleOutputs u) := m.clock.after k.g k.pins
  have hg : u.g = (advance s).g := k.g
  have uh : u.h = s.h := k.h
  have ep : (sampleOutputs u).g.posedge = (advance s).g.posedge := by rw [← hg]; rfl
  have en : (sampleOutputs u).g.negedge = (advance s).g.negedge := by rw [← hg]; rfl
  have excl : ¬ ((advance s).g.posedge = true ∧ (advance s).g.negedge = true) := by
    show ¬ (rose s.g.lastTck (advance s).g.tck = true ∧ fell s.g.lastTck (advance s).g.tck = true)
    cases s.g.lastTck <;> cases (advance s).g.tck <;> simp [rose, fell]
  refine ⟨⟨c, by rw [ep, en]; exact excl, ?_, fun z => hf (by rw [← hg]; exact z), hh, hw, ha⟩, uh, ?_, ?_, ?_, Kept.of_edge k,
    fun z => h0 (ep.symm.trans z), fun z => h1 (ep.symm.trans z), fun z => ?_⟩
  · show u.h.tmsDrv = u.g.tms ∧ u.h.tdiDrv = u.g.tdi
    rw [uh, hg]; exact m.driven
  · show u.g.tms = _
    rw [hg]; rfl
  · show u.g.rstN = _
    rw [hg]
  · rw [phase_sampleOutputs, phase_of_g hg, m.clock.advance_phase]
  · rw [c.risen_iff, phase_sampleOutputs, phase_of_g hg, m.clock.advance_phase]
    exact m.clock.advance_posedge_iff.mp (ep.symm.trans z)

/-- Reset does not come back: `rst_n` is low after an advance only if it was before (R91). -/
theorem ClockOk.rstN_low {s : State} (c : ClockOk s) (h : (advance s).g.rstN = false) : s.g.rstN = false := by
  rw [c.rstN_eq]
  have : rstNLevel (s.g.tick + s.g.mainHalf) s.g.resetDur = false := h
  unfold rstNLevel at this ⊢
  simp only [Bool.not_eq_false', decide_eq_true_eq] at this ⊢
  omega

/-- One advance with its `eval` (R91-R93, R108-R119). -/
theorem Mid.advance {s s' : State} (m : Mid s) (h : advanceEval s = .next s') : Advanced s s' := by
  obtain ⟨u, e, rfl⟩ := eval_next_inv h
  have k := deviceStep_kept e
  have hh : u.h = s.h := k.h
  have hpar : u.t.par = s.t.par := k.par
  have pe : rose (Machine.advance s).t.pins.tck (commitPins (Machine.advance s)).t.pins.tck = (Machine.advance s).g.posedge := by
    show rose s.t.pins.tck (Machine.advance s).g.tck = rose s.g.lastTck (Machine.advance s).g.tck
    rw [m.clock.seen, m.clock.lastTck_eq]
  have ne : fell (Machine.advance s).t.pins.tck (commitPins (Machine.advance s)).t.pins.tck = (Machine.advance s).g.negedge := by
    show fell s.t.pins.tck (Machine.advance s).g.tck = fell s.g.lastTck (Machine.advance s).g.tck
    rw [m.clock.seen, m.clock.lastTck_eq]
  have excl : (Machine.advance s).g.negedge = true → (Machine.advance s).g.posedge = false := by
    show fell s.g.lastTck (Machine.advance s).g.tck = true → rose s.g.lastTck (Machine.advance s).g.tck = false
    cases s.g.lastTck <;> cases (Machine.advance s).g.tck <;> simp [rose, fell]
  rcases (Bool.eq_false_or_eq_true (Machine.advance s).g.rstN).symm with hr | hr
  · -- the device is held in reset
    have hf := m.resetHeld (m.clock.rstN_low hr)
    unfold deviceStep at e
    rw [show (commitPins (Machine.advance s)).g.rstN = false from hr] at e
    simp only [Bool.not_false, if_true] at e
    unfold resetStep at e
    split at e
    · cases e
    · rename_i hz
      cases e
      refine advanced_of_step m k (fun _ => rfl) (fun _ => deviceReset_held _) (fun z => Bool.noConfusion z)
        (Nat.mod_lt _ (Nat.pow_pos (by omega))) (fun _ q => ⟨fun _ => q.1 hf, fun z => Bool.noConfusion z⟩)
        (fun z q => ⟨fun _ => ⟨?_, q.1 hf⟩, fun z => Bool.noConfusion z⟩)
      cases ht : s.g.tms
      · rfl
      · exact absurd (show (rose _ _ && s.g.tms) = true by rw [pe.trans z, ht]; rfl) hz
  · have high : ¬ (Machine.advance s).g.rstN = false := by rw [hr]; decide
    rw [deviceStep_high _ (show (commitPins (Machine.advance s)).g.rstN = true from hr), pe, ne] at e
    split at e
    · -- a falling edge
      rename_i hn
      have hp := excl hn
      rcases negedgeStep_cases (commitPins (Machine.advance s)) with x | ⟨u', x, fk, fi⟩
      · rw [x] at e; cases e
      · rw [x] at e; cases e
        have fst : u.t.state = s.t.state := fk.state
        have ff : u.t.fresh = s.t.fresh := fk.fresh
        have fir : u.t.ir = settledIr s.t := fi
        refine advanced_of_step m k (fun z => absurd z high) (fun z => ?_) ?_ ?_ (fun _ q => ?_)
          (fun z _ => absurd (hp.symm.trans z) (by decide))
        · have w := m.held (ff.symm.trans z)
          have hs : (commitPins (Machine.advance s)).t.state ≠ .updDR := by
            rw [show (commitPins (Machine.advance s)).t.state = s.t.state from rfl, w.state]; simp
          have q := negedgeStep_dtm hs x
          exact ⟨fst.trans w.state, by rw [fir, settledIr, w.state, if_neg (by simp)]; exact w.ir, q.1.trans w.status,
            q.2.1.trans w.inflight, z⟩
        · exact drWidth_of_eq fst fk.drSr hpar (fun y => fir.trans (settledIr_of_holdsDr y)) m.drWidth
        · rw [hpar]; exact negedgeStep_addr (s := commitPins (Machine.advance s)) x m.addrWidth
        · exact ⟨fun y => by rw [hh]; exact q.1 (ff.symm.trans y), fun y => by rw [hh, fst]; exact q.2 (ff.symm.trans y)⟩
    · split at e
      · -- a rising edge
        rename_i hn hp
        rcases posedgeStep_cases (commitPins (Machine.advance s)) with ⟨_, _, x⟩ | ⟨ok, u', x, rk⟩
        · rw [x] at e; cases e
        · rw [x] at e; cases e
          have fst : u.t.state = nextTap s.t.state s.g.tms := rk.state
          have ff : ¬ u.t.fresh = true := by rw [rk.fresh]; decide
          refine advanced_of_step m k (fun z => absurd z high) (fun z => absurd z ff) ?_ ?_
            (fun z _ => absurd (hp.symm.trans z) (by decide)) (fun _ q => ⟨fun z => absurd z ff, fun _ => ?_⟩)
          · exact drWidth_rise rk (drWidth_of_eq (t := s.t) rfl rfl rfl (fun _ => rfl) m.drWidth)
          · rw [hpar, rk.respAddr]; exact m.addrWidth
          · rw [hh, fst]
            cases hf : s.t.fresh
            · rw [q.2 hf]
            · have ht : s.g.tms = false := by
                rcases ok with y | y
                · exact absurd (hf.symm.trans y) (by decide)
                · exact y
              rw [ht, (m.held hf).state]
              rcases q.1 hf with y | y
              · rw [y]
              · rw [y]; rfl
      · -- no edge
        rename_i hp
        cases e
        exact advanced_of_step m k (fun z => absurd z high)
          (fun z => have w := m.held z; ⟨w.state, w.ir, w.status, w.inflight, w.fresh⟩) m.drWidth m.addrWidth
          (fun _ q => ⟨q.1, q.2⟩) (fun z _ => absurd z hp)

/-! ### The operations -/

/-- A part of an operation ends in states that meet the invariant. -/
structure RunInv {α : Type} (r : Run α) : Prop where
  done : ∀ x s', r = .done x s' → Inv s'
  ended : ∀ s', r = .ended s' → Inv s'

theorem RunInv.faulted {α : Type} (f : Fault) : RunInv (Run.faulted f : Run α) :=
  ⟨fun _ _ z => (nomatch z), fun _ z => (nomatch z)⟩

theorem RunInv.refused {α : Type} (f : Refusal) : RunInv (Run.refused f : Run α) :=
  ⟨fun _ _ z => (nomatch z), fun _ z => (nomatch z)⟩

theorem RunInv.ofEnded {α : Type} {s : State} (h : Inv s) : RunInv (Run.ended s : Run α) :=
  ⟨fun _ _ z => (nomatch z), fun _ z => by cases z; exact h⟩

theorem RunInv.ofDone {α : Type} {s : State} (x : α) (h : Inv s) : RunInv (Run.done x s) :=
  ⟨fun _ _ z => by cases z; exact h, fun _ z => (nomatch z)⟩

/-- The loop of a cycle (R157): it ends right after a rising edge, H's record about to follow, or with the simulation over. -/
theorem untilPosedge_inv (n : Nat) (tdo : Option Bool) (s : State) (m : Mid s) (a : Agree s) :
    (∀ x s', untilPosedge n tdo s = .done x s' → Mid s' ∧ AgreeNext s.g.tms s' ∧
      s'.g.tick % (2 * s'.g.tckHalf) = s'.g.tckHalf) ∧
    (∀ s', untilPosedge n tdo s = .ended s' → Inv s') := by
  induction n generalizing tdo s with
  | zero => exact ⟨fun _ _ z => (nomatch z), fun _ z => (nomatch z)⟩
  | succ n ih =>
    unfold untilPosedge
    by_cases hd : allDone s = true
    · rw [if_pos hd]
      exact ⟨fun _ _ z => (nomatch z), fun _ z => by cases z; exact m.inv a (.inr (.inr hd))⟩
    · rw [if_neg hd]
      cases e : advanceEval s with
      | fault r => exact ⟨fun _ _ z => (nomatch z), fun _ z => (nomatch z)⟩
      | refused r => exact ⟨fun _ _ z => (nomatch z), fun _ z => (nomatch z)⟩
      | next u =>
        have v := m.advance e
        cases hp : u.g.posedge
        · simp only [tapPosedge, hp, Bool.false_eq_true, if_false]
          obtain ⟨i1, i2⟩ := ih (if tapNegedge u = true then some u.g.tdo else tdo) u v.mid (v.noRise hp a)
          exact ⟨fun x s' h => v.tms ▸ i1 x s' h, i2⟩
        · simp only [tapPosedge, hp, if_true]
          exact ⟨fun x s' h => by cases h; exact ⟨v.mid, v.rise hp a, v.risen hp⟩, fun _ z => (nomatch z)⟩

/-- H's record follows the rising edge (R158). -/
theorem mirror_inv {tms : Bool} {s : State} (m : Mid s) (a : AgreeNext tms s)
    (h : s.g.tick % (2 * s.g.tckHalf) = s.g.tckHalf) : Inv (mirror tms s) := by
  have c := m.clock
  refine Mid.inv (m.congr ⟨c.main_pos, c.tckHalf_eq, c.resetDur_eq, c.tick_whole, c.clk_eq, c.tck_eq, c.rstN_eq, c.lastTck_eq,
    c.seen⟩ rfl rfl rfl rfl m.driven) ⟨fun z => .inr ?_, fun z => a.2 z⟩ (.inr (.inl h))
  obtain ⟨e, x⟩ := a.1 z
  show nextTap s.h.state tms = .rti
  rw [e]
  rcases x with x | x <;> (rw [x]; rfl)

/-- The TCK cycle (R157, R158). -/
theorem cycle_inv {a b : Bool} {s : State} (h : Inv s) : RunInv (cycle a b s) := by
  have hd := h.drive a b
  obtain ⟨q1, q2⟩ := untilPosedge_inv (edgeBound s) none (drive a b s) hd.mid.1 hd.mid.2.1
  unfold cycle
  cases e : untilPosedge (edgeBound s) none (drive a b s) with
  | done x u =>
    obtain ⟨m, g, al⟩ := q1 x u e
    exact .ofDone _ (mirror_inv m g al)
  | ended u => exact .ofEnded (q2 u e)
  | faulted r => exact .faulted r
  | refused r => exact .refused r

theorem runPins_inv (ps : List PinPair) (s : State) (h : Inv s) : RunInv (runPins ps s) := by
  induction ps generalizing s with
  | nil => exact .ofDone _ h
  | cons p ps ih =>
    have c := cycle_inv (a := p.1) (b := p.2) h
    unfold runPins
    cases e : cycle p.1 p.2 s with
    | done b u =>
      have i := ih u (c.done b u e)
      simp only
      cases e2 : runPins ps u with
      | done bs v => exact .ofDone _ (i.done _ _ e2)
      | ended v => exact .ofEnded (i.ended _ e2)
      | faulted r => exact .faulted r
      | refused r => exact .refused r
    | ended u => exact .ofEnded (c.ended _ e)
    | faulted r => exact .faulted r
    | refused r => exact .refused r

theorem irOrDwell_inv (code : IrCode) (s : State) (h : Inv s) : RunInv (irOrDwell code s) := by
  unfold irOrDwell
  split
  · have i := runPins_inv (irPins code) s h
    cases e : runPins (irPins code) s with
    | done bs v => exact .ofDone _ ((i.done _ _ e).congr rfl rfl rfl rfl rfl)
    | ended v => exact .ofEnded (i.ended _ e)
    | faulted r => exact .faulted r
    | refused r => exact .refused r
  · have i := runPins_inv (dwellPins s.h.idleCycles) s h
    cases e : runPins (dwellPins s.h.idleCycles) s with
    | done bs v => exact .ofDone _ (i.done _ _ e)
    | ended v => exact .ofEnded (i.ended _ e)
    | faulted r => exact .faulted r
    | refused r => exact .refused r

theorem accessScan_inv (code : IrCode) (w : ScanWord) (len : Nat) (s : State) (h : Inv s) :
    RunInv (accessScan code w len s) := by
  unfold accessScan
  have i := irOrDwell_inv code s h
  cases e : irOrDwell code s with
  | done x u =>
    have j := runPins_inv (drPins w len) u (i.done _ _ e)
    simp only
    cases e2 : runPins (drPins w len) u with
    | done bs v => exact .ofDone _ (j.done _ _ e2)
    | ended v => exact .ofEnded (j.ended _ e2)
    | faulted r => exact .faulted r
    | refused r => exact .refused r
  | ended v => exact .ofEnded (i.ended _ e)
  | faulted r => exact .faulted r
  | refused r => exact .refused r

/-- The register access (R160). -/
theorem accessReg_inv {code : IrCode} {w : ScanWord} {len : Nat} {s s' : State} (h : Inv s)
    (e : accessReg code w len s = .next s') : Inv s' := by
  unfold accessReg at e
  split at e
  · cases e
  · split at e
    · cases e
    · split at e
      · cases e
      · have i := accessScan_inv code w len s h
        split at e
        · rename_i z; cases e; exact (i.done _ _ z).setRet _
        · rename_i z; cases e; exact (i.ended _ z).setRet _
        · cases e
        · cases e

/-- The first loop of `Tap.reset` (R159): it never passes a rising edge out of reset. -/
theorem untilOutOfReset_inv (n : Nat) (s : State) (m : Mid s) (a : Agree s) (al : Aligned s ∨ s.g.rstN = false) :
    (∀ s', untilOutOfReset n s = .done () s' → Mid s' ∧ Agree s' ∧ s'.g.tms = s.g.tms) ∧
    (∀ s', untilOutOfReset n s = .ended s' → Inv s') := by
  induction n generalizing s with
  | zero => exact ⟨fun _ z => (nomatch z), fun _ z => (nomatch z)⟩
  | succ n ih =>
    unfold untilOutOfReset
    by_cases hd : allDone s = true
    · rw [if_pos hd]
      exact ⟨fun _ z => (nomatch z), fun _ z => by cases z; exact m.inv a (.inr (.inr hd))⟩
    · rw [if_neg hd]
      cases e : advanceEval s with
      | fault r => exact ⟨fun _ z => (nomatch z), fun _ z => (nomatch z)⟩
      | refused r => exact ⟨fun _ z => (nomatch z), fun _ z => (nomatch z)⟩
      | next u =>
        have v := m.advance e
        have hm := m.clock.main_pos
        have hdur : s.g.resetDur = 20 * s.g.mainHalf := by
          rw [m.clock.resetDur_eq, m.clock.tckHalf_eq, Config.resetTckHalves, Config.tckHalfMult]; ring
        cases hr : u.g.rstN
        · simp only [inReset, hr, Bool.not_false, if_true]
          have au : Agree u := by
            refine ⟨fun z => ?_, fun z => absurd ((v.mid.resetHeld hr).symm.trans z) (by decide)⟩
            cases hp : u.g.posedge
            · exact (v.noRise hp a).1 z
            · exact ((v.rise hp a).1 z).2
          obtain ⟨i1, i2⟩ := ih u v.mid au (.inr hr)
          exact ⟨fun s' h => by obtain ⟨x, y, z⟩ := i1 s' h; exact ⟨x, y, z.trans v.tms⟩, i2⟩
        · simp only [inReset, hr, Bool.not_true, Bool.false_eq_true, if_false]
          refine ⟨fun s' h => ?_, fun _ z => (nomatch z)⟩
          cases h
          refine ⟨v.mid, v.noRise ?_ a, v.tms⟩
          rw [Bool.eq_false_iff]
          intro hp
          have pu : phase u % 4 = 2 := v.mid.clock.risen_iff.mp (v.risen hp)
          have ps : phase u = phase s + 1 := v.phase
          have ge : 20 ≤ phase u := by
            have x := v.mid.clock.rstN_eq.symm
            rw [hr, rstNLevel] at x
            simp only [Bool.not_eq_true', decide_eq_false_iff_not, Nat.not_lt] at x
            rw [v.mid.clock.tick_eq, v.kept.resetDur, v.kept.mainHalf, hdur] at x
            exact Nat.le_of_mul_le_mul_right x (by omega)
          rcases al with (z | z | z) | z
          · have : phase s = 0 := by unfold phase; rw [z]; simp
            omega
          · have := m.clock.risen_iff.mp z
            omega
          · exact hd z
          · have x := m.clock.rstN_eq.symm
            rw [z, rstNLevel] at x
            simp only [Bool.not_eq_false', decide_eq_true_eq] at x
            rw [m.clock.tick_eq, hdur] at x
            have := Nat.lt_of_mul_lt_mul_right x
            omega

/-- `Tap.reset` (R159). -/
theorem tapReset_inv {s s' : State} (h : Inv s) (e : tapReset s = .next s') : Inv s' := by
  obtain ⟨m, a, al⟩ := (h.drive false false).mid
  obtain ⟨o1, o2⟩ := untilOutOfReset_inv (s.g.resetDur + 1) (drive false false s) m a (.inl al)
  unfold tapReset at e
  split at e
  · rename_i u eu
    obtain ⟨mu, au, tu⟩ := o1 u eu
    obtain ⟨p1, p2⟩ := untilPosedge_inv (edgeBound u) none u mu au
    split at e
    · rename_i z
      cases e
      obtain ⟨mv, nv, av⟩ := p1 _ _ z
      rw [show u.g.tms = false from tu] at nv
      exact (mirror_inv mv nv av).setRet _
    · rename_i z; cases e; exact (p2 _ z).setRet _
    · cases e
    · cases e
  · rename_i z; cases e; exact (o2 _ z).setRet _
  · cases e
  · cases e

/-- An `eval` without an advance (R93, conflict C9). -/
theorem eval_inv {s s' : State} (h : Inv s) (e : eval s = .next s') : Inv s' := by
  obtain ⟨u, x, rfl⟩ := eval_next_inv e
  have nr : rose s.t.pins.tck (commitPins s).t.pins.tck = false := by
    show rose s.t.pins.tck s.g.tck = false
    rw [h.clock.seen]; cases s.g.tck <;> rfl
  have nf : fell s.t.pins.tck (commitPins s).t.pins.tck = false := by
    show fell s.t.pins.tck s.g.tck = false
    rw [h.clock.seen]; cases s.g.tck <;> rfl
  have k := deviceStep_kept x
  have hg : u.g = s.g := k.g
  have hh : u.h = s.h := k.h
  have c := h.clock
  have c' : ClockOk (sampleOutputs u) := by
    constructor <;> simp [hg, c.main_pos, c.tckHalf_eq, c.resetDur_eq, c.tick_whole, c.clk_eq, c.tck_eq, c.rstN_eq, c.lastTck_eq,
      k.pins]
  have al : Aligned (sampleOutputs u) := by
    rcases h.aligned with z | z | z
    · exact .inl (by simp [hg, z])
    · exact .inr (.inl (by simp [hg, z]))
    · refine .inr (.inr ?_)
      unfold allDone at z ⊢
      simp only [Bool.or_eq_true] at z ⊢
      rcases z with z | z
      · left
        show (u.g.finished || _) = true
        rw [hg, z]; rfl
      · right; simpa [hg] using z
  obtain ⟨m, a, _⟩ := h.mid
  have fin : (u.t.fresh = true → Held u.t) → (s.g.rstN = false → u.t.fresh = true) → DrWidth u.t →
      u.t.respAddr < 2 ^ u.t.par.abits → Agree u → Inv (sampleOutputs u) := by
    intro a1 a2 a3 a4 a5
    refine Mid.inv ⟨c', ?_, ?_, fun z => a2 (by rw [← hg]; exact z), a1, a3, a4⟩ a5 al
    · show ¬ (u.g.posedge = true ∧ u.g.negedge = true)
      rw [hg]; exact h.edges
    · show u.h.tmsDrv = u.g.tms ∧ u.h.tdiDrv = u.g.tdi
      rw [hh, hg]; exact h.driven
  rcases (Bool.eq_false_or_eq_true s.g.rstN).symm with hr | hr
  · unfold deviceStep resetStep at x
    rw [show (commitPins s).g.rstN = false from hr, nr] at x
    cases x
    exact fin (fun _ => deviceReset_held _) (fun _ => rfl) (fun z => Bool.noConfusion z) (Nat.mod_lt _ (Nat.pow_pos (by omega)))
      ⟨fun _ => a.1 (m.resetHeld hr), fun z => Bool.noConfusion z⟩
  · rw [deviceStep_high _ (show (commitPins s).g.rstN = true from hr), nr, nf] at x
    cases x
    exact fin (fun z => have w := m.held z; ⟨w.state, w.ir, w.status, w.inflight, w.fresh⟩)
      (fun z => absurd (hr.symm.trans z) (by decide)) m.drWidth m.addrWidth ⟨a.1, a.2⟩

end Sys2Proof.Machine
end

