-- ==== Sys2Proof/Laws/Fixed.lean ====
section
/-! SUPPORT. Laws/Fixed.lean: what no operation changes or takes back, from whatever state: the construction parameters, the
device's read-only contents, time, the requests handed to M, the diagnostics (R8, R64, R188, R192, R197). -/

namespace Sys2Proof.Machine

structure FixedParts (s s' : State) : Prop where
  par : s'.t.par = s.t.par
  finishAt : s'.t.finishAt = s.t.finishAt
  mainHalf : s'.g.mainHalf = s.g.mainHalf
  tckHalf : s'.g.tckHalf = s.g.tckHalf
  resetDur : s'.g.resetDur = s.g.resetDur
  maxTime : s'.g.maxTime = s.g.maxTime
  tick : s.g.tick ≤ s'.g.tick
  finished : s.g.finished = true → s'.g.finished = true
  requests : ∃ sent, s'.m.requests = s.m.requests ++ sent
  diag : ∃ logged, s'.h.diag = s.h.diag ++ logged

/-- An operation that changes of G only the pins H drives, and of H not the diagnostics. -/
theorem FixedParts.of_eq {s s' : State} (hp : s'.t.par = s.t.par) (hf : s'.t.finishAt = s.t.finishAt)
    (h1 : s'.g.mainHalf = s.g.mainHalf) (h2 : s'.g.tckHalf = s.g.tckHalf) (h3 : s'.g.resetDur = s.g.resetDur)
    (h4 : s'.g.maxTime = s.g.maxTime) (h5 : s.g.tick ≤ s'.g.tick) (h6 : s'.g.finished = s.g.finished)
    (h7 : s'.m.requests = s.m.requests) (h8 : s'.h.diag = s.h.diag) : FixedParts s s' :=
  ⟨hp, hf, h1, h2, h3, h4, h5, fun z => h6.trans z, ⟨[], by rw [h7, List.append_nil]⟩, ⟨[], by rw [h8, List.append_nil]⟩⟩

theorem FixedParts.refl (s : State) : FixedParts s s := .of_eq rfl rfl rfl rfl rfl rfl (Nat.le_refl _) rfl rfl rfl

theorem FixedParts.trans {s u v : State} (x : FixedParts s u) (y : FixedParts u v) : FixedParts s v := by
  obtain ⟨p, hp⟩ := x.requests
  obtain ⟨q, hq⟩ := y.requests
  obtain ⟨k, hk⟩ := x.diag
  obtain ⟨l, hl⟩ := y.diag
  exact ⟨y.par.trans x.par, y.finishAt.trans x.finishAt, y.mainHalf.trans x.mainHalf, y.tckHalf.trans x.tckHalf,
    y.resetDur.trans x.resetDur, y.maxTime.trans x.maxTime, x.tick.trans y.tick, fun z => y.finished (x.finished z),
    ⟨p ++ q, by rw [hq, hp, List.append_assoc]⟩, ⟨k ++ l, by rw [hl, hk, List.append_assoc]⟩⟩

/-- An operation on H's record alone. -/
theorem FixedParts.of_h {s s' : State} (hg : s'.g = s.g) (ht : s'.t = s.t) (hm : s'.m = s.m) (hd : s'.h.diag = s.h.diag) :
    FixedParts s s' :=
  .of_eq (by rw [ht]) (by rw [ht]) (by rw [hg]) (by rw [hg]) (by rw [hg]) (by rw [hg]) (by rw [hg]) (by rw [hg]) (by rw [hm]) hd

theorem drive_fixed (a b : Bool) (s : State) : FixedParts s (drive a b s) :=
  .of_eq rfl rfl rfl rfl rfl rfl (Nat.le_refl _) rfl rfl rfl

/-! ### M's requests over one edge -/

theorem dmiRequestUpdate_requests (r : DmiRequest) (s : State) :
    ∃ l, (dmiRequestUpdate r s).m.requests = s.m.requests ++ l := by
  unfold dmiRequestUpdate
  split
  · exact ⟨[], by simp⟩
  · split
    · exact ⟨[], by simp⟩
    · exact ⟨[r], rfl⟩

theorem updateDr_requests {s v : State} (e : updateDr s = .next v) : ∃ l, v.m.requests = s.m.requests ++ l := by
  unfold updateDr at e
  split at e
  · unfold updateDmi at e
    split at e
    · cases e; exact ⟨[], by simp⟩
    · cases e; exact dmiRequestUpdate_requests _ _
    · cases e; exact dmiRequestUpdate_requests _ _
    · cases e
  · split at e
    · unfold updateDtmcs at e
      split at e
      · cases e; exact ⟨[], by simp [dmiHardReset]⟩
      · split at e
        · cases e; exact ⟨[], by simp [dmiStatusReset]⟩
        · cases e; exact ⟨[], by simp⟩
    · cases e; exact ⟨[], by simp⟩

theorem deviceStep_requests {prev : Bool} {s u : State} (h : deviceStep prev s = .next u) :
    ∃ l, u.m.requests = s.m.requests ++ l := by
  unfold deviceStep at h
  split at h
  · unfold resetStep at h
    split at h
    · cases h
    · cases h; exact ⟨[], by simp [deviceReset]⟩
  · split at h
    · by_cases hs : s.t.state = .updDR
      · unfold negedgeStep at h
        rw [hs] at h
        simpa using updateDr_requests h
      · exact ⟨[], by rw [(negedgeStep_dtm hs h).2.2.2.2]; simp⟩
    · split at h
      · rcases posedgeStep_cases s with ⟨_, _, e⟩ | ⟨_, u', e, k⟩
        · rw [e] at h; cases h
        · rw [e] at h; cases h; exact ⟨[], by rw [k.requests]; simp⟩
      · cases h; exact ⟨[], by simp⟩

/-! ### The operations -/

theorem eval_fixed {s s' : State} (e : eval s = .next s') : FixedParts s s' := by
  obtain ⟨u, x, rfl⟩ := eval_next_inv e
  have k := deviceStep_kept x
  have hg : u.g = s.g := k.g
  have hh : u.h = s.h := k.h
  obtain ⟨l, hl⟩ := deviceStep_requests x
  refine ⟨k.par, k.finishAt, by simp [hg], by simp [hg], by simp [hg], by simp [hg], by simp [hg], fun z => ?_, ⟨l, hl⟩, ⟨[], ?_⟩⟩
  · show (u.g.finished || _) = true
    rw [hg, z]; rfl
  · show u.h.diag = _
    rw [hh, List.append_nil]

theorem advanceEval_fixed {s s' : State} (e : advanceEval s = .next s') : FixedParts s s' :=
  FixedParts.trans (u := advance s) (.of_eq rfl rfl rfl rfl rfl rfl (Nat.le_add_right _ _) rfl rfl rfl) (eval_fixed e)

/-- A part of an operation that starts in `s` ends in states with the same fixed parts. -/
structure RunFixed {α : Type} (s : State) (r : Run α) : Prop where
  done : ∀ x s', r = .done x s' → FixedParts s s'
  ended : ∀ s', r = .ended s' → FixedParts s s'

section
variable {α : Type} {s u : State}

theorem RunFixed.faulted (f : Fault) : RunFixed s (Run.faulted f : Run α) := ⟨fun _ _ z => (nomatch z), fun _ z => (nomatch z)⟩

theorem RunFixed.refused (f : Refusal) : RunFixed s (Run.refused f : Run α) :=
  ⟨fun _ _ z => (nomatch z), fun _ z => (nomatch z)⟩

theorem RunFixed.ofEnded (h : FixedParts s u) : RunFixed s (Run.ended u : Run α) :=
  ⟨fun _ _ z => (nomatch z), fun _ z => by cases z; exact h⟩

theorem RunFixed.ofDone (x : α) (h : FixedParts s u) : RunFixed s (Run.done x u) :=
  ⟨fun _ _ z => by cases z; exact h, fun _ z => (nomatch z)⟩

theorem RunFixed.after {r : Run α} (h : FixedParts s u) (k : RunFixed u r) : RunFixed s r :=
  ⟨fun x s' z => h.trans (k.done x s' z), fun s' z => h.trans (k.ended s' z)⟩

end

theorem untilPosedge_fixed (n : Nat) (tdo : Option Bool) (s : State) : RunFixed s (untilPosedge n tdo s) := by
  induction n generalizing tdo s with
  | zero => exact .refused _
  | succ n ih =>
    unfold untilPosedge
    split
    · exact .ofEnded (.refl _)
    · cases e : advanceEval s with
      | fault r => exact .faulted _
      | refused r => exact .refused _
      | next u =>
        simp only
        split
        · exact .ofDone _ (advanceEval_fixed e)
        · exact .after (advanceEval_fixed e) (ih _ u)

theorem untilOutOfReset_fixed (n : Nat) (s : State) : RunFixed s (untilOutOfReset n s) := by
  induction n generalizing s with
  | zero => exact .refused _
  | succ n ih =>
    unfold untilOutOfReset
    split
    · exact .ofEnded (.refl _)
    · cases e : advanceEval s with
      | fault r => exact .faulted _
      | refused r => exact .refused _
      | next u =>
        simp only
        split
        · exact .after (advanceEval_fixed e) (ih u)
        · exact .ofDone _ (advanceEval_fixed e)

theorem cycle_fixed (a b : Bool) (s : State) : RunFixed s (cycle a b s) := by
  have k := untilPosedge_fixed (edgeBound s) none (drive a b s)
  unfold cycle
  split
  · rename_i e; exact .ofDone _ ((drive_fixed a b s).trans ((k.done _ _ e).trans (.of_h rfl rfl rfl rfl)))
  · rename_i e; exact .ofEnded ((drive_fixed a b s).trans (k.ended _ e))
  · exact .faulted _
  · exact .refused _

theorem runPins_fixed (ps : List PinPair) (s : State) : RunFixed s (runPins ps s) := by
  induction ps generalizing s with
  | nil => exact .ofDone _ (.refl _)
  | cons p ps ih =>
    have c := cycle_fixed p.1 p.2 s
    unfold runPins
    split
    · rename_i b u e
      split
      · rename_i e2; exact .ofDone _ ((c.done _ _ e).trans ((ih u).done _ _ e2))
      · rename_i e2; exact .ofEnded ((c.done _ _ e).trans ((ih u).ended _ e2))
      · exact .faulted _
      · exact .refused _
    · rename_i e; exact .ofEnded (c.ended _ e)
    · exact .faulted _
    · exact .refused _

theorem irOrDwell_fixed (code : IrCode) (s : State) : RunFixed s (irOrDwell code s) := by
  unfold irOrDwell
  split
  · have k := runPins_fixed (irPins code) s
    split
    · rename_i e; exact .ofDone _ ((k.done _ _ e).trans (.of_h rfl rfl rfl rfl))
    · rename_i e; exact .ofEnded (k.ended _ e)
    · exact .faulted _
    · exact .refused _
  · have k := runPins_fixed (dwellPins s.h.idleCycles) s
    split
    · rename_i e; exact .ofDone _ (k.done _ _ e)
    · rename_i e; exact .ofEnded (k.ended _ e)
    · exact .faulted _
    · exact .refused _

theorem accessScan_fixed (code : IrCode) (w : ScanWord) (len : Nat) (s : State) : RunFixed s (accessScan code w len s) := by
  unfold accessScan
  have i := irOrDwell_fixed code s
  split
  · rename_i u e
    have k := runPins_fixed (drPins w len) u
    split
    · rename_i e2; exact .ofDone _ ((i.done _ _ e).trans (k.done _ _ e2))
    · rename_i e2; exact .ofEnded ((i.done _ _ e).trans (k.ended _ e2))
    · exact .faulted _
    · exact .refused _
  · rename_i e; exact .ofEnded (i.ended _ e)
  · exact .faulted _
  · exact .refused _

theorem accessReg_fixed {code : IrCode} {w : ScanWord} {len : Nat} {s s' : State} (e : accessReg code w len s = .next s') :
    FixedParts s s' := by
  have k := accessScan_fixed code w len s
  unfold accessReg at e
  split at e
  · cases e
  · split at e
    · cases e
    · split at e
      · cases e
      · split at e
        · rename_i z; cases e; exact (k.done _ _ z).trans (.of_h rfl rfl rfl rfl)
        · rename_i z; cases e; exact (k.ended _ z).trans (.of_h rfl rfl rfl rfl)
        · cases e
        · cases e

theorem tapReset_fixed {s s' : State} (e : tapReset s = .next s') : FixedParts s s' := by
  have k := untilOutOfReset_fixed (s.g.resetDur + 1) (drive false false s)
  have d := drive_fixed false false s
  unfold tapReset at e
  split at e
  · rename_i u eu
    have j := untilPosedge_fixed (edgeBound u) none u
    split at e
    · rename_i z; cases e; exact (d.trans ((k.done _ _ eu).trans (j.done _ _ z))).trans (.of_h rfl rfl rfl rfl)
    · rename_i z; cases e; exact (d.trans ((k.done _ _ eu).trans (j.ended _ z))).trans (.of_h rfl rfl rfl rfl)
    · cases e
    · cases e
  · rename_i z; cases e; exact (d.trans (k.ended _ z)).trans (.of_h rfl rfl rfl rfl)
  · cases e
  · cases e

end Sys2Proof.Machine
end

