-- ==== Sys2Proof/Laws/PerInstr.lean ====
section
/-! SUPPORT. Laws/PerInstr.lean: one lemma per constructor for each statement made of all instructions. -/

namespace Sys2Proof.Laws.EncodedLength

/-- The word of a well-formed instruction has the number of bits its format has (R69, R71, R73, R77): 2 for a TCK cycle; 5 and a
scan of 1 to 64 for a register access; 34 and the address width for a DMI word; 32 for a DTMCS word. -/
def Statement (i : Instr) : Prop :=
  ∀ abits : Nat, WellFormed abits i = true →
    match (encode abits i).fmt with
    | .cyc => (encode abits i).bits.length = 2
    | .ir5 => 6 ≤ (encode abits i).bits.length ∧ (encode abits i).bits.length ≤ 69
    | .dr1 => (encode abits i).bits.length = 1
    | .dr32Idcode => (encode abits i).bits.length = 32
    | .dr32Dtmcs => (encode abits i).bits.length = 32
    | .dmi => (encode abits i).bits.length = 34 + abits

theorem scan {i : Instr} {code : IrCode} {len : Nat} {wdata : ScanWord} (h : ∀ abits, encode abits i = encodeScan code len wdata)
    (hw : ∀ abits, WellFormed abits i = wfScan len wdata) : Statement i := by
  intro abits w
  rw [hw abits] at w
  simp only [wfScan, Bool.and_eq_true, decide_eq_true_eq] at w
  obtain ⟨⟨h1, h2⟩, _⟩ := w
  have h3 : len ≤ 64 := h2
  rw [h abits]
  simp only [encodeScan, List.length_append, natBits_length]
  omega

theorem dmi {i : Instr} {op addr : Nat} {data : Word32} (h : ∀ abits, encode abits i = encodeDmi abits op addr data) :
    Statement i := by
  intro abits _
  rw [h abits]
  simp only [encodeDmi, List.length_append, natBits_length]
  omega

theorem command {i : Instr} {u : Word32} (h : ∀ abits, encode abits i = encodeDtmcs u) : Statement i := by
  intro abits _
  rw [h abits]
  simp only [encodeDtmcs, natBits_length]

theorem bypass0 (len : Nat) (wdata : ScanWord) : Statement (.bypass0 len wdata) :=
  scan (fun _ => rfl) fun _ => rfl
theorem idcode (len : Nat) (wdata : ScanWord) : Statement (.idcode len wdata) :=
  scan (fun _ => rfl) fun _ => rfl
theorem irUnused02 (len : Nat) (wdata : ScanWord) : Statement (.irUnused02 len wdata) :=
  scan (fun _ => rfl) fun _ => rfl
theorem irUnused03 (len : Nat) (wdata : ScanWord) : Statement (.irUnused03 len wdata) :=
  scan (fun _ => rfl) fun _ => rfl
theorem irUnused04 (len : Nat) (wdata : ScanWord) : Statement (.irUnused04 len wdata) :=
  scan (fun _ => rfl) fun _ => rfl
theorem irUnused05 (len : Nat) (wdata : ScanWord) : Statement (.irUnused05 len wdata) :=
  scan (fun _ => rfl) fun _ => rfl
theorem irUnused06 (len : Nat) (wdata : ScanWord) : Statement (.irUnused06 len wdata) :=
  scan (fun _ => rfl) fun _ => rfl
theorem irUnused07 (len : Nat) (wdata : ScanWord) : Statement (.irUnused07 len wdata) :=
  scan (fun _ => rfl) fun _ => rfl
theorem irUnused08 (len : Nat) (wdata : ScanWord) : Statement (.irUnused08 len wdata) :=
  scan (fun _ => rfl) fun _ => rfl
theorem irUnused09 (len : Nat) (wdata : ScanWord) : Statement (.irUnused09 len wdata) :=
  scan (fun _ => rfl) fun _ => rfl
theorem irUnused0A (len : Nat) (wdata : ScanWord) : Statement (.irUnused0A len wdata) :=
  scan (fun _ => rfl) fun _ => rfl
theorem irUnused0B (len : Nat) (wdata : ScanWord) : Statement (.irUnused0B len wdata) :=
  scan (fun _ => rfl) fun _ => rfl
theorem irUnused0C (len : Nat) (wdata : ScanWord) : Statement (.irUnused0C len wdata) :=
  scan (fun _ => rfl) fun _ => rfl
theorem irUnused0D (len : Nat) (wdata : ScanWord) : Statement (.irUnused0D len wdata) :=
  scan (fun _ => rfl) fun _ => rfl
theorem irUnused0E (len : Nat) (wdata : ScanWord) : Statement (.irUnused0E len wdata) :=
  scan (fun _ => rfl) fun _ => rfl
theorem irUnused0F (len : Nat) (wdata : ScanWord) : Statement (.irUnused0F len wdata) :=
  scan (fun _ => rfl) fun _ => rfl
theorem dtmcs (len : Nat) (wdata : ScanWord) : Statement (.dtmcs len wdata) :=
  scan (fun _ => rfl) fun _ => rfl
theorem dmiaccess (len : Nat) (wdata : ScanWord) : Statement (.dmiaccess len wdata) :=
  scan (fun _ => rfl) fun _ => rfl
theorem irUnused12 (len : Nat) (wdata : ScanWord) : Statement (.irUnused12 len wdata) :=
  scan (fun _ => rfl) fun _ => rfl
theorem irUnused13 (len : Nat) (wdata : ScanWord) : Statement (.irUnused13 len wdata) :=
  scan (fun _ => rfl) fun _ => rfl
theorem irUnused14 (len : Nat) (wdata : ScanWord) : Statement (.irUnused14 len wdata) :=
  scan (fun _ => rfl) fun _ => rfl
theorem irUnused15 (len : Nat) (wdata : ScanWord) : Statement (.irUnused15 len wdata) :=
  scan (fun _ => rfl) fun _ => rfl
theorem irUnused16 (len : Nat) (wdata : ScanWord) : Statement (.irUnused16 len wdata) :=
  scan (fun _ => rfl) fun _ => rfl
theorem irUnused17 (len : Nat) (wdata : ScanWord) : Statement (.irUnused17 len wdata) :=
  scan (fun _ => rfl) fun _ => rfl
theorem irUnused18 (len : Nat) (wdata : ScanWord) : Statement (.irUnused18 len wdata) :=
  scan (fun _ => rfl) fun _ => rfl
theorem irUnused19 (len : Nat) (wdata : ScanWord) : Statement (.irUnused19 len wdata) :=
  scan (fun _ => rfl) fun _ => rfl
theorem irUnused1A (len : Nat) (wdata : ScanWord) : Statement (.irUnused1A len wdata) :=
  scan (fun _ => rfl) fun _ => rfl
theorem irUnused1B (len : Nat) (wdata : ScanWord) : Statement (.irUnused1B len wdata) :=
  scan (fun _ => rfl) fun _ => rfl
theorem irUnused1C (len : Nat) (wdata : ScanWord) : Statement (.irUnused1C len wdata) :=
  scan (fun _ => rfl) fun _ => rfl
theorem irUnused1D (len : Nat) (wdata : ScanWord) : Statement (.irUnused1D len wdata) :=
  scan (fun _ => rfl) fun _ => rfl
theorem irUnused1E (len : Nat) (wdata : ScanWord) : Statement (.irUnused1E len wdata) :=
  scan (fun _ => rfl) fun _ => rfl
theorem bypass1 (len : Nat) (wdata : ScanWord) : Statement (.bypass1 len wdata) :=
  scan (fun _ => rfl) fun _ => rfl
theorem dmiNop (addr : Nat) (data : Word32) : Statement (.dmiNop addr data) := dmi fun _ => rfl
theorem dmiRead (addr : Nat) (data : Word32) : Statement (.dmiRead addr data) := dmi fun _ => rfl
theorem dmiWrite (addr : Nat) (data : Word32) : Statement (.dmiWrite addr data) := dmi fun _ => rfl
theorem dmiOp3 (addr : Nat) (data : Word32) : Statement (.dmiOp3 addr data) := dmi fun _ => rfl
theorem dtmcsDmireset (u : Word32) : Statement (.dtmcsDmireset u) := command fun _ => rfl
theorem dtmcsDmihardreset (u : Word32) : Statement (.dtmcsDmihardreset u) := command fun _ => rfl
theorem tckCycle (tms tdi : Bool) : Statement (.tckCycle tms tdi) := fun _ _ => rfl

end Sys2Proof.Laws.EncodedLength
end

