-- ==== Sys2Proof/Laws/Words.lean ====
section
/-! SUPPORT. Laws/Words.lean: the fields of the words on the wire (R77, R80, R81, R83). -/

namespace Sys2Proof

/-! ### The fields of a DMI word -/

section
variable (op addr k : Nat) (data : Word32)

theorem dmiOpField_word : dmiOpField (natBits 2 op ++ (natBits 32 data.toNat ++ natBits k addr)) = op % 4 := by
  unfold dmiOpField
  rw [List.take_append_of_le_length (by simp), List.take_of_length_le (by simp), bitsVal_natBits]
  norm_num

theorem dmiDataField_word : dmiDataField (natBits 2 op ++ (natBits 32 data.toNat ++ natBits k addr)) = data := by
  unfold dmiDataField
  rw [List.drop_append_of_le_length (by simp), List.drop_eq_nil_of_le (by simp), List.nil_append,
    List.take_append_of_le_length (by simp), List.take_of_length_le (by simp), bitsVal_natBits]
  rw [Nat.mod_eq_of_lt (BitVec.isLt _), BitVec.ofNat_toNat, BitVec.setWidth_eq]

theorem dmiWord_drop34 : (natBits 2 op ++ (natBits 32 data.toNat ++ natBits k addr)).drop 34 = natBits k addr := by
  rw [List.drop_append, List.drop_eq_nil_of_le (by simp), natBits_length, List.nil_append, List.drop_append,
    List.drop_eq_nil_of_le (by simp), natBits_length, List.nil_append]
  rfl

theorem dmiAddrField_word : dmiAddrField k (natBits 2 op ++ (natBits 32 data.toNat ++ natBits k addr)) = addr % 2 ^ k := by
  unfold dmiAddrField
  rw [dmiWord_drop34, List.take_of_length_le (by simp), bitsVal_natBits]

end

/-- The bits of a word are those of its three fields (R77). -/
theorem dmiWord_of_fields {k : Nat} {u : Bits} (h : u.length = 34 + k) :
    natBits 2 (dmiOpField u) ++ (natBits 32 (dmiDataField u).toNat ++ natBits k (dmiAddrField k u)) = u := by
  have h1 : (u.take 2).length = 2 := by simp; omega
  have h2 : ((u.drop 2).take 32).length = 32 := by simp; omega
  have h3 : ((u.drop 34).take k).length = k := by simp; omega
  have e1 : natBits 2 (dmiOpField u) = u.take 2 := by
    have := natBits_bitsVal (u.take 2); rw [h1] at this; exact this
  have e2 : natBits 32 (dmiDataField u).toNat = (u.drop 2).take 32 := by
    have := natBits_bitsVal ((u.drop 2).take 32)
    rw [h2] at this
    have hl := bitsVal_lt ((u.drop 2).take 32)
    rw [h2] at hl
    unfold dmiDataField
    rw [BitVec.toNat_ofNat, Nat.mod_eq_of_lt hl, this]
  have e3 : natBits k (dmiAddrField k u) = (u.drop 34).take k := by
    have := natBits_bitsVal ((u.drop 34).take k); rw [h3] at this; exact this
  rw [e1, e2, e3, List.take_of_length_le (l := u.drop 34) (by simp; omega)]
  have : u.drop 34 = (u.drop 2).drop 32 := by rw [List.drop_drop]
  rw [this, List.take_append_drop, List.take_append_drop]

/-- The word of a DTMCS scan has as bits the bits of its value (R69). -/
theorem dtmcsField_natBits (u : Word32) : dtmcsField (natBits 32 u.toNat) = u := by
  unfold dtmcsField
  rw [List.take_of_length_le (by simp), bitsVal_natBits]
  rw [Nat.mod_eq_of_lt (BitVec.isLt _), BitVec.ofNat_toNat, BitVec.setWidth_eq]

theorem natBits_dtmcsField {u : Bits} (h : u.length = 32) : natBits 32 (dtmcsField u).toNat = u := by
  have h1 : u.take 32 = u := List.take_of_length_le (by omega)
  have hl := bitsVal_lt u
  rw [h] at hl
  unfold dtmcsField
  rw [h1, BitVec.toNat_ofNat, Nat.mod_eq_of_lt hl]
  have := natBits_bitsVal u
  rw [h] at this
  exact this

namespace Machine

/-! ### H's operands -/

/-- The word H packs, as a number (R80): the three fields do not overlap. -/
theorem packRequest_toNat {op addr data k : Nat} (hop : op ≤ 2) (hk : k ≤ 30) :
    (packRequest op addr data (2 ^ k - 1)).toNat = op + 2 ^ 2 * (data % 2 ^ 32 + 2 ^ 32 * (addr % 2 ^ k)) := by
  have hm : addr &&& (2 ^ k - 1) = addr % 2 ^ k := Nat.and_two_pow_sub_one_eq_mod _ _
  have hd : data &&& 0xffffffff = data % 2 ^ 32 := Nat.and_two_pow_sub_one_eq_mod _ 32
  have ha : addr % 2 ^ k < 2 ^ 30 :=
    Nat.lt_of_lt_of_le (Nat.mod_lt _ (by positivity)) (Nat.pow_le_pow_right (by omega) hk)
  have hd' : data % 2 ^ 32 < 2 ^ 32 := Nat.mod_lt _ (by norm_num)
  unfold packRequest
  rw [hm, hd]
  generalize addr % 2 ^ k = a at *
  generalize data % 2 ^ 32 = d at *
  simp only [BitVec.toNat_or, BitVec.toNat_shiftLeft, BitVec.toNat_ofNat]
  rw [Nat.mod_eq_of_lt (a := a) (by omega), Nat.mod_eq_of_lt (a := d) (by omega), Nat.mod_eq_of_lt (a := op) (by omega),
    Nat.shiftLeft_eq, Nat.shiftLeft_eq, Nat.mod_eq_of_lt (a := a * 2 ^ 34) (by omega),
    Nat.mod_eq_of_lt (a := d * 2 ^ 2) (by omega)]
  rw [Nat.lor_assoc, ← Nat.shiftLeft_eq d 2, ← Nat.shiftLeft_add_eq_or_of_lt (by omega : op < 2 ^ 2) d, Nat.shiftLeft_eq,
    ← Nat.shiftLeft_eq a 34, ← Nat.shiftLeft_add_eq_or_of_lt (by omega : d * 2 ^ 2 + op < 2 ^ 34) a, Nat.shiftLeft_eq]
  omega

/-- The bits of the word H packs (R80): op, then datum, then address, each the field of R77. -/
theorem packRequest_bits {op addr data k : Nat} (hop : op ≤ 2) (hk : k ≤ 30) :
    natBits (34 + k) (packRequest op addr data (2 ^ k - 1)).toNat =
      natBits 2 op ++ (natBits 32 (BitVec.ofNat 32 data).toNat ++ natBits k (addr % 2 ^ k)) := by
  rw [packRequest_toNat hop hk, BitVec.toNat_ofNat, natBits_append 32 k _ _ (Nat.mod_lt _ (by norm_num)),
    natBits_append 2 (32 + k) _ _ (by omega)]
  congr 1
  omega

theorem respResult_word (c addr k : Nat) (data : Word32) (h : c ≤ 3) :
    respResult (natBits 2 c ++ (natBits 32 data.toNat ++ natBits k addr)) = c := by
  have := dmiOpField_word c addr k data
  unfold dmiOpField at this
  unfold respResult
  rw [this]
  omega

theorem respDatum_word (c addr k : Nat) (data : Word32) :
    respDatum (natBits 2 c ++ (natBits 32 data.toNat ++ natBits k addr)) = data :=
  dmiDataField_word c addr k data

theorem respAddress_word (c addr k : Nat) (data : Word32) :
    respAddress (natBits 2 c ++ (natBits 32 data.toNat ++ natBits k addr)) = addr % 2 ^ k := by
  unfold respAddress
  rw [dmiWord_drop34, bitsVal_natBits]

end Machine

end Sys2Proof
end

