-- ==== Sys2Proof/Tests/Slice0.lean ====
section
/-! SUPPORT. Tests/Slice0.lean: the smoke tests of WellFormed, a word of every instruction written out from 30_encoding.md and what
it decodes to, single steps against 95_test_vectors.md, and for every statement with hypotheses a concrete case that meets them
(witness_<statement>). -/

namespace Sys2Proof.Tests

open Sys2Proof Sys2Proof.Machine

set_option Elab.async false

/-! ### WellFormed: an ill-formed term for each check -/

theorem test_wf_scan_zero : WellFormed 7 (.idcode 0 0#64) = false := by decide +kernel
theorem test_wf_scan_long : WellFormed 7 (.idcode 65 0#64) = false := by decide +kernel
theorem test_wf_scan_wide : WellFormed 7 (.bypass0 3 8#64) = false := by decide +kernel
theorem test_wf_scan_ok : WellFormed 7 (.bypass0 3 7#64) = true ∧ WellFormed 7 (.dmiaccess 64 0#64) = true := by decide +kernel
theorem test_wf_addr : WellFormed 7 (.dmiRead 0x80 0#32) = false ∧ WellFormed 7 (.dmiRead 0x7f 0#32) = true := by decide +kernel
theorem test_wf_dmireset : WellFormed 7 (.dtmcsDmireset 0#32) = false ∧ WellFormed 7 (.dtmcsDmireset 0x00030000#32) = false := by
  decide +kernel
theorem test_wf_dmihardreset : WellFormed 7 (.dtmcsDmihardreset 0x00010000#32) = false := by decide +kernel

/-! ### Decoding: the IR codes of R74 and R75, bit 0 first (R71), then the two-bit scan-in `10` in time order (R73) -/

theorem test_decode_bypass0 : decode 7 ⟨.ir5, [false, false, false, false, false, true, false]⟩ = .ok (.bypass0 2 1#64) := by decide +kernel
theorem test_decode_idcode : decode 7 ⟨.ir5, [true, false, false, false, false, true, false]⟩ = .ok (.idcode 2 1#64) := by decide +kernel
theorem test_decode_irUnused02 : decode 7 ⟨.ir5, [false, true, false, false, false, true, false]⟩ = .ok (.irUnused02 2 1#64) := by decide +kernel
theorem test_decode_irUnused03 : decode 7 ⟨.ir5, [true, true, false, false, false, true, false]⟩ = .ok (.irUnused03 2 1#64) := by decide +kernel
theorem test_decode_irUnused04 : decode 7 ⟨.ir5, [false, false, true, false, false, true, false]⟩ = .ok (.irUnused04 2 1#64) := by decide +kernel
theorem test_decode_irUnused05 : decode 7 ⟨.ir5, [true, false, true, false, false, true, false]⟩ = .ok (.irUnused05 2 1#64) := by decide +kernel
theorem test_decode_irUnused06 : decode 7 ⟨.ir5, [false, true, true, false, false, true, false]⟩ = .ok (.irUnused06 2 1#64) := by decide +kernel
theorem test_decode_irUnused07 : decode 7 ⟨.ir5, [true, true, true, false, false, true, false]⟩ = .ok (.irUnused07 2 1#64) := by decide +kernel
theorem test_decode_irUnused08 : decode 7 ⟨.ir5, [false, false, false, true, false, true, false]⟩ = .ok (.irUnused08 2 1#64) := by decide +kernel
theorem test_decode_irUnused09 : decode 7 ⟨.ir5, [true, false, false, true, false, true, false]⟩ = .ok (.irUnused09 2 1#64) := by decide +kernel
theorem test_decode_irUnused0A : decode 7 ⟨.ir5, [false, true, false, true, false, true, false]⟩ = .ok (.irUnused0A 2 1#64) := by decide +kernel
theorem test_decode_irUnused0B : decode 7 ⟨.ir5, [true, true, false, true, false, true, false]⟩ = .ok (.irUnused0B 2 1#64) := by decide +kernel
theorem test_decode_irUnused0C : decode 7 ⟨.ir5, [false, false, true, true, false, true, false]⟩ = .ok (.irUnused0C 2 1#64) := by decide +kernel
theorem test_decode_irUnused0D : decode 7 ⟨.ir5, [true, false, true, true, false, true, false]⟩ = .ok (.irUnused0D 2 1#64) := by decide +kernel
theorem test_decode_irUnused0E : decode 7 ⟨.ir5, [false, true, true, true, false, true, false]⟩ = .ok (.irUnused0E 2 1#64) := by decide +kernel
theorem test_decode_irUnused0F : decode 7 ⟨.ir5, [true, true, true, true, false, true, false]⟩ = .ok (.irUnused0F 2 1#64) := by decide +kernel
theorem test_decode_dtmcs : decode 7 ⟨.ir5, [false, false, false, false, true, true, false]⟩ = .ok (.dtmcs 2 1#64) := by decide +kernel
theorem test_decode_dmiaccess : decode 7 ⟨.ir5, [true, false, false, false, true, true, false]⟩ = .ok (.dmiaccess 2 1#64) := by decide +kernel
theorem test_decode_irUnused12 : decode 7 ⟨.ir5, [false, true, false, false, true, true, false]⟩ = .ok (.irUnused12 2 1#64) := by decide +kernel
theorem test_decode_irUnused13 : decode 7 ⟨.ir5, [true, true, false, false, true, true, false]⟩ = .ok (.irUnused13 2 1#64) := by decide +kernel
theorem test_decode_irUnused14 : decode 7 ⟨.ir5, [false, false, true, false, true, true, false]⟩ = .ok (.irUnused14 2 1#64) := by decide +kernel
theorem test_decode_irUnused15 : decode 7 ⟨.ir5, [true, false, true, false, true, true, false]⟩ = .ok (.irUnused15 2 1#64) := by decide +kernel
theorem test_decode_irUnused16 : decode 7 ⟨.ir5, [false, true, true, false, true, true, false]⟩ = .ok (.irUnused16 2 1#64) := by decide +kernel
theorem test_decode_irUnused17 : decode 7 ⟨.ir5, [true, true, true, false, true, true, false]⟩ = .ok (.irUnused17 2 1#64) := by decide +kernel
theorem test_decode_irUnused18 : decode 7 ⟨.ir5, [false, false, false, true, true, true, false]⟩ = .ok (.irUnused18 2 1#64) := by decide +kernel
theorem test_decode_irUnused19 : decode 7 ⟨.ir5, [true, false, false, true, true, true, false]⟩ = .ok (.irUnused19 2 1#64) := by decide +kernel
theorem test_decode_irUnused1A : decode 7 ⟨.ir5, [false, true, false, true, true, true, false]⟩ = .ok (.irUnused1A 2 1#64) := by decide +kernel
theorem test_decode_irUnused1B : decode 7 ⟨.ir5, [true, true, false, true, true, true, false]⟩ = .ok (.irUnused1B 2 1#64) := by decide +kernel
theorem test_decode_irUnused1C : decode 7 ⟨.ir5, [false, false, true, true, true, true, false]⟩ = .ok (.irUnused1C 2 1#64) := by decide +kernel
theorem test_decode_irUnused1D : decode 7 ⟨.ir5, [true, false, true, true, true, true, false]⟩ = .ok (.irUnused1D 2 1#64) := by decide +kernel
theorem test_decode_irUnused1E : decode 7 ⟨.ir5, [false, true, true, true, true, true, false]⟩ = .ok (.irUnused1E 2 1#64) := by decide +kernel
theorem test_decode_bypass1 : decode 7 ⟨.ir5, [true, true, true, true, true, true, false]⟩ = .ok (.bypass1 2 1#64) := by decide +kernel

/-! The DMI words of 95_test_vectors.md D2 with seven address bits, written out bit 0 first (R77): op, 32 data bits, address. -/

theorem test_decode_dmiNop : decode 7 ⟨.dmi, [false, false] ++ List.replicate 32 false ++ List.replicate 7 false⟩ =
    .ok (.dmiNop 0 0#32) := by decide +kernel
theorem test_decode_dmiRead : decode 7 ⟨.dmi, [true, false] ++ List.replicate 32 false ++
    [false, false, false, false, false, false, true]⟩ = .ok (.dmiRead 0x40 0#32) := by decide +kernel
theorem test_decode_dmiWrite : decode 7 ⟨.dmi, [false, true] ++ [true] ++ List.replicate 30 false ++ [true] ++
    [false, false, false, false, true, false, false]⟩ = .ok (.dmiWrite 0x10 0x80000001#32) := by decide +kernel
theorem test_decode_dmiOp3 : decode 7 ⟨.dmi, [true, true] ++ List.replicate 32 false ++
    [true, false, false, false, false, false, false]⟩ = .ok (.dmiOp3 1 0#32) := by decide +kernel
theorem test_decode_dtmcsDmireset : decode 7 ⟨.dr32Dtmcs, List.replicate 16 false ++ [true] ++ List.replicate 15 false⟩ =
    .ok (.dtmcsDmireset 0x00010000#32) := by decide +kernel
theorem test_decode_dtmcsDmihardreset : decode 7 ⟨.dr32Dtmcs, List.replicate 16 false ++ [true, true] ++
    List.replicate 14 false⟩ = .ok (.dtmcsDmihardreset 0x00030000#32) := by decide +kernel
theorem test_decode_tckCycle : decode 7 ⟨.cyc, [true, false]⟩ = .ok (.tckCycle true false) := by decide +kernel

/-! Refused by name: a wrong length, a DTMCS word without a command, a DR word that carries no instruction. -/

theorem test_decode_refusals : decode 7 ⟨.ir5, List.replicate 5 false⟩ = .error (.badLength .ir5 5) ∧
    decode 7 ⟨.ir5, List.replicate 70 false⟩ = .error (.badLength .ir5 70) ∧
    decode 7 ⟨.dmi, List.replicate 42 false⟩ = .error (.badLength .dmi 42) ∧
    decode 7 ⟨.dr32Dtmcs, List.replicate 32 false⟩ = .error .noCommand ∧
    decode 7 ⟨.dr32Dtmcs, List.replicate 31 true⟩ = .error (.badLength .dr32Dtmcs 31) ∧
    decode 7 ⟨.cyc, [true]⟩ = .error (.badLength .cyc 1) ∧ decode 7 ⟨.dr1, [true]⟩ = .error .noInstruction ∧
    decode 7 ⟨.dr32Idcode, List.replicate 32 true⟩ = .error .noInstruction := by decide +kernel

/-- Rows of spec/opcode_table.json in the table's numbering (log entry 3). -/
theorem test_decodeTableWord : decodeTableWord 8 0x11 = some (.dmiaccess 41 0#64) ∧ decodeTableWord 8 0x05 = some (.irUnused05 1 0#64) ∧
    decodeTableWord 24 0x10000 = some (.dtmcsDmireset 0x10000#32) ∧
    decodeTableWord 24 0x20000 = some (.dtmcsDmihardreset 0x20000#32) ∧
    decodeTableWord 0 0 = some (.tckCycle false false) := by decide +kernel

/-! ### Helpers -/

/-- The link right after `Tap.reset` from construction, with the parameters of 95_test_vectors.md. -/
def up : State := linkUp State.reset

/-- `up`, with another record of the last IR, as vector T5 asks. -/
def upOther : State := { up with h := { up.h with lastIr := 0x1e#5 } }

/-- `up` with the device and H in a given TAP state, an IR and a shift register. -/
def inState (x : TapState) (code : IrCode) (u : Bits) : State :=
  { up with t := { up.t with state := x, ir := code, drSr := u }, h := { up.h with state := x, lastIr := code } }

/-- `up` with a DMI status and a request in flight. -/
def withDtm (q : DmiStatus) (i : Option Inflight) (s : State) : State := { s with t := { s.t with status := q, inflight := i } }

/-- A state with M's next draws given. -/
def withM (ls : List Nat) (as : List DmiResponse) (s : State) : State := { s with m := { s.m with latencies := ls, answers := as } }

/-- A state with a cap on the simulated time. -/
def capAt (k : Nat) (s : State) : State := { s with g := { s.g with maxTime := k } }

/-- A state with H in a Dtm operation. -/
def atPosition (p : Position) (s : State) : State := { s with h := { s.h with position := some p } }

/-- A state with what `Dtm.reset` learns of the default device (vector D1), and a program. -/
def learned (cs : List HostCall) (s : State) : State :=
  { s with h := { s.h with idleCycles := 1, width := 41, mask := 0x7f, program := cs } }

/-- The value of a scan-out an instruction ends with. -/
def scanned (o : Out) : Option Nat :=
  match o with
  | .next s =>
    match s.h.ret with
    | .bits b => some (bitsVal b)
    | _ => none
  | .fault _ => none
  | .refused _ => none

/-- A field of the state an instruction ends in. -/
def after {α : Type} (f : State → α) (o : Out) : Option α :=
  match o with
  | .next s => some (f s)
  | .fault _ => none
  | .refused _ => none

/-- The two low bits of the scan-out H holds. -/
def resultOf (s : State) : Nat :=
  match s.h.ret with
  | .bits r => respResult r
  | .none | .unit | .flag _ | .data _ | .tdo _ | .time _ | .simEnded => 4

/-- How an instruction stops. -/
def faultOf (o : Out) : Option Fault :=
  match o with
  | .next _ => none
  | .fault r => some r
  | .refused _ => none

def refusalOf (o : Out) : Option Refusal :=
  match o with
  | .next _ => none
  | .fault _ => none
  | .refused r => some r

/-- A READ of address 0x11 in flight, with four cycles left. -/
def aRead : Inflight := ⟨⟨.read, 0x11, 0#32⟩, 4⟩

/-! ### Single steps against 95_test_vectors.md -/

/-- T5: BYPASS0 with `len` 4, `wdata` 0xb gives 6 in 18 cycles (110 + 18 * 20); the register then holds w[3]. -/
theorem test_bypass0_T5 : scanned (exec (.bypass0 4 0xb#64) upOther) = some 0x6 ∧
    after (fun s => (s.g.tick, s.t.drSr, s.t.state)) (exec (.bypass0 4 0xb#64) upOther) = some (470, [true], .updDR) := by
  decide +kernel
theorem test_bypass1_T5 : scanned (exec (.bypass1 8 0xff#64) upOther) = some 0xfe := by decide +kernel
theorem test_irUnused05_T5 : scanned (exec (.irUnused05 4 0x9#64) upOther) = some 0x2 := by decide +kernel
/-- R208: right after construction H's record is 0 while the device holds IDCODE, so BYPASS0 reads IDCODE. -/
theorem test_bypass0_stale_R208 : scanned (exec (.bypass0 4 0x0#64) up) = some 0xf := by decide +kernel
/-- T6: a 40-bit scan of IDCODE. -/
theorem test_idcode_T6 : scanned (exec (.idcode 40 0xab#64) up) = some 0xab1e200a6f := by decide +kernel
/-- T7: a 16-bit scan of DTMCS leaves a DMI reset in the shift register, after 30 cycles. -/
theorem test_dtmcs_T7 : scanned (exec (.dtmcs 16 0x1#64) up) = some 0x1071 ∧
    after (fun s => (bitsVal s.t.drSr, s.g.tick)) (exec (.dtmcs 16 0x1#64) up) = some (0x00010000, 710) := by decide +kernel
/-- P3, scan 6: DTMCS read with RETRY sticky gives dmistat 3. -/
theorem test_dtmcs_P3 : scanned (exec (.dtmcs 32 0x10000#64) (withDtm .retry none up)) = some 0x00001c71 := by decide +kernel
/-- P4, scan 6: an access of a DTM with a sticky ERROR reads result 2 and the stale data. -/
theorem test_dmiaccess_P4 : scanned (exec (.dmiaccess 41 0x1000000001#64)
    { up with t := { up.t with status := .error, respAddr := 0x11, respData := 0x1234#32 } }) = some 0x44000048d2 := by
  decide +kernel
/-- P6: the checks of an access. -/
theorem test_dmiaccess_P6 : faultOf (exec (.dmiaccess 65 0#64) up) = some (.scanTooLong 65) ∧
    refusalOf (exec (.dmiaccess 0 0#64) up) = some .zeroLengthScan := by decide +kernel

/-- M2: a capture that meets a request in flight reports 3 and makes it sticky. -/
theorem test_capture_M2 : after (fun s => (bitsVal (s.t.drSr.take 2), s.t.status))
    (exec (.tckCycle false false) (withDtm .ok (some aRead) (inState .capDR 0x11#5 []))) = some (3, .retry) := by decide +kernel
/-! M1 and M3. -/
theorem test_dmiNop_M1 : after (fun s => s.t.status) (exec (.dmiNop 0 0#32) (withDtm .ok (some aRead) up)) = some .retry ∧
    after (fun s => s.t.status) (exec (.dmiNop 0 0#32) (withDtm .error (some aRead) up)) = some .error := by decide +kernel
theorem test_dmiRead_M1 : after (fun s => (s.t.respAddr, s.t.inflight, s.m.requests)) (exec (.dmiRead 0x11 5#32) (withM [4] [] up)) =
    some (0x11, some aRead, [⟨.read, 0x11, 0#32⟩]) := by decide +kernel
theorem test_dmiWrite_M1 : after (fun s => s.m.requests) (exec (.dmiWrite 0x10 1#32) (withM [0] [] up)) =
      some [⟨.write, 0x10, 1#32⟩] ∧
    after (fun s => (s.t.status, s.m.requests)) (exec (.dmiWrite 0x10 1#32) (withDtm .error none up)) = some (.error, []) := by
  decide +kernel
theorem test_dmiOp3_M1 : refusalOf (exec (.dmiOp3 1 0#32) up) = some .dmiOpReserved := by decide +kernel
theorem test_dtmcsDmireset_M3 : after (fun s => (s.t.status, s.t.inflight))
    (exec (.dtmcsDmireset 0x00010000#32) (withDtm .retry (some aRead) up)) = some (.ok, some aRead) := by decide +kernel
theorem test_dtmcsDmihardreset_M3 : after (fun s => (s.t.status, s.t.inflight))
    (exec (.dtmcsDmihardreset 0x00030000#32) (withDtm .retry (some aRead) up)) = some (.ok, none) := by decide +kernel
/-- T1, K4: a cycle from Run-Test/Idle with TMS high ends in Select-DR-Scan, 20 ticks later. -/
theorem test_tckCycle_K4 : after (fun s => (s.t.state, s.h.state, s.g.tick)) (exec (.tckCycle true false) up) =
    some (.selDR, .selDR, 130) := by decide +kernel
/-- T8: TMS high inside the reset window is refused. -/
theorem test_tckCycle_T8 : refusalOf (exec (.tckCycle true false) State.reset) = some .resetWindowTms := by decide +kernel

/-- K2: `Tap.reset` from construction ends at tick 110 in Run-Test/Idle. -/
theorem test_tapReset_K2 : after (fun s => (s.h.ret, s.g.tick, s.t.state, s.t.ir)) (tapReset State.reset) =
    some (.flag true, 110, .rti, 0x01#5) := by decide +kernel
/-- K3: the cap. -/
theorem test_tapReset_K3 :
    after (fun s => (s.h.ret, s.g.tick)) (tapReset (State.initial { Config.defaultParams with maxTime := 50 })) =
      some (.flag false, 50) ∧
    after (fun s => (s.h.ret, s.g.tick)) (tapReset (State.initial { Config.defaultParams with maxTime := 105 })) =
      some (.flag false, 105) := by decide +kernel
/-- K1: the first rising edge after reset. -/
theorem test_advance_K1 : (advance State.reset).g.tick = 5 ∧ (advance State.reset).g.posedge = false ∧
    (advance (advance State.reset)).g.posedge = true := by decide +kernel

/-- D1, D2, D3: the host's words. -/
theorem test_learn_D1 : (dtmcsAbits (natBits 32 0x00005081), dtmcsIdle (natBits 32 0x00005081)) = (8, 5) := by decide +kernel
theorem test_pack_D2 : packRequest 2 0x04 0xdeadbeef 0x7f = 0x137ab6fbbe#64 ∧ packRequest 1 0x80 0 0x7f = 1#64 ∧
    packRequest 2 0x17 0x1ffffffff 0x7f = 0x5ffffffffe#64 := by decide +kernel
theorem test_unpack_D3 : respAddress (natBits 41 0x44000048d2) = 0x11 ∧ respDatum (natBits 41 0x44000048d2) = 0x1234#32 ∧
    respResult (natBits 41 0x44000048d2) = 2 := by decide +kernel

/-- The next step after a row's word is placed runs that row's instruction (log entry 2). -/
theorem test_fetch : scanned (step (State.reset.withFetchWord 8 0x01)) = some 0x1e200a6f ∧
    after (fun s => (s.t.state, s.t.status)) (step ((withDtm .error none up).withFetchWord 24 0x10000)) = some (.rti, .ok) ∧
    after (fun s => s.h.state) (step (State.reset.withFetchWord 0 0)) = some .rti := by decide +kernel

/-! ### Checkers for the premises of the statements -/

def clockB (s : State) : Bool :=
  decide (1 ≤ s.g.mainHalf) && decide (s.g.tckHalf = Config.tckHalfMult * s.g.mainHalf) &&
    decide (s.g.resetDur = Config.resetTckHalves * s.g.tckHalf) && decide (s.g.tick % s.g.mainHalf = 0) &&
    (s.g.clk == clockLevel s.g.tick s.g.mainHalf) && (s.g.tck == clockLevel s.g.tick s.g.tckHalf) &&
    (s.g.rstN == rstNLevel s.g.tick s.g.resetDur) && (s.g.lastTck == s.g.tck) && (s.t.pins.tck == s.g.tck)

theorem clock_of {s : State} (h : clockB s = true) : ClockOk s := by
  simp only [clockB, Bool.and_eq_true, decide_eq_true_eq, beq_iff_eq] at h
  obtain ⟨⟨⟨⟨⟨⟨⟨⟨a, b⟩, c⟩, d⟩, e⟩, f⟩, g⟩, i⟩, j⟩ := h
  exact ⟨a, b, c, d, e, f, g, i, j⟩

def notEndingB (n : Nat) (s : State) : Bool :=
  !s.g.finished && (decide (s.g.maxTime = 0) || decide (s.g.tick + n * (2 * s.g.tckHalf) < s.g.maxTime)) &&
    (match s.t.finishAt with
      | none => true
      | some k => decide (s.g.tick + n * (2 * s.g.tckHalf) < k))

theorem notEnding_of {n : Nat} {s : State} (h : notEndingB n s = true) : NotEnding n s := by
  simp only [notEndingB, Bool.and_eq_true, Bool.or_eq_true, decide_eq_true_eq, Bool.not_eq_true'] at h
  refine ⟨h.1.1, h.1.2, fun k hk => ?_⟩
  have h2 := h.2
  rw [Option.mem_def] at hk
  rw [hk] at h2
  exact of_decide_eq_true h2

def widthB (t : Device) : Bool := !t.state.holdsDr || decide (t.drSr.length = drLen t.par.abits t.ir)

theorem width_of {t : Device} (h : widthB t = true) : DrWidth t := by
  intro x
  simp only [widthB, x, Bool.not_true, Bool.false_or, decide_eq_true_eq] at h
  exact h

def readyB (n : Nat) (s : State) : Bool :=
  clockB s && decide (s.g.tick % (2 * s.g.tckHalf) = s.g.tckHalf) && decide (s.g.resetDur ≤ s.g.tick) && !s.t.fresh &&
    decide (s.h.state = s.t.state) && widthB s.t && notEndingB n s

theorem ready_of {n : Nat} {s : State} (h : readyB n s = true) : Ready n s := by
  simp only [readyB, Bool.and_eq_true, decide_eq_true_eq, Bool.not_eq_true'] at h
  obtain ⟨⟨⟨⟨⟨⟨a, b⟩, c⟩, d⟩, e⟩, f⟩, g⟩ := h
  exact ⟨⟨⟨clock_of a, b⟩, c, d, e, width_of f⟩, notEnding_of g⟩

def allowedB (t : Device) : Bool := !(decide (t.state = .updDR) && decide (t.ir = 0x11#5) && decide (3 ≤ dmiOpField t.drSr))

theorem allowed_of {t : Device} (h : allowedB t = true) : UpdateAllowed t := by
  rintro ⟨a, b, c⟩
  simp [allowedB, a, b, c] at h

def accessB (n : Nat) (code : IrCode) (len : Nat) (s : State) : Bool :=
  readyB (n + accessCycles code len s) s && startState s.h.state && allowedB s.t && decide (1 ≤ len) &&
    decide (len ≤ Config.maxScanLen)

theorem access_of {n : Nat} {code : IrCode} {len : Nat} {s : State} (h : accessB n code len s = true) :
    AccessReady n code len s := by
  simp only [accessB, Bool.and_eq_true, decide_eq_true_eq] at h
  obtain ⟨⟨⟨⟨a, b⟩, c⟩, d⟩, e⟩ := h
  exact ⟨ready_of a, b, allowed_of c, d, e⟩

def noUpdateB (t : Device) : Bool :=
  !decide (t.state = .updDR) ||
    ((!decide (t.ir = 0x11#5) || decide (dmiOpField t.drSr = 0)) &&
      (!decide (t.ir = 0x10#5) || (!(dtmcsField t.drSr).getLsbD 16 && !(dtmcsField t.drSr).getLsbD 17)))

theorem noUpdate_of {t : Device} (h : noUpdateB t = true) : NoUpdate t := by
  intro x
  simp only [noUpdateB, x, decide_true, Bool.not_true, Bool.false_or, Bool.and_eq_true, Bool.or_eq_true, Bool.not_eq_true',
    decide_eq_false_iff_not, decide_eq_true_eq] at h
  exact ⟨fun y => h.1.resolve_left (fun z => z y), fun y => h.2.resolve_left (fun z => z y)⟩

def quietB (t : Device) : Bool := t.inflight.isNone && noUpdateB t

theorem quiet_of {t : Device} (h : quietB t = true) : DtmQuiet t := by
  simp only [quietB, Bool.and_eq_true, Option.isNone_iff_eq_none] at h
  exact ⟨h.1, noUpdate_of h.2⟩

def coherentB (code : IrCode) (s : State) : Bool := !decide (s.h.lastIr = code) || decide (settledIr s.t = code)

theorem coherent_of {code : IrCode} {s : State} (h : coherentB code s = true) : Coherent code s := by
  intro x
  simp only [coherentB, x, decide_true, Bool.not_true, Bool.false_or, decide_eq_true_eq] at h
  exact h

def invB (s : State) : Bool :=
  clockB s && (decide (s.g.tick = 0) || decide (s.g.tick % (2 * s.g.tckHalf) = s.g.tckHalf) || allDone s) &&
    !(s.g.posedge && s.g.negedge) && (s.h.tmsDrv == s.g.tms) && (s.h.tdiDrv == s.g.tdi) && (s.g.rstN || s.t.fresh) &&
    (!s.t.fresh || (decide (s.t.state = .tlr) && decide (s.t.ir = 0x01#5) && decide (s.t.status = .ok) && s.t.inflight.isNone &&
      (decide (s.h.state = .tlr) || decide (s.h.state = .rti)))) &&
    (s.t.fresh || decide (s.h.state = s.t.state)) && widthB s.t && decide (s.t.respAddr < 2 ^ s.t.par.abits)

theorem inv_of {s : State} (h : invB s = true) : Inv s := by
  simp only [invB, Bool.and_eq_true, Bool.or_eq_true, decide_eq_true_eq, Bool.not_eq_true', beq_iff_eq, Bool.and_eq_false_imp,
    Option.isNone_iff_eq_none] at h
  obtain ⟨⟨⟨⟨⟨⟨⟨⟨⟨a, b⟩, c⟩, d⟩, e⟩, f⟩, g⟩, i⟩, j⟩, k⟩ := h
  refine ⟨clock_of a, ?_, fun x => ?_, ⟨d, e⟩, fun x => f.resolve_left (by rw [x]; decide), fun x => ?_, fun x => ?_, width_of j, k⟩
  · tauto
  · have := c x.1
    rw [x.2] at this
    cases this
  · have := g.resolve_left (by rw [x]; decide)
    tauto
  · exact i.resolve_left (by rw [x]; decide)

/-- An instruction that ends in a next state, seen through one field. -/
theorem next_of {α : Type} {f : State → α} {o : Out} {x : α} (h : after f o = some x) : ∃ s, o = .next s ∧ f s = x := by
  cases o with
  | next s => exact ⟨s, rfl, Option.some.inj h⟩
  | fault r => cases h
  | refused r => cases h

/-- The state of a machine that has run for a given time: G's levels at the tick, the device having seen them. -/
def atTick (tick : Nat) (s : State) : State :=
  { s with
    g := { s.g with
      tick := tick
      clk := clockLevel tick s.g.mainHalf
      tck := clockLevel tick s.g.tckHalf
      lastTck := clockLevel tick s.g.tckHalf
      rstN := rstNLevel tick s.g.resetDur }
    t := { s.t with pins := { s.t.pins with tck := clockLevel tick s.g.tckHalf } } }

/-! ### A case that meets the premises of each statement -/

theorem witness_ConstructionChecksItsParameters : Params.valid { Config.defaultParams with abits := 30, idle := 7 } = true ∧
    Params.valid { Config.defaultParams with abits := 31 } = false ∧ Params.valid { Config.defaultParams with abits := 6 } = false ∧
    Params.valid { Config.defaultParams with idle := 8 } = false ∧
    Params.valid { Config.defaultParams with irCapture := 0b00111#5 } = false := by decide +kernel

theorem witness_AdvanceKeepsTheClockConsistent : ClockOk State.reset ∧ ∃ s, advanceEval State.reset = .next s ∧ s.g.tick = 5 :=
  ⟨clock_of (by decide +kernel), next_of (f := fun s => s.g.tick) (by decide +kernel)⟩

/-- Before a rising edge, before a falling one, and before the one that ends the reset window. -/
theorem witness_EdgesFollowTheSchedule : ClockOk (atTick 5 State.reset) ∧ (advance (atTick 5 State.reset)).g.posedge = true ∧
    ClockOk (atTick 15 State.reset) ∧ (advance (atTick 15 State.reset)).g.negedge = true ∧
    ClockOk (atTick 95 State.reset) ∧ (advance (atTick 95 State.reset)).g.rstN = true :=
  ⟨clock_of (by decide +kernel), by decide +kernel, clock_of (by decide +kernel), by decide +kernel, clock_of (by decide +kernel),
    by decide +kernel⟩

/-- In reset and out of it. -/
theorem witness_QueriesReportAndChangeNothing : (∃ s, eval up = .next s ∧ s.t.state = .rti) ∧
    ClockOk State.reset ∧ State.reset.g.rstN = false ∧ ClockOk up ∧ up.g.rstN = true :=
  ⟨next_of (f := fun s => s.t.state) (by decide +kernel), clock_of (by decide +kernel), by decide +kernel,
    clock_of (by decide +kernel), by decide +kernel⟩

theorem witness_SettersReachTheDutAtEval : (∃ s, eval (setTms true up) = .next s ∧ s.t.pins.tms = true) ∧
    ∃ s, eval (setTdi true up) = .next s ∧ s.t.pins.tdi = true :=
  ⟨next_of (f := fun s => s.t.pins.tms) (by decide +kernel), next_of (f := fun s => s.t.pins.tdi) (by decide +kernel)⟩

theorem witness_EvalWithoutAdvanceStepsNothing : up.t.pins.tck = up.g.tck ∧ up.g.rstN = true := by decide +kernel

theorem witness_TckCycleMovesBothRecords : Ready (3 + 1) up ∧ UpdateAllowed up.t :=
  ⟨ready_of (by decide +kernel), allowed_of (by decide +kernel)⟩

/-- In each state a clause speaks of, and in one none does. -/
theorem witness_TckCycleActsOnTheScanRegisters :
    ∀ s ∈ [inState .tlr 0x01#5 [], inState .updIR 0x01#5 [], inState .capIR 0x01#5 [], inState .shIR 0x01#5 [],
        inState .capDR 0x01#5 [], inState .capDR 0x10#5 [], inState .capDR 0x1f#5 [], inState .shDR 0x1f#5 [true], up],
      Ready 1 s ∧ UpdateAllowed s.t := by
  have h : ([inState .tlr 0x01#5 [], inState .updIR 0x01#5 [], inState .capIR 0x01#5 [], inState .shIR 0x01#5 [],
      inState .capDR 0x01#5 [], inState .capDR 0x10#5 [], inState .capDR 0x1f#5 [], inState .shDR 0x1f#5 [true], up].all
        fun s => readyB 1 s && allowedB s.t) = true := by decide +kernel
  intro s hs
  have := List.all_eq_true.mp h s hs
  rw [Bool.and_eq_true] at this
  exact ⟨ready_of this.1, allowed_of this.2⟩

theorem witness_TckCycleInUpdateDrPerformsTheWord : Ready 1 (inState .updDR 0x11#5 (natBits 41 0x4400000001)) ∧
    UpdateAllowed (inState .updDR 0x11#5 (natBits 41 0x4400000001)).t ∧
    (inState .updDR 0x11#5 (natBits 41 0x4400000001)).t.state = .updDR :=
  ⟨ready_of (by decide +kernel), allowed_of (by decide +kernel), rfl⟩

/-- The condition under which the five cycles meet op 3, as the statement has it. -/
def meetsOp3 (tdi : Bool) (s : State) : Bool :=
  decide (s.t.ir = 0x11#5) &&
    ((decide (s.t.state = .capDR) && (decide (s.t.status = .retry) || (decide (s.t.status = .ok) && s.t.inflight.isSome))) ||
      (decide (s.t.state = .shDR) && decide (3 ≤ dmiOpField (s.t.drSr.drop 1 ++ [tdi]))) ||
      ((decide (s.t.state = .ex1DR) || decide (s.t.state = .pauseDR) || decide (s.t.state = .ex2DR)) &&
        decide (3 ≤ dmiOpField s.t.drSr)))

/-- States outside the condition, two of them next to it, and one for each of its branches. -/
theorem witness_FiveHighTmsReachTestLogicReset :
    (∀ s ∈ [up, inState .updIR 0x11#5 [], inState .capDR 0x11#5 [], inState .shDR 0x11#5 (natBits 41 3)],
      Ready 5 s ∧ UpdateAllowed s.t ∧ meetsOp3 false s = false) ∧
    ∀ s ∈ [withDtm .retry none (inState .capDR 0x11#5 []), withDtm .ok (some aRead) (inState .capDR 0x11#5 []),
        inState .shDR 0x11#5 (natBits 41 6), inState .ex1DR 0x11#5 (natBits 41 3), inState .pauseDR 0x11#5 (natBits 41 3),
        inState .ex2DR 0x11#5 (natBits 41 3)],
      Ready 5 s ∧ UpdateAllowed s.t ∧ meetsOp3 false s = true := by
  have h (l : List State) (x : Bool) (h : (l.all fun s => readyB 5 s && allowedB s.t && (meetsOp3 false s == x)) = true) :
      ∀ s ∈ l, Ready 5 s ∧ UpdateAllowed s.t ∧ meetsOp3 false s = x := by
    intro s hs
    have := List.all_eq_true.mp h s hs
    simp only [Bool.and_eq_true, beq_iff_eq] at this
    exact ⟨ready_of this.1.1, allowed_of this.1.2, this.2⟩
  exact ⟨h _ _ (by decide +kernel), h _ _ (by decide +kernel)⟩

/-- At construction, and at the last rising edge inside the window. -/
theorem witness_ResetWindowRefusesHighTms : Inv State.reset ∧ State.reset.t.fresh = true ∧ NotEnding 1 State.reset ∧
    Inv (atTick 90 State.reset) ∧ (atTick 90 State.reset).t.fresh = true ∧ NotEnding 1 (atTick 90 State.reset) :=
  ⟨inv_of (by decide +kernel), rfl, notEnding_of (by decide +kernel), inv_of (by decide +kernel), rfl, notEnding_of (by decide +kernel)⟩

/-- A cycle that ends inside the window (70 to 90) and the one that leaves it (90 to 110). -/
theorem witness_ResetWindowHoldsTheDevice : Inv (atTick 70 State.reset) ∧ (atTick 70 State.reset).t.fresh = true ∧
    NotEnding 1 (atTick 70 State.reset) ∧ Inv (atTick 90 State.reset) ∧ (atTick 90 State.reset).t.fresh = true ∧
    NotEnding 1 (atTick 90 State.reset) ∧ Inv State.reset ∧ NotEnding 1 State.reset :=
  ⟨inv_of (by decide +kernel), rfl, notEnding_of (by decide +kernel), inv_of (by decide +kernel), rfl, notEnding_of (by decide +kernel),
    inv_of (by decide +kernel), notEnding_of (by decide +kernel)⟩

theorem witness_TapResetBringsTheLinkUp : Params.valid Config.defaultParams = true ∧
    Config.defaultParams.tckHalfMult = Config.tckHalfMult ∧ Config.defaultParams.resetTckHalves = Config.resetTckHalves ∧
    Config.defaultParams.maxTime = 0 ∧ Params.valid { Config.defaultParams with maxTime := 131 } = true ∧
    Config.defaultParams.resetDur + Config.defaultParams.tckHalf + 1 * (2 * Config.defaultParams.tckHalf) < 131 := by
  decide +kernel

theorem witness_LaterTapResetIsOneIdleCycle : Ready (2 + 1) up ∧ UpdateAllowed up.t ∧ startState up.h.state = true ∧
    up.t.state ≠ .tlr ∧ up.t.state ≠ .capDR ∧ DtmQuiet up.t :=
  ⟨ready_of (by decide +kernel), allowed_of (by decide +kernel), by decide +kernel, by decide +kernel, by decide +kernel,
    quiet_of (by decide +kernel)⟩

theorem witness_DmiRequestsAreHandedToM : (withM [3] [] up).t.status = .ok ∧ (withM [3] [] up).t.inflight = none ∧
    (withM [3] [] up).m.latencies = 3 :: [] := by decide +kernel

theorem witness_DmiOpsAreDropped : (withDtm .retry none up).t.status ≠ .ok ∧ (withDtm .ok (some aRead) up).t.status = .ok ∧
    (withDtm .ok (some aRead) up).t.inflight ≠ none ∧ up.t.inflight = none := by decide +kernel

/-- With op 3 waiting under the DMI register, on a link that is up, and at a falling edge of TCK before its `eval`. -/
theorem witness_ReservedDmiOpIsRefused : Ready 1 (inState .updDR 0x11#5 (natBits 41 3)) ∧
    ¬ UpdateAllowed (inState .updDR 0x11#5 (natBits 41 3)).t ∧
    refusalOf (exec (.idcode 1 0#64) (inState .updDR 0x11#5 (natBits 41 3))) = some .dmiOpReserved ∧
    (advance (advance (inState .updDR 0x11#5 (natBits 41 3)))).g.rstN = true ∧
    (advance (advance (inState .updDR 0x11#5 (natBits 41 3)))).t.pins.tck = true ∧
    (advance (advance (inState .updDR 0x11#5 (natBits 41 3)))).g.tck = false :=
  ⟨ready_of (by decide +kernel), fun h => h ⟨rfl, rfl, by decide +kernel⟩, by decide +kernel, by decide +kernel, by decide +kernel,
    by decide +kernel⟩

theorem witness_DtmcsCommandsResetTheDmi : (0x00030000#32).getLsbD 17 = true ∧ (0x00010000#32).getLsbD 17 = false ∧
    (0x00010000#32).getLsbD 16 = true ∧ (0x0000ffff#32).getLsbD 17 = false ∧ (0x0000ffff#32).getLsbD 16 = false := by decide

theorem witness_UpdateRunsTheDecodedWord :
    decode 7 ⟨.dmi, natBits 41 0x4400000001⟩ = .ok (.dmiRead 0x11 0#32) ∧
    decode 7 ⟨.dr32Dtmcs, natBits 32 0x10000⟩ = .ok (.dtmcsDmireset 0x10000#32) ∧
    decode 7 ⟨.dr32Dtmcs, natBits 32 0⟩ = .error .noCommand ∧ (inState .updDR 0x11#5 []).t.par.abits = 7 ∧
    (inState .updDR 0x1f#5 []).t.ir ≠ 0x10#5 ∧ (inState .updDR 0x1f#5 []).t.ir ≠ 0x11#5 := by decide +kernel

/-- With `n` at `r` and one past it. -/
theorem witness_RequestIsAnsweredAfterItsLatency : Ready 4 (withDtm .ok (some aRead) up) ∧ Ready 5 (withDtm .ok (some aRead) up) ∧
    (withDtm .ok (some aRead) up).t.state = .rti ∧ (withDtm .ok (some aRead) up).t.inflight = some ⟨⟨.read, 0x11, 0#32⟩, 4⟩ :=
  ⟨ready_of (by decide +kernel), ready_of (by decide +kernel), by decide +kernel, rfl⟩

theorem witness_DmiCaptureReportsTheStatus :
    (∀ q : DmiStatus, ∀ i ∈ [none, some aRead, some ⟨⟨.write, 1, 2#32⟩, 0⟩], Ready 1 (withDtm q i (inState .capDR 0x11#5 []))) ∧
    (inState .capDR 0x11#5 []).t.state = .capDR ∧ (inState .capDR 0x11#5 []).t.ir = 0x11#5 := by
  refine ⟨fun q i _ => ready_of ?_, rfl, rfl⟩
  show readyB 1 (inState .capDR 0x11#5 []) = true
  decide +kernel

/-- DMIRESET of a RETRY, a capture that meets a request, a failing answer to a request in flight, and one to a request that the
cycle's own Update-DR hands over. -/
theorem witness_StickyStatusChangesOnlyByRule :
    Ready 1 (withDtm .retry none (inState .updDR 0x10#5 (natBits 32 0x10000))) ∧
    UpdateAllowed (inState .updDR 0x10#5 (natBits 32 0x10000)).t ∧
    after (fun s => s.t.status) (exec (.tckCycle false false) (withDtm .retry none (inState .updDR 0x10#5 (natBits 32 0x10000)))) =
      some .ok ∧
    Ready 1 (withDtm .ok (some aRead) (inState .capDR 0x11#5 [])) ∧ UpdateAllowed (inState .capDR 0x11#5 []).t ∧
    after (fun s => s.t.status) (exec (.tckCycle false false) (withDtm .ok (some aRead) (inState .capDR 0x11#5 []))) =
      some .retry ∧
    Ready 1 (withM [] [⟨0#32, false⟩] (withDtm .ok (some ⟨⟨.write, 1, 2#32⟩, 0⟩) up)) ∧
    after (fun s => s.t.status) (exec (.tckCycle false false)
      (withM [] [⟨0#32, false⟩] (withDtm .ok (some ⟨⟨.write, 1, 2#32⟩, 0⟩) up))) = some .error ∧
    Ready 1 (withM [0] [⟨0#32, false⟩] (inState .updDR 0x11#5 (natBits 41 0x4400000001))) ∧
    after (fun s => s.t.status) (exec (.tckCycle false false)
      (withM [0] [⟨0#32, false⟩] (inState .updDR 0x11#5 (natBits 41 0x4400000001)))) = some .error :=
  ⟨ready_of (by decide +kernel), allowed_of (by decide +kernel), by decide +kernel, ready_of (by decide +kernel),
    allowed_of (by decide +kernel), by decide +kernel, ready_of (by decide +kernel), by decide +kernel,
    ready_of (by decide +kernel), by decide +kernel⟩

/-- For every code of the statement, at the shortest and the longest scan. -/
theorem witness_BypassAccessDelaysTheScanIn :
    ∀ code ∈ [0x00#5, 0x02#5, 0x03#5, 0x04#5, 0x05#5, 0x06#5, 0x07#5, 0x08#5, 0x09#5, 0x0a#5, 0x0b#5, 0x0c#5, 0x0d#5, 0x0e#5, 0x0f#5,
        0x12#5, 0x13#5, 0x14#5, 0x15#5, 0x16#5, 0x17#5, 0x18#5, 0x19#5, 0x1a#5, 0x1b#5, 0x1c#5, 0x1d#5, 0x1e#5, 0x1f#5],
      AccessReady 2 code 1 (inState .rti 0x01#5 []) ∧ AccessReady 2 code 64 (inState .rti 0x01#5 []) ∧
        Coherent code (inState .rti 0x01#5 []) := by
  have h : ([0x00#5, 0x02#5, 0x03#5, 0x04#5, 0x05#5, 0x06#5, 0x07#5, 0x08#5, 0x09#5, 0x0a#5, 0x0b#5, 0x0c#5, 0x0d#5, 0x0e#5, 0x0f#5,
      0x12#5, 0x13#5, 0x14#5, 0x15#5, 0x16#5, 0x17#5, 0x18#5, 0x19#5, 0x1a#5, 0x1b#5, 0x1c#5, 0x1d#5, 0x1e#5, 0x1f#5].all
        fun code => accessB 2 code 1 (inState .rti 0x01#5 []) && accessB 2 code 64 (inState .rti 0x01#5 []) &&
          coherentB code (inState .rti 0x01#5 [])) = true := by decide +kernel
  intro code hc
  have := List.all_eq_true.mp h code hc
  simp only [Bool.and_eq_true] at this
  exact ⟨access_of this.1.1, access_of this.1.2, coherent_of this.2⟩

/-- With and without an IR scan. -/
theorem witness_IdcodeAccessReadsTheIdcode : AccessReady 2 0x01#5 32 up ∧ Coherent 0x01#5 up ∧
    AccessReady 2 0x01#5 64 (inState .updDR 0x01#5 (natBits 32 0)) ∧ Coherent 0x01#5 (inState .updDR 0x01#5 (natBits 32 0)) :=
  ⟨access_of (by decide +kernel), coherent_of (by decide +kernel), access_of (by decide +kernel), coherent_of (by decide +kernel)⟩

theorem witness_DtmcsAccessReadsTheRegister : AccessReady 2 0x10#5 32 up ∧ Coherent 0x10#5 up ∧ DtmQuiet up.t ∧
    AccessReady 2 0x10#5 1 (inState .updDR 0x10#5 (natBits 32 0x10000)) ∧
    Coherent 0x10#5 (inState .updDR 0x10#5 (natBits 32 0x10000)) ∧
    AccessReady 2 0x10#5 32 (withDtm .retry (some aRead) up) ∧ NoUpdate (withDtm .retry (some aRead) up).t ∧
    (withDtm .retry (some aRead) up).t.status ≠ .ok :=
  ⟨access_of (by decide +kernel), coherent_of (by decide +kernel), quiet_of (by decide +kernel), access_of (by decide +kernel),
    coherent_of (by decide +kernel), access_of (by decide +kernel), noUpdate_of (by decide +kernel), by decide +kernel⟩

theorem witness_DmiaccessAccessReadsTheRegister : AccessReady 2 0x11#5 41 up ∧ Coherent 0x11#5 up ∧ DtmQuiet up.t ∧
    AccessReady 2 0x11#5 41 (inState .updDR 0x11#5 (natBits 41 0x4400000001)) ∧
    Coherent 0x11#5 (inState .updDR 0x11#5 (natBits 41 0x4400000001)) ∧ NoUpdate (inState .updDR 0x11#5 (natBits 41 0)).t ∧
    AccessReady 2 0x11#5 41 (withDtm .error (some aRead) up) ∧ NoUpdate (withDtm .error (some aRead) up).t ∧
    (withDtm .error (some aRead) up).t.status ≠ .ok :=
  ⟨access_of (by decide +kernel), coherent_of (by decide +kernel), quiet_of (by decide +kernel), access_of (by decide +kernel),
    coherent_of (by decide +kernel), noUpdate_of (by decide +kernel), access_of (by decide +kernel), noUpdate_of (by decide +kernel),
    by decide +kernel⟩

theorem witness_StaleLastIrReadsIdcode : AccessReady 2 0x00#5 32 up ∧ up.h.lastIr = 0x00#5 ∧ settledIr up.t = 0x01#5 :=
  ⟨access_of (by decide +kernel), by decide +kernel, by decide +kernel⟩

theorem witness_AccessChecksComeFirst : 64 < 65 ∧ (1 ≤ 64 ∧ 64 ≤ 64) ∧ State.reset.h.state ≠ .rti ∧
    State.reset.h.state ≠ .updDR ∧ State.reset.h.state ≠ .updIR := by decide +kernel

theorem witness_EndedSimulationStopsEveryOperation : allDone (capAt 110 up) = true ∧
    startState up.h.state = true := by decide +kernel

/-- A scan that ends, one the simulation ends before, a fault and a refusal. -/
theorem witness_WriteRegDiscardsTheScanOut :
    scanned (runCall (.accessReg 0x1f#5 1#64 1) up) = some 0 ∧
    after (fun s => s.h.ret) (runCall (.accessReg 0x1f#5 1#64 1) (capAt 110 up)) = some .simEnded ∧
    faultOf (runCall (.accessReg 0x1f#5 1#64 65) up) = some (.scanTooLong 65) ∧
    refusalOf (runCall (.accessReg 0x1f#5 1#64 0) up) = some .zeroLengthScan := by decide +kernel

theorem witness_PackedRequestReadsBack : ReqOp.write.code ≤ 2 ∧ Config.defaultParams.abits ≤ 30 ∧ DmiStatus.retry.code ≤ 3 := by
  decide +kernel

theorem witness_DtmcsReadTeachesTheHost : up.t.par.abits < 64 ∧ up.t.par.idle < 8 ∧
    { up.t.par with abits := 63, idle := 7 }.abits < 64 := by decide +kernel

/-- A poll that reads RETRY, one that reads OK, one that reads ERROR, the DMI reset after a RETRY, and a poll the simulation ends
before. -/
theorem witness_PollsFollowTheRetryPolicy :
    after resultOf (exec (decodeIr 0x11#5 41 0#64) (withDtm .retry none (atPosition (.poll .read 0x11) (learned [] up)))) = some 3 ∧
    after resultOf (exec (decodeIr 0x11#5 41 0#64) (withDtm .ok none (atPosition (.poll .write 0x11) (learned [] up)))) = some 0 ∧
    after resultOf (exec (decodeIr 0x11#5 41 0#64) (withDtm .error none (atPosition (.poll .write 0x11) (learned [] up)))) = some 2 ∧
    after resultOf (exec (decodeIr 0x10#5 32 0x00010000#64) (atPosition (.retryReset .read 0x11) (learned [] up))) = some 1 ∧
    after (fun s => s.h.ret) (exec (decodeIr 0x11#5 41 0#64)
      (atPosition (.poll .read 0x11) (learned [] (capAt 110 up)))) = some .simEnded ∧
    after (fun s => s.h.position) (step (withDtm .retry none (atPosition (.poll .read 0x11) (learned [] up)))) =
      some (some (.retryReset .read 0x11)) ∧
    after (fun s => s.h.diag) (step (withDtm .error none (atPosition (.poll .write 0x11) (learned [] up)))) = some [⟨0x11, 2⟩] := by
  decide +kernel

/-- With M's latency at the dwell count plus 2 and one past it. -/
theorem witness_SameIrPollSeesTheAnswerInTime : ∀ d ∈ [3, 4],
    let s := withM [d] [⟨0xc82#32, true⟩] (inState .updDR 0x11#5 (natBits 41 0x4400000001))
    AccessReady 2 0x11#5 (34 + s.t.par.abits) s ∧ s.h.lastIr = 0x11#5 ∧ s.t.state = .updDR ∧ s.t.ir = 0x11#5 ∧
      dmiOpField s.t.drSr = 1 ∧ s.t.status = .ok ∧ s.t.inflight = none ∧ s.m.latencies = d :: [] ∧
      s.m.answers = ⟨0xc82#32, true⟩ :: [] ∧ s.h.idleCycles + 2 = 3 := by
  intro d _
  refine ⟨access_of ?_, rfl, rfl, rfl, ?_, ?_, ?_, rfl, rfl, ?_⟩
  · show accessB 2 0x11#5 (34 + up.t.par.abits) (inState .updDR 0x11#5 (natBits 41 0x4400000001)) = true
    decide +kernel
  · show dmiOpField (natBits 41 0x4400000001) = 1
    decide +kernel
  · show up.t.status = .ok
    decide +kernel
  · show up.t.inflight = none
    decide +kernel
  · show up.h.idleCycles + 2 = 3
    decide +kernel

/-- A read and a write with M answering at the last moment. -/
theorem witness_DmiOperationReachesM : ∀ c ∈ [HostCall.dmiRead 0x11, .dmiWrite 0x10 1],
    let s := withM [3] [⟨0xc82#32, true⟩] (learned [c] up)
    s.h.position = none ∧ s.h.program = c :: [] ∧ s.t.par.abits ≤ 30 ∧ s.h.width = 34 + s.t.par.abits ∧
      s.h.mask = 2 ^ s.t.par.abits - 1 ∧ AccessReady (2 + (s.h.width + s.h.idleCycles + 5)) 0x11#5 s.h.width s ∧ Coherent 0x11#5 s ∧
      DtmQuiet s.t ∧ s.t.status = .ok ∧ s.m.latencies = 3 :: [] ∧ s.m.answers = ⟨0xc82#32, true⟩ :: [] ∧ 3 ≤ s.h.idleCycles + 2 := by
  intro c _
  refine ⟨?_, rfl, ?_, ?_, ?_, access_of ?_, coherent_of ?_, quiet_of ?_, ?_, rfl, rfl, show 3 ≤ 1 + 2 by decide⟩
  · show up.h.position = none
    decide +kernel
  · show up.t.par.abits ≤ 30
    decide +kernel
  · show 41 = 34 + up.t.par.abits
    decide +kernel
  · show 0x7f = 2 ^ up.t.par.abits - 1
    decide +kernel
  · show accessB (2 + (41 + 1 + 5)) 0x11#5 41 (learned [] up) = true
    decide +kernel
  · show coherentB 0x11#5 up = true
    decide +kernel
  · show quietB up.t = true
    decide +kernel
  · show up.t.status = .ok
    decide +kernel

theorem witness_WriteThenReadReturnsTheDatum :
    let s := withM [3, 0] [⟨0#32, true⟩, ⟨1#32, true⟩] (learned [.dmiWrite 0x10 1, .dmiRead 0x10] up)
    s.h.position = none ∧ s.h.program = [.dmiWrite 0x10 1, .dmiRead 0x10] ∧ s.t.par.abits ≤ 30 ∧
      s.h.width = 34 + s.t.par.abits ∧ s.h.mask = 2 ^ s.t.par.abits - 1 ∧
      AccessReady (2 + 3 * (s.h.width + s.h.idleCycles + 5)) 0x11#5 s.h.width s ∧ Coherent 0x11#5 s ∧ DtmQuiet s.t ∧
      s.t.status = .ok ∧ s.m.latencies = [3, 0] ∧ s.m.answers = [⟨0#32, true⟩, ⟨1#32, true⟩] ∧ 3 ≤ s.h.idleCycles + 2 ∧
      (⟨1#32, true⟩ : DmiResponse).rdata = BitVec.ofNat 32 1 :=
  ⟨by decide +kernel, rfl, by decide +kernel, by decide +kernel, by decide +kernel, access_of (by decide +kernel),
    coherent_of (by decide +kernel), quiet_of (by decide +kernel), by decide +kernel, rfl, rfl, by decide, rfl⟩

theorem witness_DtmResetLearnsTheDevice : Params.valid { Config.defaultParams with maxTime := 2731 } = true ∧
    Config.defaultParams.resetDur + Config.defaultParams.tckHalf +
      (1 + (46 + 46 + (37 + Config.defaultParams.idle))) * (2 * Config.defaultParams.tckHalf) < 2731 := by decide +kernel

theorem witness_DecodeUndoesEncode : WellFormed 7 (.dmiWrite 0x7f 0xffffffff#32) = true ∧ WellFormed 7 (.idcode 64 0#64) = true ∧
    WellFormed 7 (.dtmcsDmireset 0x00010000#32) = true ∧ WellFormed 7 (.tckCycle true true) = true := by decide +kernel

theorem witness_EncodeUndoesDecode : decode 7 ⟨.ir5, List.replicate 69 true⟩ = .ok (.bypass1 64 0xffffffffffffffff#64) ∧
    decode 7 ⟨.dmi, List.replicate 41 true⟩ = .ok (.dmiOp3 0x7f 0xffffffff#32) := by decide +kernel

theorem witness_StepRunsTheNextInstruction :
    (loadCall (.cycle true false) up).h.position = none ∧
    (loadCall (.cycle true false) up).h.program = [.cycle true false] ∧
    (HostCall.cycle true false).instr? = some (.tckCycle true false) ∧
    decode 7 ⟨.ir5, List.replicate 6 true⟩ = .ok (.bypass1 1 1#64) ∧
    (atPosition .readIdcode up).h.position = some .readIdcode ∧
    scanned (exec (Position.readIdcode.instr up.h) (atPosition .readIdcode up)) = some 0x1e200a6f := by decide +kernel

theorem witness_ConstructionMeetsTheInvariant : Params.valid Config.defaultParams = true ∧
    Config.defaultParams.tckHalfMult = Config.tckHalfMult ∧ Config.defaultParams.resetTckHalves = Config.resetTckHalves := by
  decide +kernel

theorem witness_StepKeepsTheInvariant : Inv (loadCall .tapReset State.reset) ∧
    ∃ s, step (loadCall .tapReset State.reset) = .next s ∧ s.t.state = .rti :=
  ⟨inv_of (by decide +kernel), next_of (f := fun s => s.t.state) (by decide +kernel)⟩

theorem witness_StepKeepsTheFixedParts : ∃ s, step (loadCall (.accessReg 0x10#5 0#64 32) up) = .next s ∧ s.t.ir = 0x10#5 :=
  next_of (f := fun s => s.t.ir) (by decide +kernel)

theorem overAt_of_cap {k : Nat} {s : State} (h : (decide (s.g.maxTime ≠ 0) && decide (s.g.maxTime ≤ k)) = true) : OverAt k s := by
  rw [Bool.and_eq_true] at h
  exact .inl ⟨of_decide_eq_true h.1, of_decide_eq_true h.2⟩

/-- Over before the falling edge, after it, and by `$finish` at the last advance but one. -/
theorem witness_SimulationEndsInsideACycle :
    Ready 0 (capAt 115 up) ∧ UpdateAllowed up.t ∧ OverAt ((capAt 115 up).g.tick + 2 * up.g.tckHalf - up.g.mainHalf) (capAt 115 up) ∧
    Ready 0 (capAt 120 (inState .updDR 0x11#5 (natBits 41 0x4400000001))) ∧
    Ready 0 { up with t := { up.t with finishAt := some 125 } } ∧
    OverAt (up.g.tick + 2 * up.g.tckHalf - up.g.mainHalf) { up with t := { up.t with finishAt := some 125 } } ∧
    after (fun s => (s.h.ret, s.g.tick)) (exec (.tckCycle true false) { up with t := { up.t with finishAt := some 125 } }) =
      some (.simEnded, 125) :=
  ⟨ready_of (by decide +kernel), allowed_of (by decide +kernel), overAt_of_cap (by decide +kernel), ready_of (by decide +kernel),
    ready_of (by decide +kernel), .inr ⟨125, rfl, by decide +kernel⟩, by decide +kernel⟩

/-- Over inside the IR path (R161: four cycles on, in Shift-IR) and inside the DR scan, which as the
first scan of `Dtm.reset` is vector K3: at tick 500, in Shift-DR. -/
theorem witness_SimulationEndsInsideAnAccess : (∀ k ∈ [200, 500], Ready 0 (capAt k up) ∧ startState (capAt k up).h.state = true ∧
      UpdateAllowed (capAt k up).t ∧
      OverAt ((capAt k up).g.tick + accessCycles 0x01#5 32 (capAt k up) * (2 * (capAt k up).g.tckHalf) - (capAt k up).g.mainHalf)
        (capAt k up)) ∧
    after (fun s => (s.h.ret, s.g.tick, s.t.state, s.h.lastIr)) (exec (.idcode 32 0#64) (capAt 200 up)) =
      some (.simEnded, 200, .shIR, 0#5) ∧
    after (fun s => (s.h.ret, s.g.tick, s.t.state, s.h.lastIr)) (exec (.idcode 32 0#64) (capAt 500 up)) =
      some (.simEnded, 500, .shDR, 0x01#5) ∧
    (atPosition .readIdcode (capAt 500 up)).h.position = some .readIdcode ∧
    after (fun s => s.h.ret) (exec (Position.readIdcode.instr up.h) (atPosition .readIdcode (capAt 500 up))) = some .simEnded := by
  refine ⟨?_, by decide +kernel, by decide +kernel, rfl, by decide +kernel⟩
  have h : ([200, 500].all fun k => readyB 0 (capAt k up) && startState (capAt k up).h.state && allowedB (capAt k up).t &&
      (decide ((capAt k up).g.maxTime ≠ 0) && decide ((capAt k up).g.maxTime ≤
        (capAt k up).g.tick + accessCycles 0x01#5 32 (capAt k up) * (2 * (capAt k up).g.tckHalf) - (capAt k up).g.mainHalf))) =
      true := by decide +kernel
  intro k hk
  have := List.all_eq_true.mp h k hk
  rw [Bool.and_eq_true, Bool.and_eq_true, Bool.and_eq_true] at this
  exact ⟨ready_of this.1.1.1, this.1.1.2, allowed_of this.1.2, overAt_of_cap this.2⟩

/-- The caps of vector K3, and one inside the later cycle. -/
theorem witness_SimulationEndsInsideTapReset :
    (∀ k ∈ [50, 105], let p : Params := { Config.defaultParams with maxTime := k }
      Params.valid p = true ∧ p.tckHalfMult = Config.tckHalfMult ∧ p.resetTckHalves = Config.resetTckHalves ∧ p.maxTime ≠ 0 ∧
        p.maxTime ≤ p.resetDur + p.tckHalf - p.mainHalf ∧
        after (fun s => s.h.ret) (runCall .tapReset (State.initial p)) = some (.flag false)) ∧
    Ready 0 (capAt 125 up) ∧ UpdateAllowed (capAt 125 up).t ∧
    OverAt ((capAt 125 up).g.tick + 2 * (capAt 125 up).g.tckHalf - (capAt 125 up).g.mainHalf) (capAt 125 up) :=
  ⟨by decide +kernel, ready_of (by decide +kernel), allowed_of (by decide +kernel), overAt_of_cap (by decide +kernel)⟩

end Sys2Proof.Tests
end

section
/-! Construction (R8, R9, R101): `Params.valid` read as a proposition, and what construction answers. -/

namespace Sys2Proof.Machine

theorem getLsbD_zero_iff {w : Nat} (x : BitVec w) : x.getLsbD 0 = true ↔ x.toNat % 2 = 1 := by
  rw [BitVec.getLsbD, Nat.testBit_zero, decide_eq_true_eq]

/-- An IDCODE with bit 0 set is not 0, so of R9's two tests on it the one of bit 0 is enough. -/
theorem ne_zero_of_getLsbD_zero {w : Nat} {x : BitVec w} (h : x.getLsbD 0 = true) : x ≠ 0#w := by
  rintro rfl
  simp at h

/-- The two low bits of a word are 01 exactly where it is 1 modulo 4 (R8's `IR_CAPTURE`). -/
theorem low_bits_01_iff {w : Nat} (x : BitVec w) :
    (x.getLsbD 0 = true ∧ x.getLsbD 1 = false) ↔ x.toNat % 4 = 1 := by
  have h1 : x.getLsbD 1 = false ↔ ¬ x.toNat / 2 % 2 = 1 := by
    rw [BitVec.getLsbD, Nat.testBit_succ, Nat.testBit_zero, decide_eq_false_iff_not]
  rw [getLsbD_zero_iff, h1]
  omega

theorem valid_iff (p : Params) :
    Params.valid p = true ↔
      p.periodNs % 2 = 0 ∧ 1 ≤ p.mainHalf ∧ 1 ≤ p.tckHalfMult ∧ 1 ≤ p.resetTckHalves ∧ 7 ≤ p.abits ∧ p.abits ≤ 30 ∧
        p.idle ≤ 7 ∧ p.idcode.toNat % 2 = 1 ∧ p.irCapture.toNat % 4 = 1 := by
  have hid : (p.idcode ≠ 0#32 ∧ p.idcode.getLsbD 0 = true) ↔ p.idcode.toNat % 2 = 1 := by
    rw [← getLsbD_zero_iff]
    exact and_iff_right_of_imp ne_zero_of_getLsbD_zero
  simp only [Params.valid, Bool.and_eq_true, decide_eq_true_eq, Bool.not_eq_true', hid, low_bits_01_iff, and_assoc]

theorem construct_of_valid {p : Params} (h : Params.valid p = true) : construct p = .next (State.initial p) := if_pos h

theorem construct_of_not_valid {p : Params} (h : ¬ Params.valid p = true) : construct p = .refused .badParameter := if_neg h

end Sys2Proof.Machine

open Sys2Proof Sys2Proof.Machine

/-- Settles O2: the constraints of the statement are `Params.valid` read as a proposition. -/
theorem constructionChecksItsParameters : Obligations.ConstructionChecksItsParameters := by
  intro p
  exact ⟨fun h => construct_of_valid ((valid_iff p).mpr h), fun h => construct_of_not_valid (mt (valid_iff p).mp h)⟩
end

section
/-! The fixed parts over a step (R8, R64, R188, R192, R197): from the operations of Laws/Fixed to the calls, the scans of the Dtm
operations and the step. -/

namespace Sys2Proof.Machine

theorem execTckCycle_fixed {a b : Bool} {s s' : State} (e : execTckCycle a b s = .next s') : FixedParts s s' := by
  have k := cycle_fixed a b s
  unfold execTckCycle at e
  split at e
  case h_1 z => cases e; exact (k.done _ _ z).trans (.of_h rfl rfl rfl rfl)
  case h_2 z => cases e; exact (k.ended _ z).trans (.of_h rfl rfl rfl rfl)
  case h_3 => cases e
  case h_4 => cases e

theorem exec_decodeIr_fixed {code : IrCode} {len : Nat} {w : ScanWord} {s s' : State}
    (e : exec (decodeIr code len w) s = .next s') : FixedParts s s' :=
  accessReg_fixed (exec_decodeIr code len w s ▸ e)

/-- Every scan of a Dtm operation is a register access (R170, R172-R174). -/
theorem Position.instr_eq_decodeIr (p : Position) (h : Engine) : ∃ code len w, p.instr h = decodeIr code len w := by
  cases p <;> simp only [Position.instr] <;> exact ⟨_, _, _, rfl⟩

/-- H's reaction to a poll logs at most one diagnostic (R176) and leaves G, T and M alone. -/
theorem afterPoll_fixed (op : ReqOp) (addr : Nat) (r : Bits) (s : State) : FixedParts s (afterPoll op addr r s) := by
  unfold afterPoll
  split
  · exact .of_h rfl rfl rfl rfl
  · split
    · exact .of_h rfl rfl rfl rfl
    · exact { FixedParts.refl s with diag := ⟨[⟨addr, respResult r⟩], rfl⟩ }

theorem afterScan_fixed (p : Position) (r : Bits) (s : State) : FixedParts s (afterScan p r s) := by
  cases p with
  | poll op addr => exact afterPoll_fixed op addr r s
  | readIdcode | readDtmcs | clearStatus | request | retryReset => exact .of_h rfl rfl rfl rfl

theorem runPosition_fixed {p : Position} {s s' : State} (e : runPosition p s = .next s') : FixedParts s s' := by
  obtain ⟨code, len, w, hi⟩ := p.instr_eq_decodeIr s.h
  unfold runPosition at e
  rw [hi] at e
  split at e
  case h_1 u z =>
    have k := exec_decodeIr_fixed z
    split at e
    · cases e; exact k.trans (afterScan_fixed p _ u)
    · cases e; exact k.trans (.of_h rfl rfl rfl rfl)
  case h_2 => cases e
  case h_3 => cases e

theorem discardOut_fixed {s s' : State} {o : Out} (k : ∀ u, o = .next u → FixedParts s u) (e : discardOut o = .next s') :
    FixedParts s s' := by
  unfold discardOut at e
  split at e
  case h_1 u =>
    split at e
    · cases e; exact (k u rfl).trans (.of_h rfl rfl rfl rfl)
    · cases e; exact k _ rfl
  case h_2 => cases e
  case h_3 => cases e

theorem startDtmReset_fixed {s s' : State} (e : startDtmReset s = .next s') : FixedParts s s' := by
  unfold startDtmReset at e
  split at e
  case h_1 u z =>
    have k := tapReset_fixed z
    split at e
    · cases e; exact k.trans (.of_h rfl rfl rfl rfl)
    · cases e; exact k
  case h_2 => cases e
  case h_3 => cases e

theorem setTms_fixed (b : Bool) (s : State) : FixedParts s (setTms b s) :=
  .of_eq rfl rfl rfl rfl rfl rfl (Nat.le_refl _) rfl rfl rfl

theorem setTdi_fixed (b : Bool) (s : State) : FixedParts s (setTdi b s) :=
  .of_eq rfl rfl rfl rfl rfl rfl (Nat.le_refl _) rfl rfl rfl

/-- Every call of H (R88, R89, R19) keeps the fixed parts. -/
theorem runCall_fixed {c : HostCall} {s s' : State} (e : runCall c s = .next s') : FixedParts s s' := by
  cases c with
  | tapReset => exact tapReset_fixed e
  | accessReg | readReg => exact exec_decodeIr_fixed e
  | writeReg | dmiReset => exact discardOut_fixed (fun _ z => exec_decodeIr_fixed z) e
  | dtmReset => exact startDtmReset_fixed e
  | dmiRead | dmiWrite => exact runPosition_fixed e
  | cycle => exact execTckCycle_fixed e
  | setTms b => cases e; exact (setTms_fixed b s).trans (.of_h rfl rfl rfl rfl)
  | setTdi b => cases e; exact (setTdi_fixed b s).trans (.of_h rfl rfl rfl rfl)
  | idleCycleCount | query => cases e; exact .of_h rfl rfl rfl rfl
  | eval =>
    simp only [runCall] at e
    split at e
    case h_1 z => cases e; exact (eval_fixed z).trans (.of_h rfl rfl rfl rfl)
    case h_2 => cases e
    case h_3 => cases e

/-- A step runs a scan of the operation in progress, makes the next call of the program, or changes nothing. -/
theorem step_fixed {s s' : State} (e : step s = .next s') : FixedParts s s' := by
  unfold step stepMachine at e
  split at e
  case h_1 => exact runPosition_fixed e
  case h_2 =>
    split at e
    case h_1 => cases e; exact .refl s
    case h_2 c cs _ =>
      have taken : FixedParts s { s with h := { s.h with program := cs } } := .of_h rfl rfl rfl rfl
      exact taken.trans (runCall_fixed e)

end Sys2Proof.Machine

open Sys2Proof Sys2Proof.Machine

/-- Settles O47: a step makes one call of H or one scan of a Dtm operation, and each keeps the fixed parts (`step_fixed`). -/
theorem stepKeepsTheFixedParts : Obligations.StepKeepsTheFixedParts := by
  intro s s' e
  obtain ⟨par, finishAt, mainHalf, tckHalf, resetDur, maxTime, tick, finished, requests, diag⟩ := step_fixed e
  exact ⟨par, finishAt, mainHalf, tckHalf, resetDur, maxTime, tick, finished, requests, diag⟩
end

section
/-! Inversion of the calls, of the scans of a Dtm operation and of the step: from what state an outcome that goes on comes. -/

namespace Sys2Proof.Machine

/-! ### The step by its position and its program -/

theorem step_of_position {s : State} {p : Position} (h : s.h.position = some p) : step s = runPosition p s := by
  unfold step stepMachine; rw [h]

theorem step_of_call {s : State} {c : HostCall} {cs : List HostCall} (hp : s.h.position = none) (hc : s.h.program = c :: cs) :
    step s = runCall c { s with h := { s.h with program := cs } } := by
  unfold step stepMachine; rw [hp, hc]

theorem step_of_nothing {s : State} (hp : s.h.position = none) (hc : s.h.program = []) : step s = .next s := by
  unfold step stepMachine; rw [hp, hc]

/-- A call that hands over an instruction runs it (R157, R160). -/
theorem runCall_of_instr {c : HostCall} {i : Instr} (h : c.instr? = some i) (s : State) : runCall c s = exec i s := by
  cases c with
  | cycle | accessReg => cases h; rfl
  | tapReset | writeReg | readReg | idleCycleCount | dtmReset | dmiReset | dmiRead | dmiWrite | setTms | setTdi | eval | query =>
    cases h

/-- The scan of a position that completes is followed by H's reaction to its scan-out. -/
theorem runPosition_of_bits {p : Position} {s u : State} {r : Bits} (h : exec (p.instr s.h) s = .next u)
    (hr : u.h.ret = .bits r) : runPosition p s = .next (afterScan p r u) := by
  unfold runPosition; rw [h]; simp only [hr]

/-! ### Inversion -/

theorem runPosition_next_inv {p : Position} {s s' : State} (e : runPosition p s = .next s') :
    ∃ u, exec (p.instr s.h) s = .next u ∧
      ((∃ r, s' = afterScan p r u) ∨ s' = { u with h := { u.h with position := none } }) := by
  unfold runPosition at e
  split at e
  case h_1 u hu =>
    refine ⟨u, hu, ?_⟩
    split at e
    case h_1 r _ => cases e; exact .inl ⟨r, rfl⟩
    case h_2 => cases e; exact .inr rfl
  case h_2 => cases e
  case h_3 => cases e

theorem discardOut_next_inv {o : Out} {s' : State} (e : discardOut o = .next s') :
    ∃ u, o = .next u ∧ (s' = setRet .unit u ∨ s' = u) := by
  unfold discardOut at e
  split at e
  case h_1 u =>
    refine ⟨u, rfl, ?_⟩
    split at e
    · cases e; exact .inl rfl
    · cases e; exact .inr rfl
  case h_2 => cases e
  case h_3 => cases e

theorem startDtmReset_next_inv {s s' : State} (e : startDtmReset s = .next s') :
    ∃ u, tapReset s = .next u ∧ (s' = goTo .readIdcode u ∨ s' = u) := by
  unfold startDtmReset at e
  split at e
  case h_1 u hu =>
    refine ⟨u, hu, ?_⟩
    split at e
    · cases e; exact .inl rfl
    · cases e; exact .inr rfl
  case h_2 => cases e
  case h_3 => cases e

theorem execTckCycle_next_inv {tms tdi : Bool} {s s' : State} (e : execTckCycle tms tdi s = .next s') :
    ∃ u, ((∃ b, cycle tms tdi s = .done b u) ∨ cycle tms tdi s = .ended u) ∧ ∃ r, s' = setRet r u := by
  unfold execTckCycle at e
  split at e
  case h_1 b u hu => cases e; exact ⟨u, .inl ⟨b, hu⟩, _, rfl⟩
  case h_2 u hu => cases e; exact ⟨u, .inr hu, _, rfl⟩
  case h_3 => cases e
  case h_4 => cases e

theorem runCall_eval_next_inv {s s' : State} (e : runCall .eval s = .next s') :
    ∃ u, eval s = .next u ∧ s' = setRet .unit u := by
  simp only [runCall] at e
  split at e
  case h_1 u hu => cases e; exact ⟨u, hu, rfl⟩
  case h_2 => cases e
  case h_3 => cases e

end Sys2Proof.Machine
end

section
/-! The invariant over a step (R24, R27, R40, R42, R49, R120): from the operations of Laws/Invariant to the calls, the scans of the
Dtm operations and the step; and its base case, construction. -/

namespace Sys2Proof.Machine

theorem execTckCycle_inv {tms tdi : Bool} {s s' : State} (h : Inv s) (e : execTckCycle tms tdi s = .next s') : Inv s' := by
  have k := cycle_inv (a := tms) (b := tdi) h
  obtain ⟨u, ⟨b, hu⟩ | hu, r, rfl⟩ := execTckCycle_next_inv e
  · exact (k.done b u hu).setRet r
  · exact (k.ended u hu).setRet r

theorem exec_decodeIr_inv {code : IrCode} {len : Nat} {w : ScanWord} {s s' : State} (h : Inv s)
    (e : exec (decodeIr code len w) s = .next s') : Inv s' :=
  accessReg_inv h (exec_decodeIr code len w s ▸ e)

/-- H's reaction to a poll writes its position, what it returns and the diagnostics, none of which the invariant speaks of. -/
theorem afterPoll_inv {s : State} (h : Inv s) (op : ReqOp) (addr : Nat) (r : Bits) : Inv (afterPoll op addr r s) := by
  unfold afterPoll
  split
  · exact h.congr rfl rfl rfl rfl rfl
  · split
    · exact h.congr rfl rfl rfl rfl rfl
    · exact h.congr rfl rfl rfl rfl rfl

theorem afterScan_inv {s : State} (h : Inv s) (p : Position) (r : Bits) : Inv (afterScan p r s) := by
  cases p with
  | poll op addr => exact afterPoll_inv h op addr r
  | readIdcode | readDtmcs | clearStatus | request | retryReset => exact h.congr rfl rfl rfl rfl rfl

theorem runPosition_inv {p : Position} {s s' : State} (h : Inv s) (e : runPosition p s = .next s') : Inv s' := by
  obtain ⟨u, hu, hs'⟩ := runPosition_next_inv e
  obtain ⟨code, len, w, hi⟩ := p.instr_eq_decodeIr s.h
  have iu : Inv u := exec_decodeIr_inv h (hi ▸ hu)
  rcases hs' with ⟨r, rfl⟩ | rfl
  · exact afterScan_inv iu p r
  · exact iu.congr rfl rfl rfl rfl rfl

theorem discardOut_inv {o : Out} {s' : State} (k : ∀ u, o = .next u → Inv u) (e : discardOut o = .next s') : Inv s' := by
  obtain ⟨u, hu, rfl | rfl⟩ := discardOut_next_inv e
  · exact (k u hu).setRet _
  · exact k _ hu

theorem startDtmReset_inv {s s' : State} (h : Inv s) (e : startDtmReset s = .next s') : Inv s' := by
  obtain ⟨u, hu, rfl | rfl⟩ := startDtmReset_next_inv e
  · exact (tapReset_inv h hu).congr rfl rfl rfl rfl rfl
  · exact tapReset_inv h hu

/-- Every call of H (R88, R89, R19) keeps the invariant. -/
theorem runCall_inv {c : HostCall} {s s' : State} (h : Inv s) (e : runCall c s = .next s') : Inv s' := by
  cases c with
  | tapReset => exact tapReset_inv h e
  | accessReg | readReg => exact exec_decodeIr_inv h e
  | writeReg | dmiReset => exact discardOut_inv (fun _ hu => exec_decodeIr_inv h hu) e
  | dtmReset => exact startDtmReset_inv h e
  | dmiRead | dmiWrite => exact runPosition_inv h e
  | cycle => exact execTckCycle_inv h e
  | setTms b => cases e; exact (h.setTms b).setRet _
  | setTdi b => cases e; exact (h.setTdi b).setRet _
  | idleCycleCount | query => cases e; exact h.congr rfl rfl rfl rfl rfl
  | eval =>
    obtain ⟨u, hu, rfl⟩ := runCall_eval_next_inv e
    exact (eval_inv h hu).setRet _

/-- A step runs a scan of the operation in progress, makes the next call of the program, or changes nothing. -/
theorem step_inv {s s' : State} (h : Inv s) (e : step s = .next s') : Inv s' := by
  cases hp : s.h.position with
  | some p => exact runPosition_inv h (step_of_position hp ▸ e)
  | none =>
    cases hc : s.h.program with
    | nil =>
      rw [step_of_nothing hp hc] at e
      cases e
      exact h
    | cons c cs =>
      have taken : Inv { s with h := { s.h with program := cs } } := h.congr rfl rfl rfl rfl rfl
      exact runCall_inv taken (step_of_call hp hc ▸ e)

/-! ### Construction -/

/-- The base case: the device is held in reset, and H's record stands in Test-Logic-Reset with it (R47-R49). -/
theorem initial_inv {p : Params} (h : Params.valid p = true) (ht : p.tckHalfMult = Config.tckHalfMult)
    (hr : p.resetTckHalves = Config.resetTckHalves) : Inv (State.initial p) where
  clock := initial_clockOk h ht hr
  aligned := .inl rfl
  edges := by simp [State.initial]
  driven := ⟨rfl, rfl⟩
  resetHeld := fun _ => rfl
  freshHeld := fun _ => ⟨rfl, rfl, rfl, rfl, .inl rfl⟩
  mirror := fun hf => Bool.noConfusion hf
  drWidth := fun hs => Bool.noConfusion hs
  addrWidth := Nat.two_pow_pos _

end Sys2Proof.Machine

open Sys2Proof Sys2Proof.Machine

/-- Settles O46: a step makes one call of H or one scan of a Dtm operation, and each keeps the invariant (`step_inv`). -/
theorem stepKeepsTheInvariant : Obligations.StepKeepsTheInvariant := fun _ _ h e => step_inv h e

/-- Settles O45: construction meets the invariant, and the default parameters are valid and have the hardware ratios. -/
theorem constructionMeetsTheInvariant : Obligations.ConstructionMeetsTheInvariant :=
  ⟨initial_inv (by decide) rfl rfl, fun _ h ht hr => initial_inv h ht hr⟩

/-- Settles O3: the device's step keeps G and the committed pins (`deviceStep_kept`), so G is consistent again after the advance
(`ClockOk.after`), one main half-period on. -/
theorem advanceKeepsTheClockConsistent : Obligations.AdvanceKeepsTheClockConsistent := by
  intro s s' h e
  obtain ⟨u, hu, rfl⟩ := eval_next_inv e
  have k := deviceStep_kept hu
  exact ⟨h.after k.g k.pins, by rw [sampleOutputs_tick, k.g, commitPins_g, advance_tick]⟩
end

section
/-! The access of a host whose record of the IR is stale (R44, R208). -/

namespace Sys2Proof.Machine

theorem captureDr_idcode {t : Device} (h : t.ir = 0x01#5) : (captureDr t).drSr = natBits 32 t.par.idcode.toNat := by
  unfold captureDr; rw [if_pos h]

/-- Where H skips the IR scan, the access scans under the IR the device holds (R44). -/
theorem scannedIr_of_lastIr {code : IrCode} {s : State} (h : s.h.lastIr = code) : scannedIr code s = settledIr s.t := by
  unfold scannedIr; rw [if_neg (not_not.mpr h.symm)]

end Sys2Proof.Machine

open Sys2Proof Sys2Proof.Machine

/-- Settles O29: the access scans under the IR the device holds, so it captures the IDCODE register; the BYPASS0 of the last
clause is what code 0 decodes to. -/
theorem staleLastIrReadsIdcode : Obligations.StaleLastIrReadsIdcode := by
  intro n len code wdata s hready hlast hir
  obtain ⟨d, s', he, hends, hframe, -, hdir, hdpar, -⟩ := accessReg_ends (wdata := wdata) hready
  have hcap : (captureDr d.t).drSr = natBits 32 s.t.par.idcode.toNat := by
    rw [captureDr_idcode (hdir.trans ((scannedIr_of_lastIr hlast).trans hir)), hdpar]
  exact ⟨s', (exec_decodeIr code len wdata s).trans he, hcap ▸ hends, hframe, rfl⟩
end

section
/-! DTMCS as a number and as a scan-out (R31, R83, R127). -/

namespace Sys2Proof

theorem natBits_take (k n v : Nat) : (natBits (k + n) v).take k = natBits k v := by
  induction k generalizing v with
  | zero => rfl
  | succ k ih => rw [Nat.succ_add, natBits, List.take_succ_cons, ih, natBits]

theorem natBits_drop (i n v : Nat) : (natBits (i + n) v).drop i = natBits n (v / 2 ^ i) := by
  induction i generalizing v with
  | zero => simp
  | succ i ih => rw [Nat.succ_add, natBits, List.drop_succ_cons, ih, Nat.div_div_eq_div_mul, Nat.pow_succ']

/-- A field of `k` bits from bit `i` on, read from the bits of a number (R10). -/
theorem bitsVal_field (i k n v : Nat) : bitsVal (((natBits (i + (k + n)) v).drop i).take k) = v / 2 ^ i % 2 ^ k := by
  rw [natBits_drop, natBits_take, bitsVal_natBits]

theorem toNat_append_eq_add {m n : Nat} (x : BitVec m) (y : BitVec n) : (x ++ y).toNat = x.toNat * 2 ^ n + y.toNat := by
  rw [BitVec.toNat_append, ← Nat.shiftLeft_add_eq_or_of_lt y.isLt, Nat.shiftLeft_eq]

namespace Machine

theorem DmiStatus.code_lt (q : DmiStatus) : q.code < 4 := by cases q <;> decide

theorem dtmcsValue_toNat {t : Device} (ha : t.par.abits < 64) (hi : t.par.idle < 8) :
    (dtmcsValue t).toNat = 1 + 16 * t.par.abits + 1024 * t.status.code + 4096 * t.par.idle := by
  have hc := t.status.code_lt
  simp only [dtmcsValue, toNat_append_eq_add, BitVec.toNat_ofNat, Config.dtmcsVersion]
  omega

theorem dtmcsIdle_natBits (v : Nat) : dtmcsIdle (natBits 32 v) = v / 2 ^ 12 % 2 ^ 3 := bitsVal_field 12 3 17 v

theorem dtmcsAbits_natBits (v : Nat) : dtmcsAbits (natBits 32 v) = v / 2 ^ 4 % 2 ^ 6 := bitsVal_field 4 6 22 v

end Machine

end Sys2Proof

open Sys2Proof Sys2Proof.Machine

/-- Settles O35: the fields of DTMCS do not overlap, so H reads back the dwell count and the address width put in. -/
theorem dtmcsReadTeachesTheHost : Obligations.DtmcsReadTeachesTheHost := by
  intro t s ha hi
  have hv := dtmcsValue_toNat ha hi
  have hc := t.status.code_lt
  have hidle : dtmcsIdle (natBits 32 (dtmcsValue t).toNat) = t.par.idle := by
    rw [dtmcsIdle_natBits, hv]; omega
  have habits : dtmcsAbits (natBits 32 (dtmcsValue t).toNat) = t.par.abits := by
    rw [dtmcsAbits_natBits, hv]; omega
  exact ⟨hv, by rw [learnDtmcs, hidle, habits]⟩
end

section
/-! What construction leaves, and what a step runs. -/

namespace Sys2Proof

/-- An IR5 word that decodes is an access for its first five bits, with the rest as the scan-in (R71, R73, R160). -/
theorem decode_ir5_eq {abits : Nat} {b : Bits} {i : Instr} (h : decode abits ⟨.ir5, b⟩ = .ok i) :
    i = decodeIr (BitVec.ofNat 5 (bitsVal (b.take 5))) (b.length - 5) (BitVec.ofNat 64 (bitsVal (b.drop 5))) := by
  simp only [decode] at h
  split at h
  · cases h; rfl
  · cases h

end Sys2Proof

open Sys2Proof Sys2Proof.Machine

/-- Settles O1: each field is the one `State.initial` writes. -/
theorem resetHoldsTheStatedValues : Obligations.ResetHoldsTheStatedValues := by
  refine ⟨rfl, fun p => ⟨?_, ?_, ?_⟩⟩
  · exact ⟨rfl, rfl, rfl, rfl, rfl, rfl, rfl, rfl, rfl, rfl, rfl, rfl, rfl, rfl⟩
  · exact ⟨rfl, rfl, rfl, rfl, rfl, rfl, rfl, rfl, rfl⟩
  · exact ⟨rfl, rfl, rfl, rfl, rfl, rfl, rfl, rfl⟩

/-- Settles O44: the step by H's position and program, and the two formats of H's words. -/
theorem stepRunsTheNextInstruction : Obligations.StepRunsTheNextInstruction := by
  refine ⟨fun s c cs i hp hc hi => ?_, fun abits tms tdi i h => ?_, fun abits b i h => ?_, fun s s' p r hp he hr => ?_⟩
  · exact (step_of_call hp hc).trans (runCall_of_instr hi _)
  · cases h; rfl
  · rw [decode_ir5_eq h]; rfl
  · exact (step_of_position hp).trans (runPosition_of_bits he hr)
end

section
/-! The fields of a packed DMI request and of a response word (R59, R80, R81). -/

open Sys2Proof Sys2Proof.Machine

/-- Settles O34: the word H packs is the DMI word of its fields (`packRequest_bits`), and each field of a DMI word reads back. -/
theorem packedRequestReadsBack : Obligations.PackedRequestReadsBack := by
  refine ⟨fun op addr data k hop hk => ?_, fun c addr k data hc => ?_⟩
  · rw [packRequest_bits hop hk]
    have hopField : op % 4 = op := Nat.mod_eq_of_lt (by omega)
    exact ⟨(dmiOpField_word ..).trans hopField, dmiDataField_word .., (dmiAddrField_word ..).trans (Nat.mod_mod ..)⟩
  · exact ⟨respResult_word c addr k data hc, respDatum_word c addr k data, respAddress_word c addr k data⟩
end

section
/-! Decoding and encoding (R69-R82): for each format, the word of the fields decodes to its instruction, and the word that
decodes is the word of its fields. -/

namespace Sys2Proof

/-! ### Fields: a bit vector and its bits -/

/-- A bit vector is read back from its low bits where it has no bit above them. -/
theorem ofNat_bitsVal_natBits {w n : Nat} {v : BitVec w} (h : v.toNat < 2 ^ n) :
    BitVec.ofNat w (bitsVal (natBits n v.toNat)) = v := by
  rw [bitsVal_natBits, Nat.mod_eq_of_lt h, BitVec.ofNat_toNat, BitVec.setWidth_eq]

/-- A bit vector wide enough holds the number of the bits. -/
theorem toNat_ofNat_bitsVal {w : Nat} {b : Bits} (h : b.length ≤ w) : (BitVec.ofNat w (bitsVal b)).toNat = bitsVal b := by
  rw [BitVec.toNat_ofNat, Nat.mod_eq_of_lt (Nat.lt_of_lt_of_le (bitsVal_lt b) (Nat.pow_le_pow_right (by omega) h))]

/-- The bits are read back from a bit vector wide enough to hold them. -/
theorem natBits_ofNat_bitsVal {w n : Nat} {b : Bits} (hn : b.length = n) (hw : n ≤ w) :
    natBits n (BitVec.ofNat w (bitsVal b)).toNat = b := by
  rw [toNat_ofNat_bitsVal (hn.trans_le hw), ← hn, natBits_bitsVal]

/-! ### Register accesses (R71, R73, R74) -/

theorem wfScan_iff (len : Nat) (wdata : ScanWord) :
    wfScan len wdata = true ↔ 1 ≤ len ∧ len ≤ Config.maxScanLen ∧ wdata.toNat < 2 ^ len := by
  simp only [wfScan, Bool.and_eq_true, decide_eq_true_eq, and_assoc]

/-- The code an instruction is decoded from is the one it is encoded with (R74, R75). -/
theorem encode_decodeIr (abits : Nat) (code : IrCode) (len : Nat) (wdata : ScanWord) :
    encode abits (decodeIr code len wdata) = encodeScan code len wdata := by
  obtain ⟨v, hv⟩ := code
  interval_cases v <;> rfl

theorem wellFormed_decodeIr (abits : Nat) (code : IrCode) (len : Nat) (wdata : ScanWord) :
    WellFormed abits (decodeIr code len wdata) = wfScan len wdata := by
  obtain ⟨v, hv⟩ := code
  interval_cases v <;> rfl

theorem decode_encodeScan {len : Nat} {wdata : ScanWord} (abits : Nat) (code : IrCode) (h : wfScan len wdata = true) :
    decode abits (encodeScan code len wdata) = .ok (decodeIr code len wdata) := by
  obtain ⟨hpos, hmax, hval⟩ := (wfScan_iff len wdata).mp h
  have hlen : (natBits 5 code.toNat ++ natBits len wdata.toNat).length = 5 + len := by simp
  have hcode : (natBits 5 code.toNat ++ natBits len wdata.toNat).take 5 = natBits 5 code.toNat :=
    List.take_left' (natBits_length ..)
  have hscan : (natBits 5 code.toNat ++ natBits len wdata.toNat).drop 5 = natBits len wdata.toNat :=
    List.drop_left' (natBits_length ..)
  have hrange : (6 ≤ 5 + len && 5 + len ≤ 5 + Config.maxScanLen) = true := by
    rw [Bool.and_eq_true, decide_eq_true_eq, decide_eq_true_eq]; omega
  simp only [decode, encodeScan, hlen, hcode, hscan]
  rw [if_pos hrange, ofNat_bitsVal_natBits code.isLt, ofNat_bitsVal_natBits hval, Nat.add_sub_cancel_left]

theorem length_of_decode_ir5 {abits : Nat} {b : Bits} {i : Instr} (h : decode abits ⟨.ir5, b⟩ = .ok i) :
    6 ≤ b.length ∧ b.length ≤ 5 + Config.maxScanLen := by
  simp only [decode] at h
  split at h
  next hrange => simpa using hrange
  next => cases h

/-- An IR5 word of an allowed length is five bits of code and a well-formed scan. -/
theorem encode_of_decode_ir5 {abits : Nat} {b : Bits} {i : Instr} (h : decode abits ⟨.ir5, b⟩ = .ok i) :
    WellFormed abits i = true ∧ encode abits i = ⟨.ir5, b⟩ := by
  obtain ⟨hmin, hmax⟩ := length_of_decode_ir5 h
  have hmax' : b.length ≤ 5 + 64 := hmax
  have hcode : (b.take 5).length = 5 := by rw [List.length_take]; omega
  have hscan : (b.drop 5).length = b.length - 5 := List.length_drop
  have hval : (BitVec.ofNat 64 (bitsVal (b.drop 5))).toNat < 2 ^ (b.length - 5) := by
    rw [toNat_ofNat_bitsVal (by omega), ← hscan]
    exact bitsVal_lt _
  rw [decode_ir5_eq h, wellFormed_decodeIr, encode_decodeIr, encodeScan, natBits_ofNat_bitsVal hcode le_rfl,
    natBits_ofNat_bitsVal hscan (by omega), List.take_append_drop]
  exact ⟨(wfScan_iff ..).mpr ⟨by omega, by omega, hval⟩, rfl⟩

/-! ### DMI words (R77, R78) -/

/-- The DMI instruction of an op (R78), as `decodeIr` is the access of an IR code. -/
def dmiInstr (op addr : Nat) (data : Word32) : Instr :=
  match op with
  | 0 => .dmiNop addr data
  | 1 => .dmiRead addr data
  | 2 => .dmiWrite addr data
  | _ => .dmiOp3 addr data

theorem decodeDmi_eq_dmiInstr (abits : Nat) (u : Bits) :
    decodeDmi abits u = dmiInstr (dmiOpField u) (dmiAddrField abits u) (dmiDataField u) := rfl

theorem encode_dmiInstr {op : Nat} (abits addr : Nat) (data : Word32) (h : op < 4) :
    encode abits (dmiInstr op addr data) = encodeDmi abits op addr data := by
  interval_cases op <;> rfl

theorem wellFormed_dmiInstr (abits op addr : Nat) (data : Word32) :
    WellFormed abits (dmiInstr op addr data) = wfAddr abits addr := by
  unfold dmiInstr
  split <;> rfl

theorem dmiOpField_lt (u : Bits) : dmiOpField u < 4 := Machine.bitsVal_take_lt u 2

theorem wfAddr_dmiAddrField (abits : Nat) (u : Bits) : wfAddr abits (dmiAddrField abits u) = true :=
  decide_eq_true (Machine.bitsVal_take_lt _ abits)

theorem decode_encodeDmi {abits op addr : Nat} (data : Word32) (hop : op < 4) (h : wfAddr abits addr = true) :
    decode abits (encodeDmi abits op addr data) = .ok (dmiInstr op addr data) := by
  have haddr : addr < 2 ^ abits := of_decide_eq_true h
  have hlen : (encodeDmi abits op addr data).bits.length = 34 + abits := by
    simp only [encodeDmi, List.length_append, natBits_length]; omega
  calc decode abits (encodeDmi abits op addr data)
      = .ok (decodeDmi abits (encodeDmi abits op addr data).bits) := if_pos hlen
    _ = .ok (dmiInstr op addr data) := by
      rw [decodeDmi_eq_dmiInstr, encodeDmi, dmiOpField_word, dmiAddrField_word, dmiDataField_word, Nat.mod_eq_of_lt hop,
        Nat.mod_eq_of_lt haddr]

/-- A DMI word of the right length is the word of its three fields (`dmiWord_of_fields`). -/
theorem encode_of_decode_dmi {abits : Nat} {b : Bits} {i : Instr} (h : decode abits ⟨.dmi, b⟩ = .ok i) :
    WellFormed abits i = true ∧ encode abits i = ⟨.dmi, b⟩ := by
  simp only [decode] at h
  split at h
  next hlen =>
    cases h
    rw [decodeDmi_eq_dmiInstr, wellFormed_dmiInstr, encode_dmiInstr _ _ _ (dmiOpField_lt b), encodeDmi, dmiWord_of_fields hlen]
    exact ⟨wfAddr_dmiAddrField abits b, rfl⟩
  next => cases h

/-! ### DTMCS words (R82, R128) -/

theorem decode_encodeDtmcs (abits : Nat) (u : Word32) : decode abits (encodeDtmcs u) = decodeDtmcs u := by
  simp only [decode, encodeDtmcs, natBits_length, if_true, dtmcsField_natBits]

theorem wfDmireset_iff (u : Word32) : wfDmireset u = true ↔ u.getLsbD 16 = true ∧ ¬ u.getLsbD 17 = true := by
  rw [wfDmireset, Bool.and_eq_true, Bool.not_eq_true', Bool.not_eq_true]

theorem decodeDtmcs_of_wfDmireset {u : Word32} (h : wfDmireset u = true) : decodeDtmcs u = .ok (.dtmcsDmireset u) := by
  obtain ⟨h16, h17⟩ := (wfDmireset_iff u).mp h
  rw [decodeDtmcs, if_neg h17, if_pos h16]

theorem decodeDtmcs_of_wfDmihardreset {u : Word32} (h : wfDmihardreset u = true) :
    decodeDtmcs u = .ok (.dtmcsDmihardreset u) := if_pos h

/-- The command of a DTMCS word keeps the whole word, and its bits are those `decodeDtmcs` tested. -/
theorem encode_of_decodeDtmcs {u : Word32} {i : Instr} (abits : Nat) (h : decodeDtmcs u = .ok i) :
    WellFormed abits i = true ∧ encode abits i = encodeDtmcs u := by
  unfold decodeDtmcs at h
  split at h
  next h17 => cases h; exact ⟨h17, rfl⟩
  next h17 =>
    split at h
    next h16 => cases h; exact ⟨(wfDmireset_iff u).mpr ⟨h16, h17⟩, rfl⟩
    next => cases h

theorem encode_of_decode_dtmcs {abits : Nat} {b : Bits} {i : Instr} (h : decode abits ⟨.dr32Dtmcs, b⟩ = .ok i) :
    WellFormed abits i = true ∧ encode abits i = ⟨.dr32Dtmcs, b⟩ := by
  simp only [decode] at h
  split at h
  next hlen =>
    have hword : encodeDtmcs (dtmcsField b) = ⟨.dr32Dtmcs, b⟩ := congrArg (Word.mk .dr32Dtmcs) (natBits_dtmcsField hlen)
    exact hword ▸ encode_of_decodeDtmcs abits h
  next => cases h

/-! ### TCK cycles (R70) -/

theorem encode_of_decode_cyc {abits : Nat} {b : Bits} {i : Instr} (h : decode abits ⟨.cyc, b⟩ = .ok i) :
    WellFormed abits i = true ∧ encode abits i = ⟨.cyc, b⟩ := by
  simp only [decode] at h
  split at h
  next => cases h; exact ⟨rfl, rfl⟩
  next => cases h

end Sys2Proof

open Sys2Proof

/-- Settles O41: an IR code's access by `decode_encodeScan`, a DMI op by `decode_encodeDmi`, a DTMCS command by
`decode_encodeDtmcs`. -/
theorem decodeUndoesEncode : Obligations.DecodeUndoesEncode := by
  intro abits i h
  cases i with
  | bypass0 | idcode | irUnused02 | irUnused03 | irUnused04 | irUnused05 | irUnused06 | irUnused07 | irUnused08 | irUnused09
  | irUnused0A | irUnused0B | irUnused0C | irUnused0D | irUnused0E | irUnused0F | dtmcs | dmiaccess | irUnused12 | irUnused13
  | irUnused14 | irUnused15 | irUnused16 | irUnused17 | irUnused18 | irUnused19 | irUnused1A | irUnused1B | irUnused1C
  | irUnused1D | irUnused1E | bypass1 => exact decode_encodeScan abits _ h
  | dmiNop _ data | dmiRead _ data | dmiWrite _ data | dmiOp3 _ data => exact decode_encodeDmi data (by decide) h
  | dtmcsDmireset u => exact (decode_encodeDtmcs abits u).trans (decodeDtmcs_of_wfDmireset h)
  | dtmcsDmihardreset u => exact (decode_encodeDtmcs abits u).trans (decodeDtmcs_of_wfDmihardreset h)
  | tckCycle => rfl

/-- Settles O42: format by format; BYPASS and IDCODE scan words carry no instruction. -/
theorem encodeUndoesDecode : Obligations.EncodeUndoesDecode := by
  intro abits w i h
  obtain ⟨fmt, b⟩ := w
  cases fmt with
  | cyc => exact encode_of_decode_cyc h
  | ir5 => exact encode_of_decode_ir5 h
  | dr1 | dr32Idcode => cases h
  | dr32Dtmcs => exact encode_of_decode_dtmcs h
  | dmi => exact encode_of_decode_dmi h

/-- Settles O43: each word has the bits the decoder reads the fields of its instruction from. -/
theorem sampleWordsDecode : Obligations.SampleWordsDecode := ⟨rfl, rfl, rfl, rfl, rfl, rfl⟩
end

section
/-! The clock, reset and pins of G (R91-R99, R102, R104): the schedule of its edges, its queries, and what an `eval` takes over. -/

namespace Sys2Proof.Machine

/-! ### Levels -/

theorem rstNLevel_iff {tick d : Nat} : rstNLevel tick d = true ↔ d ≤ tick := by
  rw [rstNLevel, Bool.not_eq_true', decide_eq_false_iff_not, Nat.not_lt]

theorem rose_iff {last now : Bool} : rose last now = true ↔ last = false ∧ now = true := by
  rw [rose, Bool.and_eq_true, Bool.not_eq_true']

theorem fell_iff {last now : Bool} : fell last now = true ↔ last = true ∧ now = false := by
  rw [fell, Bool.and_eq_true, Bool.not_eq_true']

@[simp] theorem rose_self (b : Bool) : rose b b = false := Bool.not_and_self b

@[simp] theorem fell_self (b : Bool) : fell b b = false := Bool.and_not_self b

/-! ### The schedule -/

/-- The even multiples of the TCK half-period are the ticks of half-period 0 of four; `ClockOk.risen_iff` is the odd ones. -/
theorem ClockOk.fallen_iff {s : State} (h : ClockOk s) : s.g.tick % (2 * s.g.tckHalf) = 0 ↔ phase s % 4 = 0 := by
  have period : 2 * s.g.tckHalf = 4 * s.g.mainHalf := by rw [h.tckHalf_eq, Config.tckHalfMult]; ring
  have hm : s.g.mainHalf ≠ 0 := Nat.one_le_iff_ne_zero.mp h.main_pos
  rw [period, h.tick_eq, Nat.mul_mod_mul_right, Nat.mul_eq_zero, or_iff_left hm]

/-- G is consistent after an advance once the device has seen its pins. -/
theorem ClockOk.advance_committed {s : State} (h : ClockOk s) : ClockOk (sampleOutputs (commitPins (advance s))) :=
  h.after rfl rfl

theorem ClockOk.advance_risen_iff {s : State} (h : ClockOk s) :
    (advance s).g.tick % (2 * s.g.tckHalf) = s.g.tckHalf ↔ (phase s + 1) % 4 = 2 :=
  h.advance_phase ▸ h.advance_committed.risen_iff

theorem ClockOk.advance_fallen_iff {s : State} (h : ClockOk s) :
    (advance s).g.tick % (2 * s.g.tckHalf) = 0 ↔ (phase s + 1) % 4 = 0 :=
  h.advance_phase ▸ h.advance_committed.fallen_iff

/-! ### `all_done` and `eval` -/

theorem allDone_iff (s : State) :
    allDone s = true ↔ s.g.finished = true ∨ (s.g.maxTime ≠ 0 ∧ s.g.maxTime ≤ s.g.tick) := by
  simp only [allDone, Bool.or_eq_true, Bool.and_eq_true, Bool.not_eq_true', decide_eq_false_iff_not, decide_eq_true_eq, ne_eq]

/-- An `eval` that goes on has committed the pins of G, whatever its edge did (R93). -/
theorem eval_pins {s s' : State} (e : eval s = .next s') : s'.t.pins = ⟨s.g.clk, s.g.rstN, s.g.tck, s.g.tms, s.g.tdi⟩ := by
  obtain ⟨u, hu, rfl⟩ := eval_next_inv e
  exact (deviceStep_kept hu).pins

/-- An `eval` that goes on has sampled the device's TDO (R93). -/
theorem eval_tdo {s s' : State} (e : eval s = .next s') : s'.g.tdo = s'.t.tdo := by
  obtain ⟨u, _, rfl⟩ := eval_next_inv e
  exact sampleOutputs_tdo u

/-- With `rst_n` high and the TCK level already seen there is no edge, so the device takes no step (R93, C9). -/
theorem eval_without_edge {s : State} (hseen : s.t.pins.tck = s.g.tck) (hrst : s.g.rstN = true) :
    eval s = .next (sampleOutputs (commitPins s)) := by
  apply eval_next
  have hlevel : s.t.pins.tck = (commitPins s).t.pins.tck := hseen
  have hhigh : (commitPins s).g.rstN = true := hrst
  rw [deviceStep_high _ hhigh, hlevel, fell_self, rose_self, if_neg Bool.false_ne_true, if_neg Bool.false_ne_true]

end Sys2Proof.Machine

open Sys2Proof Sys2Proof.Machine

/-- Settles O4: an edge and the multiple of the TCK half-period both say which half-period of four the advance enters. -/
theorem edgesFollowTheSchedule : Obligations.EdgesFollowTheSchedule := by
  intro s h
  exact ⟨h.advance_posedge_iff.trans h.advance_risen_iff.symm, h.advance_negedge_iff.trans h.advance_fallen_iff.symm,
    rstNLevel_iff⟩

/-- Settles O5: `all_done()` by `allDone_iff`; the query writes H's answer only. -/
theorem allDoneAtFinishOrCap : Obligations.AllDoneAtFinishOrCap := fun s => ⟨allDone_iff s, rfl⟩

/-- Settles O6: each query answers one field of G; the level of `rst_n`, the edge flags and the TDO sample by their lemmas. -/
theorem queriesReportAndChangeNothing : Obligations.QueriesReportAndChangeNothing := by
  intro s
  refine ⟨rfl, rfl, rfl, rfl, rfl, rfl, rfl, fun h => ?_, rose_iff, fell_iff, fun _ => eval_tdo⟩
  rw [h.rstN_eq, ← Bool.not_eq_true, rstNLevel_iff, Nat.not_le]

/-- Settles O7: an `eval` commits the pins the setter has written (`eval_pins`). -/
theorem settersReachTheDutAtEval : Obligations.SettersReachTheDutAtEval := by
  intro b s
  refine ⟨rfl, rfl, fun s' e => ?_, fun s' e => ?_⟩
  · rw [eval_pins e]; rfl
  · rw [eval_pins e]; rfl

/-- Settles O8: there is no edge, so `eval` commits the pins and samples the outputs (`eval_without_edge`). -/
theorem evalWithoutAdvanceStepsNothing : Obligations.EvalWithoutAdvanceStepsNothing := by
  intro s hseen hrst
  exact ⟨_, eval_without_edge hseen hrst, rfl, rfl, rfl, rfl, rfl⟩
end

section
/-! The operations of H on a simulation that is over (R103, R184, R188, R189): each drives its first pin pair and ends there. -/

namespace Sys2Proof.Machine

variable {s : State}

theorem execTckCycle_ended (h : allDone s = true) (tms tdi : Bool) :
    execTckCycle tms tdi s = .next (setRet .simEnded (drive tms tdi s)) := by
  unfold execTckCycle; rw [cycle_ended h]

/-- The IR path begins with TMS high (R161), the dwell path with TMS low (R162). -/
theorem irOrDwell_ended (h : allDone s = true) (code : IrCode) :
    irOrDwell code s = .ended (drive (decide (code ≠ s.h.lastIr)) false s) := by
  have dwell : dwellPins s.h.idleCycles = (false, false) :: List.replicate s.h.idleCycles (false, false) := by
    rw [dwellPins, Nat.add_comm, List.replicate_succ]
  unfold irOrDwell
  split
  case isTrue hne => rw [show irPins code = (true, false) :: _ from rfl, runPins_ended h, decide_eq_true hne]
  case isFalse heq => rw [dwell, runPins_ended h, decide_eq_false heq]

theorem accessReg_ended (h : allDone s = true) (code : IrCode) (wdata : ScanWord) {len : Nat} (hpos : 1 ≤ len)
    (hmax : len ≤ Config.maxScanLen) (hs : startState s.h.state = true) :
    accessReg code wdata len s = .next (setRet .simEnded (drive (decide (code ≠ s.h.lastIr)) false s)) := by
  have scan : accessScan code wdata len s = .ended (drive (decide (code ≠ s.h.lastIr)) false s) := by
    unfold accessScan; rw [irOrDwell_ended h]
  unfold accessReg
  rw [if_neg (Nat.not_lt.mpr hmax), if_neg (Nat.one_le_iff_ne_zero.mp hpos), if_neg (by rw [hs]; decide), scan]

theorem untilOutOfReset_ended (h : allDone s = true) (n : Nat) : untilOutOfReset (n + 1) s = .ended s := by
  unfold untilOutOfReset; rw [if_pos h]

theorem tapReset_ended (h : allDone s = true) : tapReset s = .next (setRet (.flag false) (drive false false s)) := by
  have driven : allDone (drive false false s) = true := h
  unfold tapReset; rw [untilOutOfReset_ended driven]

end Sys2Proof.Machine

open Sys2Proof Sys2Proof.Machine

/-- Settles O31: each operation asks `all_done` before its first advance, so it ends with its first pin pair driven. -/
theorem endedSimulationStopsEveryOperation : Obligations.EndedSimulationStopsEveryOperation := by
  intro s h
  refine ⟨fun code len wdata hpos hmax hs => ⟨decide (code ≠ s.h.lastIr), ?_⟩, execTckCycle_ended h, tapReset_ended h⟩
  exact (exec_decodeIr code len wdata s).trans (accessReg_ended h code wdata hpos hmax hs)
end

section
/-! TAP: the transition table (R106), and Update-DR as the instruction its shift register decodes to (R112, R128, R130). -/

namespace Sys2Proof.Machine

/-- The update of the DMI register and the DMI decoder split on the same op, one case for each of its four codes (R78). -/
theorem updateDmi_eq_exec (u : Bits) (s : State) : updateDmi u s = exec (decodeDmi s.t.par.abits u) s := by
  have hlt : dmiOpField u < 4 := dmiOpField_lt u
  obtain hop | hop | hop | hop : dmiOpField u = 0 ∨ dmiOpField u = 1 ∨ dmiOpField u = 2 ∨ dmiOpField u = 3 := by omega
  all_goals
    simp only [updateDmi, decodeDmi, hop]
    rfl

theorem updateDtmcs_of_decode {u : Word32} {i : Instr} (s : State) (h : decodeDtmcs u = .ok i) : updateDtmcs u s = exec i s := by
  unfold decodeDtmcs at h
  unfold updateDtmcs
  split at h
  case isTrue h17 => cases h; rw [if_pos h17]; rfl
  case isFalse h17 =>
    split at h
    case isTrue h16 => cases h; rw [if_neg h17, if_pos h16]; rfl
    case isFalse => cases h

theorem updateDtmcs_of_noCommand {u : Word32} (s : State) (h : decodeDtmcs u = .error .noCommand) :
    updateDtmcs u s = .next s := by
  unfold decodeDtmcs at h
  unfold updateDtmcs
  split at h
  case isTrue => cases h
  case isFalse h17 =>
    split at h
    case isTrue => cases h
    case isFalse h16 => rw [if_neg h17, if_neg h16]

theorem updateDr_dmi {s : State} (h : s.t.ir = 0x11#5) : updateDr s = updateDmi s.t.drSr s := if_pos h

theorem updateDr_dtmcs {s : State} (h : s.t.ir = 0x10#5) : updateDr s = updateDtmcs (dtmcsField s.t.drSr) s := by
  unfold updateDr
  rw [if_neg (by rw [h]; decide), if_pos h]

theorem updateDr_other {s : State} (h10 : s.t.ir ≠ 0x10#5) (h11 : s.t.ir ≠ 0x11#5) : updateDr s = .next s := by
  unfold updateDr
  rw [if_neg h11, if_neg h10]

end Sys2Proof.Machine

namespace Sys2Proof

theorem decodeDmi_of_decode {abits : Nat} {b : Bits} {i : Instr} (h : decode abits ⟨.dmi, b⟩ = .ok i) :
    i = decodeDmi abits b := by
  simp only [decode] at h
  split at h
  · cases h; rfl
  · cases h

/-- A DTMCS word of the right length decodes by its command bits; one of another length is refused for its length. -/
theorem decodeDtmcs_of_decode {abits : Nat} {b : Bits} {r : Except DecodeError Instr} (h : decode abits ⟨.dr32Dtmcs, b⟩ = r)
    (hr : r ≠ .error (.badLength .dr32Dtmcs b.length)) : decodeDtmcs (dtmcsField b) = r := by
  simp only [decode] at h
  split at h
  · exact h
  · exact absurd h.symm hr

end Sys2Proof

open Sys2Proof Sys2Proof.Machine

/-- Settles O48: entry by entry. -/
theorem tapGraphIsTheTable : Obligations.TapGraphIsTheTable :=
  ⟨⟨rfl, rfl⟩, ⟨rfl, rfl⟩, ⟨rfl, rfl⟩, ⟨rfl, rfl⟩, ⟨rfl, rfl⟩, ⟨rfl, rfl⟩, ⟨rfl, rfl⟩, ⟨rfl, rfl⟩, ⟨rfl, rfl⟩, ⟨rfl, rfl⟩,
    ⟨rfl, rfl⟩, ⟨rfl, rfl⟩, ⟨rfl, rfl⟩, ⟨rfl, rfl⟩, ⟨rfl, rfl⟩, ⟨rfl, rfl⟩⟩

/-- Settles O21: the update by the code in the IR, and each format's word by its decoder. -/
theorem updateRunsTheDecodedWord : Obligations.UpdateRunsTheDecodedWord := by
  intro s
  refine ⟨fun i hir h => ?_, fun i hir h => ?_, fun hir h => ?_, updateDr_other⟩
  · rw [updateDr_dmi hir, updateDmi_eq_exec, decodeDmi_of_decode h]
  · rw [updateDr_dtmcs hir]
    exact updateDtmcs_of_decode s (decodeDtmcs_of_decode h (by simp))
  · rw [updateDr_dtmcs hir]
    exact updateDtmcs_of_noCommand s (decodeDtmcs_of_decode h (by simp))
end

section
/-! One TCK cycle of a link that is up (R105, R109-R119, R157, R158): its result, and the update it performs in Update-DR. -/

namespace Sys2Proof.Machine

/-! ### H's result is no part of what a cycle is said to keep -/

theorem Kept.setRet {s s' : State} (h : Kept s s') (r : Ret) : Kept s (setRet r s') := { h with }

theorem DtmSame.setRet {s s' : State} (h : DtmSame s s') (r : Ret) : DtmSame s (setRet r s') :=
  { h with }

theorem DtmFrame.setRet {s s' : State} (h : DtmFrame s s') (r : Ret) : DtmFrame s (setRet r s') :=
  ⟨fun q => (h.quiet q).setRet r, h.sentNothing⟩

/-! ### The scan registers -/

theorem settledIr_of_ne_updIR {t : Device} (h : t.state ≠ .updIR) : settledIr t = t.ir := if_neg h

theorem settledIr_updIR {t : Device} (h : t.state = .updIR) : settledIr t = t.irSr := if_pos h

section
variable {tms tdi b : Bool} {s s' : State} (c : CycleEffect tms tdi s b s')
include c

theorem CycleEffect.ir_tlr (h : s.t.state = .tlr) : s'.t.ir = 0x01#5 := c.ir.trans (if_pos h)

theorem CycleEffect.ir_updIR (h : s.t.state = .updIR) : s'.t.ir = s.t.irSr := by
  rw [c.ir, if_neg (by rw [h]; decide), settledIr_updIR h]

theorem CycleEffect.ir_hold (h1 : s.t.state ≠ .tlr) (h2 : s.t.state ≠ .updIR) : s'.t.ir = s.t.ir := by
  rw [c.ir, if_neg h1, settledIr_of_ne_updIR h2]

end

theorem captureDr_dtmcs {t : Device} (h : t.ir = 0x10#5) : (captureDr t).drSr = natBits 32 (dtmcsValue t).toNat := by
  unfold captureDr
  rw [if_neg (by rw [h]; decide), if_pos h]

theorem captureDr_dmi {t : Device} (h : t.ir = 0x11#5) : (captureDr t).drSr = dmiCapture (noteBusy t) := by
  unfold captureDr
  rw [if_neg (by rw [h]; decide), if_neg (by rw [h]; decide), if_pos h]

theorem captureDr_bypass {t : Device} (h01 : t.ir ≠ 0x01#5) (h10 : t.ir ≠ 0x10#5) (h11 : t.ir ≠ 0x11#5) :
    (captureDr t).drSr = [false] := by
  unfold captureDr
  rw [if_neg h01, if_neg h10, if_neg h11]

/-! ### The update in Update-DR -/

/-- What a rising edge does to the request in flight depends on the DTM, M and the draws only (R147). -/
theorem DtmSame.tickInflight {x y : State} (h : DtmSame x y) (hf : y.free = x.free) :
    DtmSame (tickInflight x) (tickInflight y) := by
  unfold Machine.tickInflight
  rw [h.inflight]
  cases hi : x.t.inflight with
  | none => exact h
  | some q =>
    obtain ⟨req, r⟩ := q
    cases r with
    | succ r => exact ⟨h.status, rfl, h.respAddr, h.respData, h.m⟩
    | zero =>
      have ha : drawResponse y = drawResponse x := by unfold drawResponse; rw [h.m, hf]
      exact ⟨by simp only [complete, ha, h.status], rfl, h.respAddr, by simp only [complete, ha, hf],
        by simp only [complete, h.m]⟩

/-- A rising edge spent in Update-DR has no action of its own: the request in flight meets it (R118, R147). -/
theorem posedgeStep_updDR {x v : State} (hs : x.t.state = .updDR) (h : posedgeStep x = .next v) : DtmSame (tickInflight x) v := by
  have action : posedgeAction x.t = x.t := by unfold posedgeAction; rw [hs]
  unfold posedgeStep at h
  rw [action] at h
  split at h
  · cases h
  · cases h
    exact ⟨rfl, rfl, rfl, rfl, rfl⟩

theorem negedgeStep_updDR {s : State} (hs : s.t.state = .updDR) : negedgeStep s = updateDr (driveTdo s) := by
  unfold negedgeStep
  rw [hs]

/-- Driving TDO, on a falling edge with the pins driven, leaves the DTM and M (R110). -/
theorem dtmSame_driveTdo_fallState (tms tdi : Bool) (s : State) : DtmSame s (driveTdo (fallState tms tdi s)) :=
  ⟨driveTdo_status _, driveTdo_inflight _, driveTdo_respAddr _, driveTdo_respData _, driveTdo_m _⟩

theorem riseState_dtmSame (u : State) : DtmSame u (riseState u) := ⟨rfl, rfl, rfl, rfl, rfl⟩

theorem cycleEnd_dtmSame (tms : Bool) (v : State) : DtmSame v (cycleEnd tms v) := ⟨rfl, rfl, rfl, rfl, rfl⟩

/-- The two edges of a cycle spent in Update-DR: the update of the word, then the rising edge of the request in flight. -/
theorem CycleRun.update {tms tdi : Bool} {s u v : State} (r : CycleRun tms tdi s u v) (hs : s.t.state = .updDR) :
    updateDr (driveTdo (fallState tms tdi s)) = .next u ∧ DtmSame (tickInflight u) (cycleEnd tms v) := by
  have hfall : (fallState tms tdi s).t.state = .updDR := hs
  have hrise : (riseState u).t.state = .updDR := r.before.1.trans hs
  exact ⟨(negedgeStep_updDR hfall).symm.trans r.fall,
    (((riseState_dtmSame u).tickInflight rfl).trans (posedgeStep_updDR hrise r.rise)).trans (cycleEnd_dtmSame tms v)⟩

end Sys2Proof.Machine

open Sys2Proof Sys2Proof.Machine

/-- Settles O9: a cycle of a link that is up completes (`cycle_effect`), and H's result is written after it. -/
theorem tckCycleMovesBothRecords : Obligations.TckCycleMovesBothRecords := by
  intro n tms tdi s h ha
  obtain ⟨b, s', e, ready, c⟩ := cycle_effect h ha tms tdi
  exact ⟨b, setRet (.tdo (some b)) s', execTckCycle_done e, rfl, c.state, c.hstate, c.tick, c.pins, c.lastIr, c.kept.setRet _,
    c.frame.setRet _, ready.setRet _⟩

/-- Settles O10: the effect of the state the cycle is spent in (`CycleEffect`), with the capture by the code in the IR. -/
theorem tckCycleActsOnTheScanRegisters : Obligations.TckCycleActsOnTheScanRegisters := by
  intro tms tdi s h ha
  obtain ⟨b, s', e, -, c⟩ := cycle_effect h ha tms tdi
  exact ⟨b, setRet (.tdo (some b)) s', execTckCycle_done e, rfl, c.ir_tlr, c.ir_updIR, c.ir_hold, c.irCapture, c.irShift,
    c.irHold, fun hs hir => (c.drCapture hs).trans (captureDr_idcode hir),
    fun hs hir => (c.drCapture hs).trans (captureDr_dtmcs hir),
    fun hs h01 h10 h11 => (c.drCapture hs).trans (captureDr_bypass h01 h10 h11), c.drShift, c.drHold⟩

/-- Settles O11: the update is performed on the state of the falling edge, after TDO is driven (`CycleRun.update`). -/
theorem tckCycleInUpdateDrPerformsTheWord : Obligations.TckCycleInUpdateDrPerformsTheWord := by
  intro tms tdi s h ha hs
  obtain ⟨u, v, r, hc⟩ := cycle_done h.toLinkUp h.live ha tms tdi
  obtain ⟨update, tick⟩ := r.update hs
  exact ⟨driveTdo (fallState tms tdi s), u, _, execTckCycle_done hc, dtmSame_driveTdo_fallState tms tdi s, driveTdo_ir _,
    driveTdo_drSr _, driveTdo_par _, update, tick.setRet _⟩
end

section
/-! The reset window (R108, R113, R119, R123, R154, R199): the TCK cycle that brings the next rising edge to a held device. -/

namespace Sys2Proof.Machine

theorem kept_drive (tms tdi : Bool) (s : State) : Kept s (drive tms tdi s) := { Kept.refl s with }

theorem Kept.mirror {s s' : State} (h : Kept s s') (tms : Bool) : Kept s (mirror tms s') := { h with }

/-- A held device in the invariant is 2 advances from its next rising edge at tick 0, and 4 after a rising edge (R102). -/
theorem Inv.nextRise {s : State} (h : Inv s) (hf : s.t.fresh = true) (hn : NotEnding 1 s) :
    ∃ j, 1 ≤ j ∧ j ≤ 4 ∧ (phase s + j) % 4 = 2 ∧ j ≤ edgeBound s ∧
      s.g.tick + j * s.g.mainHalf ≤ s.g.tick + 4 * s.g.mainHalf ∧
      s.g.tick + j * s.g.mainHalf = if s.g.tick = 0 then s.g.tckHalf else s.g.tick + 2 * s.g.tckHalf := by
  have hm := h.clock.main_pos
  have hT : s.g.tckHalf = 2 * s.g.mainHalf := h.clock.tckHalf_eq
  have bound : edgeBound s = 4 * s.g.mainHalf + 1 := by unfold edgeBound; omega
  obtain ⟨-, -, ⟨h0, hp⟩ | ⟨h0, hp⟩⟩ := h.fresh hf hn
  · exact ⟨2, by omega, by omega, by omega, by omega, by omega, by rw [if_pos h0]; omega⟩
  · exact ⟨4, by omega, by omega, by omega, by omega, by omega, by rw [if_neg h0]; omega⟩

/-- A TCK cycle of a held device with TMS high (R123). -/
theorem cycle_window_refused {s : State} (h : Inv s) (hf : s.t.fresh = true) (hn : NotEnding 1 s) (tdi : Bool) :
    cycle true tdi s = .refused .resetWindowTms := by
  obtain ⟨held, timed, -⟩ := h.fresh hf hn
  obtain ⟨j, hj, hj4, hp, hb, ht, -⟩ := h.nextRise hf hn
  unfold cycle
  rw [untilPosedge_refused j (edgeBound s) none _ (drive true tdi s) (timed.drive true tdi) ht held hj hj4 hp hb rfl]

/-- A TCK cycle of a held device with TMS low ends at the next rising edge, which releases the device once the window is over
(R108, R119). -/
theorem cycle_window_done {s : State} (h : Inv s) (hf : s.t.fresh = true) (hn : NotEnding 1 s) (tdi : Bool) :
    ∃ b u j, cycle false tdi s = .done b (mirror false u) ∧ Steps j (drive false tdi s) u ∧
      u.g.tick = (if s.g.tick = 0 then s.g.tckHalf else s.g.tick + 2 * s.g.tckHalf) ∧
      (u.g.tick < s.g.resetDur → Held u.t) ∧ (s.g.resetDur ≤ u.g.tick → Released u.t) := by
  obtain ⟨held, timed, -⟩ := h.fresh hf hn
  obtain ⟨j, hj, hj4, hp, hb, ht, htick⟩ := h.nextRise hf hn
  obtain ⟨b, u, e, steps, hheld, hreleased⟩ := untilPosedge_held j (edgeBound s) none _ (drive false tdi s)
    (timed.drive false tdi) ht held hj hj4 hp hb rfl
  refine ⟨b, u, j, ?_, steps, steps.tick.trans htick, hheld, hreleased⟩
  unfold cycle
  rw [e]

theorem execTckCycle_refused {tms tdi : Bool} {s : State} {r : Refusal} (h : cycle tms tdi s = .refused r) :
    exec (.tckCycle tms tdi) s = .refused r := by
  show execTckCycle tms tdi s = _
  unfold execTckCycle
  rw [h]

/-- Held or released, a device in or right after the window has IDCODE selected and the DTM clear (R108, R154). -/
theorem cleared_of_held_or_released {t : Device} (h : Held t ∨ Released t) :
    t.ir = 0x01#5 ∧ t.status = .ok ∧ t.inflight = none := by
  rcases h with h | h
  · exact ⟨h.ir, h.status, h.inflight⟩
  · exact ⟨h.ir, h.status, h.inflight⟩

end Sys2Proof.Machine

open Sys2Proof Sys2Proof.Machine

/-- Settles O13: the cycle runs to the device's first rising edge, which refuses TMS high (`cycle_window_refused`). -/
theorem resetWindowRefusesHighTms : Obligations.ResetWindowRefusesHighTms :=
  fun tdi _ h hf hn => execTckCycle_refused (cycle_window_refused h hf hn tdi)

/-- Settles O14: the rising edge the cycle ends at leaves the device held inside the window and releases it after
(`cycle_window_done`); H's record goes to Run-Test/Idle from either state the invariant allows it. -/
theorem resetWindowHoldsTheDevice : Obligations.ResetWindowHoldsTheDevice := by
  intro tdi s h hf hn
  obtain ⟨b, u, j, e, steps, htick, hheld, hreleased⟩ := cycle_window_done h hf hn tdi
  obtain ⟨hir, hstatus, hinflight⟩ : u.t.ir = 0x01#5 ∧ u.t.status = .ok ∧ u.t.inflight = none :=
    cleared_of_held_or_released ((Nat.lt_or_ge u.g.tick s.g.resetDur).imp hheld hreleased)
  have hh : u.h = (drive false tdi s).h := steps.h
  have hrecord : nextTap u.h.state false = .rti := by
    obtain ⟨-, -, -, -, hs⟩ := h.freshHeld hf
    rw [hh]
    show nextTap s.h.state false = .rti
    rcases hs with hs | hs <;> rw [hs] <;> rfl
  have hlast : u.h.lastIr = s.h.lastIr := by rw [hh]; rfl
  exact ⟨setRet (.tdo b) (mirror false u), execTckCycle_done e, htick, fun x => ⟨(hheld x).state, (hheld x).fresh⟩,
    fun x => ⟨(hreleased x).state, (hreleased x).fresh⟩, hir, hstatus, hinflight, hrecord, hlast, steps.m,
    (((kept_drive false tdi s).trans steps.kept).mirror false).setRet _⟩
end

section
/-! TCK cycles with TMS high (R107, R112, R139, R142): five of them end in Test-Logic-Reset, unless they lead a DR scan of the DMI
register through Update-DR with op 3. -/

namespace Sys2Proof.Machine

/-! ### A cycle that meets the reserved op -/

theorem negedgeStep_refused {s : State} (h : ¬ UpdateAllowed s.t) : negedgeStep s = .refused .dmiOpReserved := by
  obtain ⟨hs, hir, hop⟩ := not_not.mp h
  rw [negedgeStep_updDR hs, updateDr_dmi (by simpa using hir)]
  rcases updateDmi_cases (driveTdo s).t.drSr (driveTdo s) with ⟨-, e⟩ | ⟨hle, -⟩
  · exact e
  · rw [driveTdo_drSr] at hle; omega

theorem cycle_refused {n : Nat} {s : State} (h : Ready (n + 1) s) (ha : ¬ UpdateAllowed s.t) (tms tdi : Bool) :
    cycle tms tdi s = .refused .dmiOpReserved := by
  have fall : negedgeStep (fallState tms tdi s) = .refused .dmiOpReserved := negedgeStep_refused ha
  rw [cycle_eq h.toAfterRise h.live, fall]

/-! ### How the cycles end -/

/-- `k` cycles with TMS high. -/
def highPins (k : Nat) (tdi : Bool) : List PinPair := List.replicate k (true, tdi)

/-- `k` cycles with TMS high are refused for the reserved op if `bad`, and otherwise end in Test-Logic-Reset on both sides. -/
def HighRun (k : Nat) (tdi : Bool) (s : State) (bad : Prop) : Prop :=
  (¬ bad → ∃ bs s', runPins (highPins k tdi) s = .done bs s' ∧ s'.t.state = .tlr ∧ s'.h.state = .tlr) ∧
  (bad → runPins (highPins k tdi) s = .refused .dmiOpReserved)

theorem HighRun.congr {k : Nat} {tdi : Bool} {s : State} {bad bad' : Prop} (h : HighRun k tdi s bad) (e : bad' ↔ bad) :
    HighRun k tdi s bad' := propext e ▸ h

/-- A first cycle that completes leaves the others to decide. -/
theorem HighRun.cons {k : Nat} {tdi : Bool} {s u : State} {b : Option Bool} {bad : Prop} (e : cycle true tdi s = .done b u)
    (h : HighRun k tdi u bad) : HighRun (k + 1) tdi s bad := by
  have first : runPins (highPins (k + 1) tdi) s = runPins ((true, tdi) :: highPins k tdi) s := rfl
  refine ⟨fun hb => ?_, fun hb => ?_⟩
  · obtain ⟨bs, s', e', ht, hh⟩ := h.1 hb
    exact ⟨b :: bs, s', first.trans (runPins_cons_done e e'), ht, hh⟩
  · rw [first]
    simp only [runPins, e, h.2 hb]

/-- Where the cycles end in Test-Logic-Reset and none after the first is spent in Update-DR, only the word that waits in
Update-DR now can stop them. -/
theorem highRun_of_endState {k : Nat} {tdi : Bool} {s : State} (h : Ready (k + 1) s)
    (hv : .updDR ∉ (visits s.t.state (highPins (k + 1) tdi)).tail) (he : endState s.t.state (highPins (k + 1) tdi) = .tlr) :
    HighRun (k + 1) tdi s (¬ UpdateAllowed s.t) := by
  induction k generalizing s with
  | zero =>
    refine ⟨fun ha => ?_, fun ha => ?_⟩
    · obtain ⟨b, u, e, ready, c⟩ := cycle_effect h (not_not.mp ha) true tdi
      have hu : u.t.state = .tlr := c.state.trans he
      exact ⟨_, u, runPins_cons_done e rfl, hu, ready.mirrored.trans hu⟩
    · show runPins [(true, tdi)] s = _
      simp only [runPins, cycle_refused h ha]
  | succ k ih =>
    by_cases ha : UpdateAllowed s.t
    · obtain ⟨b, u, e, ready, c⟩ := cycle_effect h ha true tdi
      have hu : nextTap s.t.state true = u.t.state := c.state.symm
      have hvu : .updDR ∉ visits u.t.state (highPins (k + 1) tdi) := hu ▸ hv
      have hallowed : UpdateAllowed u.t := fun x => hvu (by rw [x.1]; exact List.mem_cons_self)
      have rest := ih ready (fun x => hvu (List.mem_of_mem_tail x)) (hu ▸ he)
      exact (HighRun.cons e rest).congr (by simp only [ha, hallowed])
    · refine ⟨fun hb => absurd ha hb, fun _ => ?_⟩
      show runPins ((true, tdi) :: highPins (k + 1) tdi) s = _
      simp only [runPins, cycle_refused h ha]

/-- The op of a DMI word that waits to be updated is the reserved one (R139). -/
def Op3Word (ir : IrCode) (drSr : Bits) : Prop := ir = 0x11#5 ∧ 3 ≤ dmiOpField drSr

theorem not_updateAllowed_iff {t : Device} (h : t.state = .updDR) : ¬ UpdateAllowed t ↔ Op3Word t.ir t.drSr := by
  unfold UpdateAllowed Op3Word
  rw [not_not]
  exact and_iff_right h

/-- From Exit1-DR and Exit2-DR the next cycle leads to Update-DR with the word as it is. -/
theorem highRun_exit {k : Nat} {tdi : Bool} {s : State} (hk : k = 2 ∨ k = 3) (h : Ready (k + 2) s)
    (hs : s.t.state = .ex1DR ∨ s.t.state = .ex2DR) : HighRun (k + 2) tdi s (Op3Word s.t.ir s.t.drSr) := by
  have hupd : nextTap s.t.state true = .updDR := by rcases hs with hs | hs <;> rw [hs] <;> rfl
  obtain ⟨htlr, hupdIR, hupdDR, hcap, hsh⟩ : s.t.state ≠ .tlr ∧ s.t.state ≠ .updIR ∧ s.t.state ≠ .updDR ∧
      s.t.state ≠ .capDR ∧ s.t.state ≠ .shDR := by
    rcases hs with hs | hs <;> rw [hs] <;> decide
  obtain ⟨b, u, e, ready, c⟩ := cycle_effect h (fun x => hupdDR x.1) true tdi
  have hu : u.t.state = .updDR := c.state.trans hupd
  have path : .updDR ∉ (visits u.t.state (highPins (k + 1) tdi)).tail ∧ endState u.t.state (highPins (k + 1) tdi) = .tlr := by
    rw [hu]
    rcases hk with rfl | rfl
    · exact ⟨by simp [visits, nextTap, highPins, List.replicate], rfl⟩
    · exact ⟨by simp [visits, nextTap, highPins, List.replicate], rfl⟩
  refine (HighRun.cons e (highRun_of_endState ready path.1 path.2)).congr ?_
  rw [not_updateAllowed_iff hu, c.ir_hold htlr hupdIR, c.drHold hcap hsh]

/-- A capture of the DMI register has op 3 exactly where it reports RETRY (R142). -/
theorem op3_captureDr_iff {t : Device} (h : t.ir = 0x11#5) :
    3 ≤ dmiOpField (captureDr t).drSr ↔ t.status = .retry ∨ t.status = .ok ∧ t.inflight ≠ none := by
  have hop : dmiOpField (captureDr t).drSr = (noteBusy t).status.code := by
    rw [captureDr_dmi h, dmiCapture, dmiOpField_word, Nat.mod_eq_of_lt (DmiStatus.code_lt _)]
  rw [hop, noteBusy_status]
  cases hs : t.status <;> cases hi : t.inflight <;> simp [DmiStatus.code]

/-- The condition under which five cycles with TMS high meet op 3 in Update-DR. -/
def MeetsOp3 (tdi : Bool) (s : State) : Prop :=
  s.t.ir = 0x11#5 ∧
    ((s.t.state = .capDR ∧ (s.t.status = .retry ∨ s.t.status = .ok ∧ s.t.inflight ≠ none)) ∨
      (s.t.state = .shDR ∧ 3 ≤ dmiOpField (s.t.drSr.drop 1 ++ [tdi])) ∨
      ((s.t.state = .ex1DR ∨ s.t.state = .pauseDR ∨ s.t.state = .ex2DR) ∧ 3 ≤ dmiOpField s.t.drSr))

/-- From Capture-DR, Shift-DR and Pause-DR the first of the cycles leads to an Exit state. -/
theorem highRun_toExit {tdi : Bool} {s : State} (h : Ready 5 s)
    (hs : s.t.state = .capDR ∨ s.t.state = .shDR ∨ s.t.state = .pauseDR) :
    HighRun 5 tdi s (MeetsOp3 tdi s) := by
  obtain ⟨htlr, hupdIR, hupdDR⟩ : s.t.state ≠ .tlr ∧ s.t.state ≠ .updIR ∧ s.t.state ≠ .updDR := by
    rcases hs with hs | hs | hs <;> rw [hs] <;> decide
  obtain ⟨b, u, e, ready, c⟩ := cycle_effect h (fun x => hupdDR x.1) true tdi
  have hu : u.t.state = .ex1DR ∨ u.t.state = .ex2DR := by
    rw [c.state]
    rcases hs with hs | hs | hs <;> rw [hs] <;> decide
  refine (HighRun.cons e (highRun_exit (.inl rfl) ready hu)).congr ?_
  rw [Op3Word, MeetsOp3, c.ir_hold htlr hupdIR]
  refine and_congr_right fun hir => ?_
  rcases hs with hs | hs | hs
  · rw [c.drCapture hs, op3_captureDr_iff hir]; simp [hs]
  · rw [(c.drShift hs).2]; simp [hs]
  · rw [c.drHold (by simp [hs]) (by simp [hs])]; simp [hs]

/-- From a state whose cycles lead to Test-Logic-Reset without entering Update-DR, no op is met. -/
theorem highRun_allowed {tdi : Bool} {s : State} (h : Ready 5 s) (ha : UpdateAllowed s.t)
    (hm : ¬ MeetsOp3 tdi s) (hv : .updDR ∉ (visits s.t.state (highPins 5 tdi)).tail)
    (he : endState s.t.state (highPins 5 tdi) = .tlr) :
    HighRun 5 tdi s (MeetsOp3 tdi s) :=
  (highRun_of_endState h hv he).congr (by simp only [hm, ha, not_true_eq_false])

theorem highRun_five {tdi : Bool} {s : State} (h : Ready 5 s) (ha : UpdateAllowed s.t) : HighRun 5 tdi s (MeetsOp3 tdi s) := by
  cases hs : s.t.state with
  | capDR => exact highRun_toExit h (.inl hs)
  | shDR => exact highRun_toExit h (.inr (.inl hs))
  | pauseDR => exact highRun_toExit h (.inr (.inr hs))
  | ex1DR => exact (highRun_exit (.inr rfl) h (.inl hs)).congr (by simp [MeetsOp3, Op3Word, hs])
  | ex2DR => exact (highRun_exit (.inr rfl) h (.inr hs)).congr (by simp [MeetsOp3, Op3Word, hs])
  | tlr | rti | selDR | updDR | selIR | capIR | shIR | ex1IR | pauseIR | ex2IR | updIR =>
    refine highRun_allowed h ha (by simp [MeetsOp3, hs]) ?_ (by rw [hs]; rfl)
    rw [hs]
    simp [visits, nextTap, highPins, List.replicate]

end Sys2Proof.Machine

open Sys2Proof Sys2Proof.Machine

/-- Settles O12: by the state the cycles start in (`highRun_five`). A DR scan leaves through an Exit state and Update-DR, where its
word decides; from every other state the cycles enter it no more. -/
theorem fiveHighTmsReachTestLogicReset : Obligations.FiveHighTmsReachTestLogicReset := fun _ _ h ha => highRun_five h ha
end

section
/-! The DTMCS commands (R128, R144-R146). -/

open Sys2Proof Sys2Proof.Machine

/-- Settles O20: a DTMCS word runs the command it decodes to, and bit 17 is tested before bit 16. -/
theorem dtmcsCommandsResetTheDmi : Obligations.DtmcsCommandsResetTheDmi := by
  intro u s
  refine ⟨rfl, rfl, fun h17 => ?_, fun h17 h16 => ?_, fun h17 h16 => ?_⟩
  · exact updateDtmcs_of_decode s (decodeDtmcs_of_wfDmihardreset h17)
  · exact updateDtmcs_of_decode s (decodeDtmcs_of_wfDmireset ((wfDmireset_iff u).mpr ⟨h16, ne_true_of_eq_false h17⟩))
  · refine updateDtmcs_of_noCommand s ?_
    rw [decodeDtmcs, if_neg (ne_true_of_eq_false h17), if_neg (ne_true_of_eq_false h16)]
end

section
/-! The DMI ops of an update (R136-R141): sent by an idle DTM, dropped under a sticky status or with a request in flight. -/

namespace Sys2Proof.Machine

theorem dropBusy_of_sticky {s : State} (h : s.t.status ≠ .ok) : dropBusy s = s := by
  unfold dropBusy noteBusy
  rw [if_neg (by simp [h])]

/-- A request in flight under status OK makes RETRY sticky (R141). -/
theorem dropBusy_of_busy {s : State} (h : s.t.status = .ok) (hi : s.t.inflight ≠ none) :
    dropBusy s = { s with t := { s.t with status := .retry } } := by
  unfold dropBusy noteBusy
  rw [if_pos (by simp [h, Option.isSome_iff_ne_none, hi])]

theorem dmiRequestUpdate_of_sticky {s : State} (h : s.t.status ≠ .ok) (r : DmiRequest) : dmiRequestUpdate r s = s := if_pos h

theorem dmiRequestUpdate_of_busy {s : State} (h : s.t.status = .ok) (hi : s.t.inflight ≠ none) (r : DmiRequest) :
    dmiRequestUpdate r s = dropBusy s := by
  unfold dmiRequestUpdate
  rw [if_neg (not_not.mpr h), if_pos (Option.isSome_iff_ne_none.mpr hi)]

theorem dmiRequestUpdate_of_idle {s : State} (h : s.t.status = .ok) (hi : s.t.inflight = none) (r : DmiRequest) :
    dmiRequestUpdate r s = sendRequest r s := by
  unfold dmiRequestUpdate
  rw [if_neg (not_not.mpr h), if_neg (by simp [hi])]

theorem drawLatency_of_cons {s : State} {d : Nat} {ds : List Nat} (h : s.m.latencies = d :: ds) : drawLatency s = d := by
  unfold drawLatency
  rw [h]

/-! ### The ops as instructions -/

theorem exec_dmiNop (addr : Nat) (data : Word32) (s : State) : exec (.dmiNop addr data) s = .next (dropBusy s) := rfl

theorem exec_dmiRead (addr : Nat) (data : Word32) (s : State) :
    exec (.dmiRead addr data) s = .next (dmiRequestUpdate ⟨.read, addr, 0#32⟩ s) := rfl

theorem exec_dmiWrite (addr : Nat) (data : Word32) (s : State) :
    exec (.dmiWrite addr data) s = .next (dmiRequestUpdate ⟨.write, addr, data⟩ s) := rfl

end Sys2Proof.Machine

open Sys2Proof Sys2Proof.Machine

/-- Settles O17: an idle DTM sends the request (`dmiRequestUpdate_of_idle`), and the latency of either is the one M draws. -/
theorem dmiRequestsAreHandedToM : Obligations.DmiRequestsAreHandedToM := by
  intro addr data s hs hi
  refine ⟨drawLatency s, drawLatency s, ?_, ?_, fun l ls h => ⟨drawLatency_of_cons h, drawLatency_of_cons h⟩⟩
  · rw [exec_dmiRead, dmiRequestUpdate_of_idle hs hi, sendRequest]
  · rw [exec_dmiWrite, dmiRequestUpdate_of_idle hs hi, sendRequest]

/-- Settles O18: a sticky status and a request in flight each keep an op from being sent, and a NOP sends nothing. -/
theorem dmiOpsAreDropped : Obligations.DmiOpsAreDropped := by
  intro addr data s
  rw [exec_dmiNop, exec_dmiRead, exec_dmiWrite]
  refine ⟨fun hs => ?_, fun hs hi => ?_, fun hi => by rw [dropBusy_idle hi]⟩
  · rw [dropBusy_of_sticky hs, dmiRequestUpdate_of_sticky hs, dmiRequestUpdate_of_sticky hs]
    exact ⟨rfl, rfl, rfl⟩
  · rw [dmiRequestUpdate_of_busy hs hi, dmiRequestUpdate_of_busy hs hi, dropBusy_of_busy hs hi]
    exact ⟨rfl, rfl, rfl⟩
end
section
/-! The DTM over one TCK cycle and over idle ones (R142, R143, R147, R149, R153): the status and the request in flight. -/

namespace Sys2Proof.Machine

/-! ### The falling edge -/

/-- An update leaves M's answers: M answers at rising edges only (R147). -/
theorem updateDr_answers {x v : State} (h : updateDr x = .next v) : v.m.answers = x.m.answers := by
  obtain ⟨-, -, e⟩ | ⟨-, w, e, kept, -⟩ := updateDr_cases x
  · rw [h] at e; cases e
  · rw [h] at e; cases e; exact kept.answers

section
variable {s u : State} (f : DtmFall s u)
include f

theorem DtmFall.answers : u.m.answers = s.m.answers := by
  by_cases hs : s.t.state = .updDR
  · obtain ⟨x, w, sx, -, -, -, e, wu⟩ := f.word hs
    rw [wu.m, updateDr_answers e, sx.m]
  · rw [(f.quiet hs).m]

/-- The status after a falling edge: as it was, cleared by a DTMCS command (R144, R145), or RETRY by an op that meets a request in
flight (R141). -/
theorem DtmFall.status_cases :
    u.t.status = s.t.status ∨
    (u.t.status = .ok ∧ s.t.state = .updDR ∧ s.t.ir = 0x10#5 ∧
      ((dtmcsField s.t.drSr).getLsbD 16 = true ∨ (dtmcsField s.t.drSr).getLsbD 17 = true)) ∨
    (u.t.status = .retry ∧ s.t.status = .ok ∧ s.t.state = .updDR ∧ s.t.ir = 0x11#5 ∧ s.t.inflight ≠ none) := by
  by_cases hs : s.t.state = .updDR
  · obtain ⟨x, w, sx, xir, xdr, -, e, wu⟩ := f.word hs
    obtain ⟨command, -⟩ := updateDr_status e
    rw [wu.status, ← sx.status, ← sx.inflight, ← xir, ← xdr]
    obtain same | ⟨cleared, -⟩ | ⟨retry, ok, hir, busy⟩ := updateDr_status_cases e
    · exact .inl same
    · by_cases same : w.t.status = x.t.status
      · exact .inl same
      · exact .inr (.inl ⟨cleared, hs, command (fun ok => same (cleared.trans ok.symm)) same⟩)
    · exact .inr (.inr ⟨retry, ok, hs, hir, busy⟩)
  · exact .inl (f.quiet hs).status

/-- The request in flight after a falling edge: as it was, none (R145), or one that Update-DR has handed over with the latency
M draws (R137, R138, R148). -/
theorem DtmFall.inflight_cases :
    u.t.inflight = s.t.inflight ∨ u.t.inflight = none ∨
    (s.t.state = .updDR ∧ s.t.ir = 0x11#5 ∧ (dmiOpField s.t.drSr = 1 ∨ dmiOpField s.t.drSr = 2) ∧ s.t.status = .ok ∧
      s.t.inflight = none ∧ ∃ r l, u.t.inflight = some ⟨r, l⟩ ∧ ∀ d ds, s.m.latencies = d :: ds → l = d) := by
  by_cases hs : s.t.state = .updDR
  · obtain ⟨x, w, sx, xir, xdr, -, e, wu⟩ := f.word hs
    rw [wu.inflight, ← sx.status, ← sx.inflight, ← sx.m, ← xir, ← xdr]
    obtain same | cleared | ⟨hir, hop, ok, idle, r, sent⟩ := updateDr_inflight e
    · exact .inl same
    · exact .inr (.inl cleared)
    · exact .inr (.inr ⟨hs, hir, hop, ok, idle, r, _, sent, fun _ _ => drawLatency_of_cons⟩)
  · exact .inl (f.quiet hs).inflight

end

/-! ### The rising edge -/

/-- The capture of the DMI register with a request in flight under status OK is the only action that writes the status (R142). -/
theorem actionStatus_cases (t : Device) :
    actionStatus t = t.status ∨
    (actionStatus t = .retry ∧ t.status = .ok ∧ t.state = .capDR ∧ t.ir = 0x11#5 ∧ t.inflight ≠ none) := by
  unfold actionStatus
  split
  case isTrue h =>
    rw [noteBusy_status]
    split
    case isTrue hb =>
      simp only [Bool.and_eq_true, beq_iff_eq, Option.isSome_iff_ne_none] at hb
      exact .inr ⟨rfl, hb.2, h.1, h.2, hb.1⟩
    case isFalse => exact .inl rfl
  case isFalse => exact .inl rfl

/-- The status after a rising edge: what the action of the state leaves, or ERROR by an answer of M that is not ok (R147). -/
theorem DtmRise.status_cases {x v : State} (d : DtmRise x v) :
    v.t.status = actionStatus x.t ∨
    (v.t.status = .error ∧ actionStatus x.t = .ok ∧ (∃ q, x.t.inflight = some ⟨q, 0⟩) ∧ v.t.inflight = none ∧
      v.m.answers = x.m.answers.drop 1 ∧ ∃ a, AnswerDrawn x.m.answers a ∧ a.ok = false) := by
  match hi : x.t.inflight with
  | none => exact .inl (d.idle hi).2.1
  | some ⟨q, r + 1⟩ => exact .inl (d.waits q r hi).2.1
  | some ⟨q, 0⟩ =>
    obtain ⟨gone, answers, a, drawn, -, status⟩ := d.answered q hi
    rw [status]
    split
    case isTrue h =>
      simp only [Bool.and_eq_true, Bool.not_eq_true', beq_iff_eq] at h
      exact .inr ⟨rfl, h.2, ⟨q, rfl⟩, gone, answers, a, drawn, h.1⟩
    case isFalse => exact .inl rfl

/-- The status over the capture of the DMI register: it is the one the capture leaves, since an answer of M writes ERROR over OK
only, and a request in flight has made that RETRY (R142, R147). -/
theorem DtmRise.status_of_dmiCapture {x v : State} (d : DtmRise x v) (hs : x.t.state = .capDR) (hir : x.t.ir = 0x11#5) :
    v.t.status = (noteBusy x.t).status := by
  have action : actionStatus x.t = (noteBusy x.t).status := if_pos ⟨hs, hir⟩
  rw [← action]
  obtain same | ⟨-, ok, ⟨q, hi⟩, -⟩ := d.status_cases
  · exact same
  · rw [action, noteBusy_status] at ok
    simp only [hi] at ok
    cases hx : x.t.status <;> simp [hx] at ok


/-! ### The capture of the DMI register (R142) -/

theorem noteBusy_status_of_busy {t : Device} (hi : t.inflight ≠ none) (hs : t.status = .ok) : (noteBusy t).status = .retry := by
  rw [noteBusy_status, if_pos (by simp [hs, Option.isSome_iff_ne_none, hi])]

theorem noteBusy_status_of_not_busy {t : Device} (h : t.inflight = none ∨ t.status ≠ .ok) : (noteBusy t).status = t.status := by
  rw [noteBusy_status, if_neg (by obtain h | h := h <;> simp [h])]

/-- The status and the register after a TCK cycle spent in the capture of the DMI register: the answer of a request that completes
at the same edge comes after the capture. -/
theorem CycleEffect.dmiCapture {tms tdi b : Bool} {s s' : State} (c : CycleEffect tms tdi s b s') (hs : s.t.state = .capDR)
    (hir : s.t.ir = 0x11#5) :
    s'.t.drSr = natBits 2 (noteBusy s.t).status.code ++
      (natBits 32 s.t.respData.toNat ++ natBits s.t.par.abits s.t.respAddr) ∧
    s'.t.status = (noteBusy s.t).status := by
  obtain ⟨u, fall, state, ir, rise⟩ := c.dtm
  have same : DtmSame s u := fall.quiet (by rw [hs]; decide)
  have uir : u.t.ir = 0x11#5 := by rw [ir, settledIr_of_ne_updIR (by rw [hs]; decide), hir]
  refine ⟨?_, ?_⟩
  · rw [c.drCapture hs, captureDr_dmi hir, Machine.dmiCapture, noteBusy_respData, noteBusy_respAddr, noteBusy_par]
  · rw [rise.status_of_dmiCapture (state.trans hs) uir, noteBusy_status, noteBusy_status, same.inflight, same.status]

/-! ### How the status changes over a cycle (R143, R153) -/

section
variable {tms tdi b : Bool} {s s' : State} (c : CycleEffect tms tdi s b s')
include c

/-- A sticky status goes away at the falling edge only, by a DTMCS command. -/
theorem CycleEffect.status_cleared (hs : s.t.status ≠ .ok) (hne : s'.t.status ≠ s.t.status) :
    s.t.state = .updDR ∧ s.t.ir = 0x10#5 ∧
      ((dtmcsField s.t.drSr).getLsbD 16 = true ∨ (dtmcsField s.t.drSr).getLsbD 17 = true) := by
  obtain ⟨u, fall, -, -, rise⟩ := c.dtm
  obtain same | ⟨-, command⟩ | ⟨-, ok, -⟩ := fall.status_cases
  · have sticky : u.t.status ≠ .ok := same ▸ hs
    have action : actionStatus u.t = u.t.status := by
      obtain same | ⟨-, ok, -⟩ := actionStatus_cases u.t
      · exact same
      · exact absurd ok sticky
    exact absurd ((rise.sticky (action ▸ sticky)).trans (action.trans same)) hne
  · exact command
  · exact absurd ok hs

/-- RETRY comes from an op dropped at the falling edge, or from the capture at the rising one. -/
theorem CycleEffect.status_retry (hs : s.t.status ≠ .retry) (hr : s'.t.status = .retry) :
    s.t.status = .ok ∧ s.t.ir = 0x11#5 ∧ s.t.inflight ≠ none ∧ (s.t.state = .capDR ∨ s.t.state = .updDR) := by
  obtain ⟨u, fall, state, ir, rise⟩ := c.dtm
  have action : actionStatus u.t = .retry := by
    obtain same | ⟨error, -⟩ := rise.status_cases
    · exact same.symm.trans hr
    · rw [hr] at error; cases error
  obtain same | ⟨-, ok, hcap, hir, busy⟩ := actionStatus_cases u.t
  · obtain kept | ⟨cleared, -⟩ | ⟨-, ok, hupd, hir, busy⟩ := fall.status_cases
    · exact absurd (kept.symm.trans (same.symm.trans action)) hs
    · rw [← same, action] at cleared; cases cleared
    · exact ⟨ok, hir, busy, .inr hupd⟩
  · have scap : s.t.state = .capDR := state.symm.trans hcap
    have quiet : DtmSame s u := fall.quiet (by rw [scap]; decide)
    refine ⟨quiet.status.symm.trans ok, ?_, quiet.inflight ▸ busy, .inl scap⟩
    rw [← settledIr_of_ne_updIR (by rw [scap]; decide), ← ir, hir]

/-- ERROR comes from an answer of M at the rising edge: to a request in flight with no cycles left, or to one that the falling edge
has handed over with latency 0. -/
theorem CycleEffect.status_error (hs : s.t.status ≠ .error) (he : s'.t.status = .error) :
    ((∃ q, s.t.inflight = some ⟨q, 0⟩) ∨
      (s.t.inflight = none ∧ s.t.status = .ok ∧ s.t.state = .updDR ∧ s.t.ir = 0x11#5 ∧
        (dmiOpField s.t.drSr = 1 ∨ dmiOpField s.t.drSr = 2) ∧ ∀ d ds, s.m.latencies = d :: ds → d = 0)) ∧
    s'.t.inflight = none ∧ s'.m.answers = s.m.answers.drop 1 ∧ ∃ a, AnswerDrawn s.m.answers a ∧ a.ok = false := by
  obtain ⟨u, fall, -, -, rise⟩ := c.dtm
  rw [← fall.answers]
  obtain same | ⟨-, -, ⟨q, hi⟩, answer⟩ := rise.status_cases
  · -- no action of a state and no falling edge writes ERROR
    have action : actionStatus u.t = .error := same.symm.trans he
    obtain held | ⟨retry, -⟩ := actionStatus_cases u.t
    · obtain kept | ⟨cleared, -⟩ | ⟨retry, -⟩ := fall.status_cases
      · exact absurd (kept.symm.trans (held.symm.trans action)) hs
      · rw [← held, action] at cleared; cases cleared
      · rw [← held, action] at retry; cases retry
    · rw [action] at retry; cases retry
  · refine ⟨?_, answer⟩
    obtain kept | gone | ⟨hupd, hir, hop, ok, idle, r, l, sent, latency⟩ := fall.inflight_cases
    · exact .inl ⟨q, kept.symm.trans hi⟩
    · rw [hi] at gone; cases gone
    · rw [hi] at sent
      cases sent
      exact .inr ⟨idle, ok, hupd, hir, hop, fun d ds hl => (latency d ds hl).symm⟩

end

/-! ### Idle cycles (R147, R149) -/

/-- Cycles spent in Run-Test/Idle with TMS low: each is one rising edge for the request in flight. -/
theorem runPins_idle {n : Nat} {s : State} (h : Ready n s) (hs : s.t.state = .rti) :
    ∃ bs s', runPins (List.replicate n (false, false)) s = .done bs s' ∧ s'.t.state = .rti ∧ DtmRises n s s' := by
  have idle : ∀ y ∈ visits s.t.state (List.replicate n (false, false)), y ≠ .updDR ∧ y ≠ .updIR ∧ y ≠ .capDR ∧ y ≠ .tlr := by
    intro y hy
    rw [hs, visits_dwell] at hy
    rw [List.eq_of_mem_replicate hy]
    decide
  obtain ⟨bs, s', e, -, -, path, -, rises, -⟩ := runPins_quiet _ 0 s (by simpa using h) idle
  refine ⟨bs, s', e, ?_, rises.cast (List.length_replicate ..)⟩
  rw [path.state, hs, endState_dwell]

end Sys2Proof.Machine

open Sys2Proof Sys2Proof.Machine

/-- Settles O22: the `n` idle cycles are `n` rising edges for the request in flight (`runPins_idle`). -/
theorem requestIsAnsweredAfterItsLatency : Obligations.RequestIsAnsweredAfterItsLatency := by
  intro n r q s h hs hi
  obtain ⟨bs, s', e, state, rises⟩ := runPins_idle h hs
  refine ⟨bs, s', e, state, rises.respAddr, rises.requests, fun hn => rises.waits q r hi hn, fun hn => ?_⟩
  obtain ⟨gone, answers, a, drawn, data, status⟩ := rises.answered q r hi hn
  exact ⟨gone, answers, a, fun _ _ hb => drawn.head hb, data, by simpa using status⟩

/-- Settles O23: what the capture reports is the status it leaves (`CycleEffect.dmiCapture`); the request in flight meets the rising
edge as any other. -/
theorem dmiCaptureReportsTheStatus : Obligations.DmiCaptureReportsTheStatus := by
  intro tms tdi s h hs hir
  obtain ⟨b, s', e, -, c⟩ := cycle_effect (n := 0) h (fun x => by rw [hs] at x; cases x.1) tms tdi
  obtain ⟨drSr, status⟩ := c.dmiCapture hs hir
  obtain ⟨u, fall, -, -, rise⟩ := c.dtm
  have inflight : u.t.inflight = s.t.inflight := (fall.quiet (by rw [hs]; decide)).inflight
  refine ⟨setRet (.tdo (some b)) s', execTckCycle_done e, fun hi ok => ?_, fun free => ?_, fun q r hi => ?_, fun q hi => ?_,
    fun hi => ?_⟩
  · rw [noteBusy_status_of_busy hi ok] at drSr status
    exact ⟨drSr, status⟩
  · rw [noteBusy_status_of_not_busy free] at drSr status
    exact ⟨drSr, status⟩
  · exact (rise.waits q r (inflight.trans hi)).1
  · exact (rise.answered q (inflight.trans hi)).1
  · exact (rise.idle (inflight.trans hi)).1

/-- Settles O24: the status over the falling edge, the action of the rising edge and the answer of M at it, each by its cases. -/
theorem stickyStatusChangesOnlyByRule : Obligations.StickyStatusChangesOnlyByRule := by
  intro tms tdi s h ha
  obtain ⟨b, s', e, -, c⟩ := cycle_effect (n := 0) h ha tms tdi
  exact ⟨setRet (.tdo (some b)) s', execTckCycle_done e, c.status_cleared, c.status_retry, c.status_error⟩
end

section
/-! A DMI operation of H (R173, R174): the access that scans the request in, and the poll at whose falling edge the device hands it
over. -/

namespace Sys2Proof.Machine

/-! ### Accesses of the DMI register -/

theorem captureDr_dmi_length {t : Device} (h : t.ir = 0x11#5) : (captureDr t).drSr.length = 34 + t.par.abits := by
  rw [captureDr_length, h]
  rfl

theorem scannedIr_of_coherent {code : IrCode} {s : State} (h : Coherent code s) : scannedIr code s = code := by
  unfold scannedIr
  split
  case isTrue => rfl
  case isFalse hl => exact h (not_not.mp hl).symm

/-- A scan of the length of the DMI register gives its capture and leaves the scan-in. -/
theorem AccessEnds.of_dmiLength {code : IrCode} {cap w : Bits} {s s' : State} (e : AccessEnds code cap w s s')
    (h : cap.length = w.length) : s'.h.ret = .bits cap ∧ s'.t.drSr = w := by
  refine ⟨?_, ?_⟩
  · rw [e.out, ← h, List.take_left]
  · rw [e.drSr, ← h, List.drop_left]

/-- An access of the DMI register of a DTM at rest scans the word in, to wait in Update-DR (R163, R205). -/
theorem accessReg_dmi_quiet {n : Nat} {wdata : ScanWord} {s : State} (h : AccessReady n 0x11#5 (34 + s.t.par.abits) s)
    (hc : Coherent 0x11#5 s) (hq : DtmQuiet s.t) :
    ∃ cap s', accessReg 0x11#5 wdata (34 + s.t.par.abits) s = .next s' ∧
      AccessEnds 0x11#5 cap (natBits (34 + s.t.par.abits) wdata.toNat) s s' ∧
      s'.t.drSr = natBits (34 + s.t.par.abits) wdata.toNat ∧ DtmSame s s' ∧ Ready n s' := by
  obtain ⟨d, s', e, ends, frame, ready, dir, dpar, -, -⟩ := accessReg_ends (wdata := wdata) h
  have hlen := captureDr_dmi_length (dir.trans (scannedIr_of_coherent hc))
  rw [dpar] at hlen
  obtain ⟨-, drSr⟩ := ends.of_dmiLength (hlen.trans (natBits_length ..).symm)
  exact ⟨_, s', e, ends, drSr, frame.quiet hq, ready⟩

/-- The request that a word waiting in Update-DR carries (R137, R138). -/
def wordRequest (op : ReqOp) (t : Device) : DmiRequest :=
  ⟨op, dmiAddrField t.par.abits t.drSr, op.datum (dmiDataField t.drSr)⟩

/-- The falling edge at which an idle DTM hands over the request that waits in Update-DR (R137, R138, R148). -/
theorem DtmFall.sends {s u : State} {op : ReqOp} {d : Nat} {ds : List Nat} (f : DtmFall s u) (hstate : s.t.state = .updDR)
    (hir : s.t.ir = 0x11#5) (hop : dmiOpField s.t.drSr = op.code) (hok : s.t.status = .ok) (hidle : s.t.inflight = none)
    (hlat : s.m.latencies = d :: ds) :
    u.t.inflight = some ⟨wordRequest op s.t, d⟩ ∧ u.t.respAddr = (wordRequest op s.t).addr ∧ u.t.status = .ok ∧
      u.m.requests = s.m.requests ++ [wordRequest op s.t] ∧ u.m.latencies = ds ∧ u.m.answers = s.m.answers := by
  obtain ⟨x, v, sx, xir, xdr, xpar, update, vu⟩ := f.word hstate
  obtain ⟨sent, addr, ok, -, requests, latencies, answers⟩ := updateDr_request update (xir.trans hir) (xdr ▸ hop)
    (sx.status.trans hok) (sx.inflight.trans hidle) (by rw [sx.m, hlat])
  rw [xdr, xpar] at sent addr requests
  rw [sx.m] at requests answers
  rw [← vu.m] at requests latencies answers
  exact ⟨vu.inflight.trans sent, vu.respAddr.trans addr, vu.status.trans ok, requests, latencies, answers⟩

/-- What an access from `s` to `s'` leaves that has handed `q` to M and captured its answer `a`, which is OK: `ds` and `as` are the
draws left. -/
structure Answered (q : DmiRequest) (a : DmiResponse) (ds : List Nat) (as : List DmiResponse) (s s' : State) : Prop where
  out : ∃ x : Word32, s'.h.ret = .bits (natBits 2 0 ++ (natBits 32 x.toNat ++ natBits s.t.par.abits q.addr)) ∧
    (q.op = .read → x = a.rdata)
  status : s'.t.status = .ok
  inflight : s'.t.inflight = none
  requests : s'.m.requests = s.m.requests ++ [q]
  latencies : s'.m.latencies = ds
  answers : s'.m.answers = as

/-- The access whose first falling edge hands over the request that waits in Update-DR captures its answer, where M answers OK
within the dwell (R206). -/
theorem accessReg_dmi_answered {n d : Nat} {op : ReqOp} {a : DmiResponse} {ds : List Nat} {as : List DmiResponse}
    {wdata : ScanWord} {s : State} (h : AccessReady n 0x11#5 (34 + s.t.par.abits) s) (hlast : s.h.lastIr = 0x11#5)
    (hstate : s.t.state = .updDR) (hir : s.t.ir = 0x11#5) (hop : dmiOpField s.t.drSr = op.code) (hok : s.t.status = .ok)
    (hidle : s.t.inflight = none) (hlat : s.m.latencies = d :: ds) (hans : s.m.answers = a :: as)
    (htime : d ≤ s.h.idleCycles + 2) (ha : a.ok = true) :
    ∃ cap s', accessReg 0x11#5 wdata (34 + s.t.par.abits) s = .next s' ∧
      AccessEnds 0x11#5 cap (natBits (34 + s.t.par.abits) wdata.toNat) s s' ∧
      s'.t.drSr = natBits (34 + s.t.par.abits) wdata.toNat ∧ Ready n s' ∧
      Answered (wordRequest op s.t) a ds as s s' := by
  obtain ⟨u, c, e, s', run, eq⟩ := accessReg_done (wdata := wdata) h
  -- the falling edge of the first cycle hands the request over
  obtain ⟨sent, addr, sok, requests, latencies, answers⟩ := run.fall.sends hstate hir hop hok hidle hlat
  -- the rising edges before the capture bring the answer
  have edges : edgesBeforeCapture 0x11#5 s = s.h.idleCycles + 3 := if_neg (by simp [hlast])
  obtain ⟨cidle, canswers, b, drawn, data, status⟩ := run.before.answered _ _ sent (by omega)
  obtain rfl : b = a := drawn.head (answers.trans hans)
  have cok : c.t.status = .ok := by rw [status, if_neg (by simp [ha]), sok]
  -- the capture reports it, and the edges after it change nothing
  have cir : c.t.ir = 0x11#5 := run.capIr.trans (scannedIr_of_coherent fun _ => by
    rw [settledIr_of_ne_updIR (by rw [hstate]; decide), hir])
  have cap : (captureDr c.t).drSr =
      natBits 2 0 ++ (natBits 32 c.t.respData.toNat ++ natBits s.t.par.abits (wordRequest op s.t).addr) := by
    rw [captureDr_dmi cir, dmiCapture, noteBusy_status_of_not_busy (.inl cidle), cok, noteBusy_respData, noteBusy_respAddr,
      noteBusy_par, run.capPar, run.before.respAddr, addr]
    rfl
  have after : DtmSame c s' := by
    have captured := run.capture.idle_same cidle
    exact captured.trans (run.after.idle_same (captured.inflight.trans cidle))
  have ends := run.ends
  rw [natBits_length] at ends
  obtain ⟨ret, drSr⟩ := ends.of_dmiLength (by
    rw [captureDr_dmi_length cir, run.capPar, natBits_length])
  refine ⟨_, _, eq, ends, drSr, run.ready.setRet _, ⟨c.t.respData, ret.trans (congrArg Ret.bits cap), data⟩,
    after.status.trans cok, after.inflight.trans cidle, ?_, ?_, ?_⟩
  · rw [setRet_m, after.m, run.before.requests, requests]
  · rw [setRet_m, after.m, run.before.latencies, latencies]
  · rw [setRet_m, after.m, canswers, answers, hans, List.drop_one, List.tail_cons]

/-! ### H between two operations -/

theorem NoUpdate.allowed {t : Device} (h : NoUpdate t) : UpdateAllowed t := by
  rintro ⟨hstate, hir, hop⟩
  have := (h hstate).1 hir
  omega

/-- A device in Update-DR of the DMI register with a word of zeros: what a poll leaves (R136). -/
theorem noUpdate_zeros {t : Device} {k : Nat} (hir : t.ir = 0x11#5) (hdr : t.drSr = natBits (34 + k) (0#64).toNat) :
    NoUpdate t := by
  refine fun _ => ⟨fun _ => ?_, fun h => ?_⟩
  · rw [hdr, show 34 + k = 2 + (32 + k) by omega, dmiOpField, natBits_take, bitsVal_natBits]
    rfl
  · rw [hir] at h; cases h

theorem accessCycles_sameIr {code : IrCode} {s : State} (h : s.h.lastIr = code) (len : Nat) :
    accessCycles code len s = len + s.h.idleCycles + 5 := if_neg (by simp [h])

/-- The TCK cycles of an access of the DMI register without an IR scan (R162, R180). -/
def pollCycles (s : State) : Nat := 34 + s.t.par.abits + s.h.idleCycles + 5

/-- The next access of the DMI register, where H has just scanned it (R162, R180, R205). -/
theorem accessReady_again {n : Nat} {s : State} (h : Ready (n + pollCycles s) s)
    (hk : s.t.par.abits ≤ 30) (hlast : s.h.lastIr = 0x11#5) (hstate : s.t.state = .updDR) (ha : UpdateAllowed s.t) :
    AccessReady n 0x11#5 (34 + s.t.par.abits) s where
  ready := by rw [accessCycles_sameIr hlast]; exact h
  start := by rw [h.mirrored, hstate]; rfl
  allowed := ha
  lenPos := by omega
  lenMax := by rw [Config.maxScanLen]; omega

/-- H is between two Dtm operations and has learned the device (R171), the DTM is at rest under status OK, and the link stays up
for `n` cycles after an access of the DMI register. -/
structure DmiIdle (n : Nat) (s : State) : Prop where
  position : s.h.position = none
  abits : s.t.par.abits ≤ 30
  width : s.h.width = 34 + s.t.par.abits
  mask : s.h.mask = 2 ^ s.t.par.abits - 1
  access : AccessReady n 0x11#5 (34 + s.t.par.abits) s
  coherent : Coherent 0x11#5 s
  quiet : DtmQuiet s.t
  ok : s.t.status = .ok

theorem DmiIdle.withProgram {n : Nat} {s : State} (h : DmiIdle n s) (cs : List HostCall) :
    DmiIdle n { s with h := { s.h with program := cs } } where
  position := h.position
  abits := h.abits
  width := h.width
  mask := h.mask
  access := ⟨h.access.ready.congr rfl rfl rfl, h.access.start, h.access.allowed, h.access.lenPos, h.access.lenMax⟩
  coherent := h.coherent
  quiet := h.quiet
  ok := h.ok

/-- What the scans of a DMI operation that succeeds leave: G's and the device's constants, what H has learned and logged. -/
structure ScanKept (s s' : State) : Prop where
  tckHalf : s'.g.tckHalf = s.g.tckHalf
  par : s'.t.par = s.t.par
  idleCycles : s'.h.idleCycles = s.h.idleCycles
  width : s'.h.width = s.h.width
  mask : s'.h.mask = s.h.mask
  diag : s'.h.diag = s.h.diag

theorem Kept.scanKept {s s' : State} (k : Kept s s') : ScanKept s s' :=
  ⟨k.tckHalf, k.par, k.idleCycles, k.hwidth, k.mask, k.diag⟩

theorem ScanKept.trans {s u v : State} (a : ScanKept s u) (b : ScanKept u v) : ScanKept s v :=
  ⟨b.tckHalf.trans a.tckHalf, b.par.trans a.par, b.idleCycles.trans a.idleCycles, b.width.trans a.width, b.mask.trans a.mask,
    b.diag.trans a.diag⟩

theorem ScanKept.pollCycles {s s' : State} (k : ScanKept s s') : pollCycles s' = pollCycles s := by
  rw [Machine.pollCycles, k.par, k.idleCycles, Machine.pollCycles]

theorem ScanKept.goTo {s s' : State} (k : ScanKept s s') (p : Position) : ScanKept s (goTo p s') := { k with }

theorem ScanKept.finishOp {s s' : State} (k : ScanKept s s') (r : Ret) : ScanKept s (finishOp r s') := { k with }

/-! ### The two scans of an operation -/

/-- H has scanned a request in and polls next: the word waits in Update-DR, and M has not seen it (R173, R205). -/
structure Requested (n : Nat) (op : ReqOp) (addr data : Nat) (s s' : State) : Prop where
  ready : Ready n s'
  position : s'.h.position = some (.poll op addr)
  program : s'.h.program = s.h.program
  kept : ScanKept s s'
  lastIr : s'.h.lastIr = 0x11#5
  state : s'.t.state = .updDR
  ir : s'.t.ir = 0x11#5
  drSr : s'.t.drSr = natBits 2 op.code ++
    (natBits 32 (BitVec.ofNat 32 data).toNat ++ natBits s.t.par.abits (addr % 2 ^ s.t.par.abits))
  dtm : DtmSame s s'
  tick : s'.g.tick = s.g.tick + accessCycles 0x11#5 (34 + s.t.par.abits) s * (2 * s.g.tckHalf)

theorem ReqOp.code_le (op : ReqOp) : op.code ≤ 2 := by cases op <;> decide

theorem DmiIdle.request {n : Nat} {s : State} (h : DmiIdle n s) (op : ReqOp) (addr data : Nat) :
    ∃ s', runPosition (.request op addr data) s = .next s' ∧ Requested n op addr data s s' := by
  obtain ⟨cap, u, e, ends, drSr, dtm, ready⟩ :=
    accessReg_dmi_quiet (wdata := packRequest op.code addr data s.h.mask) h.access h.coherent h.quiet
  have scan : exec ((Position.request op addr data).instr s.h) s = .next u := by
    rw [Position.instr, exec_decodeIr, h.width, e]
  refine ⟨goTo (.poll op addr) u, runPosition_of_bits scan ends.out, ready.congr rfl rfl rfl, rfl, ends.kept.program,
    ends.kept.scanKept.goTo _, ends.lastIr, ends.state, ends.ir.trans (scannedIr_of_coherent h.coherent), ?_, { dtm with }, ?_⟩
  · rw [goTo_t, drSr, h.mask, packRequest_bits op.code_le h.abits]
  · rw [goTo_g, ends.tick, natBits_length]

/-- What a DMI operation returns that M answers with the datum `x` (R173, R174). -/
def ReqOp.value (op : ReqOp) (x : Word32) : Ret :=
  match op with
  | .read => .data x
  | .write => .unit

/-- A DMI operation that M answers OK in time has ended: M has seen one request, H has its value, and the DTM is at rest. -/
structure DmiOpEnds (n : Nat) (op : ReqOp) (addr data : Nat) (a : DmiResponse) (ds : List Nat) (as : List DmiResponse)
    (s s' : State) : Prop where
  ret : s'.h.ret = op.value a.rdata
  requests : s'.m.requests = s.m.requests ++ [⟨op, addr % 2 ^ s.t.par.abits, op.datum (BitVec.ofNat 32 data)⟩]
  latencies : s'.m.latencies = ds
  answers : s'.m.answers = as
  position : s'.h.position = none
  kept : ScanKept s s'
  lastIr : s'.h.lastIr = 0x11#5
  state : s'.t.state = .updDR
  ir : s'.t.ir = 0x11#5
  status : s'.t.status = .ok
  quiet : DtmQuiet s'.t
  ready : Ready n s'
  tick : s'.g.tick = s.g.tick + (accessCycles 0x11#5 (34 + s.t.par.abits) s + pollCycles s) * (2 * s.g.tckHalf)

theorem afterPoll_of_ok {r : Bits} (h : respResult r = 0) (op : ReqOp) (addr : Nat) (s : State) :
    afterPoll op addr r s = finishOp (opRet op r) s := by
  rw [afterPoll, if_neg (by rw [h]; decide), if_pos h]

section
variable {n addr data : Nat} {op : ReqOp} {s s₁ : State} (r : Requested n op addr data s s₁)
include r

theorem Requested.op_field : dmiOpField s₁.t.drSr = op.code := by
  rw [r.drSr, dmiOpField_word]
  cases op <;> rfl

theorem Requested.carried :
    wordRequest op s₁.t = ⟨op, addr % 2 ^ s.t.par.abits, op.datum (BitVec.ofNat 32 data)⟩ := by
  rw [wordRequest, r.drSr, r.kept.par, dmiAddrField_word, dmiDataField_word, Nat.mod_mod]

theorem Requested.allowed : UpdateAllowed s₁.t := by
  rintro ⟨-, -, hop⟩
  have := op.code_le
  rw [r.op_field] at hop
  omega

theorem Requested.coherent : Coherent 0x11#5 s₁ := fun _ => by
  rw [settledIr_of_ne_updIR (by rw [r.state]; decide), r.ir]

end

/-- The poll after a request that M answers OK within the dwell ends the operation (R173, R174, R206). -/
theorem Requested.poll {n d addr data : Nat} {op : ReqOp} {a : DmiResponse} {ds : List Nat} {as : List DmiResponse}
    {s s₁ : State} (r : Requested (n + pollCycles s) op addr data s s₁) (h : DmiIdle (n + pollCycles s) s)
    (hlat : s.m.latencies = d :: ds) (hans : s.m.answers = a :: as) (htime : d ≤ s.h.idleCycles + 2) (ha : a.ok = true) :
    ∃ s₂, step s₁ = .next s₂ ∧ DmiOpEnds n op addr data a ds as s s₂ ∧ s₂.h.program = s.h.program := by
  have par : s₁.t.par = s.t.par := r.kept.par
  have access : AccessReady n 0x11#5 (34 + s₁.t.par.abits) s₁ :=
    accessReady_again (by rw [r.kept.pollCycles]; exact r.ready) (par ▸ h.abits) r.lastIr r.state r.allowed
  obtain ⟨cap, u, e, ends, drSr, ready, answered⟩ := accessReg_dmi_answered (wdata := 0#64) access r.lastIr r.state r.ir
    r.op_field (r.dtm.status.trans h.ok) (r.dtm.inflight.trans h.quiet.idle) (by rw [r.dtm.m, hlat]) (by rw [r.dtm.m, hans])
    (by rw [r.kept.idleCycles]; exact htime) ha
  obtain ⟨x, out, datum⟩ := answered.out
  have scan : exec ((Position.poll op addr).instr s₁.h) s₁ = .next u := by
    rw [Position.instr, exec_decodeIr, r.kept.width, h.width, ← par, e]
  have polled := (step_of_position r.position).trans (runPosition_of_bits scan out)
  rw [afterScan, afterPoll_of_ok (respResult_word _ _ _ _ (by decide))] at polled
  have ir : u.t.ir = 0x11#5 := ends.ir.trans (scannedIr_of_coherent r.coherent)
  refine ⟨_, polled, ⟨?_, ?_, answered.latencies, answered.answers, rfl, (r.kept.trans ends.kept.scanKept).finishOp _,
    ends.lastIr, ends.state, ir, answered.status, ⟨answered.inflight, noUpdate_zeros ir drSr⟩, ready.congr rfl rfl rfl, ?_⟩,
    ends.kept.program.trans r.program⟩
  · cases op with
    | read => rw [finishOp_h, opRet, respDatum_word, datum rfl, ReqOp.value]
    | write => rfl
  · rw [finishOp_m, answered.requests, r.dtm.m, r.carried]
  · rw [finishOp_g, ends.tick, r.tick, r.kept.tckHalf, natBits_length, accessCycles_sameIr r.lastIr, par, r.kept.idleCycles,
      pollCycles]
    ring

/-- A call that begins with a request scan takes two steps, that scan and one poll, where M answers it OK within the dwell (R173,
R174, R206). -/
theorem DmiIdle.dmiOp {n d addr data : Nat} {op : ReqOp} {a : DmiResponse} {ds : List Nat} {as : List DmiResponse}
    {c : HostCall} {rest : List HostCall} {s : State} (h : DmiIdle (n + pollCycles s) s) (hprog : s.h.program = c :: rest)
    (hcall : ∀ x, runCall c x = runPosition (.request op addr data) x) (hlat : s.m.latencies = d :: ds)
    (hans : s.m.answers = a :: as) (htime : d ≤ s.h.idleCycles + 2) (ha : a.ok = true) :
    ∃ s₁ s₂, step s = .next s₁ ∧ step s₁ = .next s₂ ∧ DmiOpEnds n op addr data a ds as s s₂ ∧ s₂.h.program = rest := by
  have idle := h.withProgram rest
  obtain ⟨s₁, scan, requested⟩ := idle.request op addr data
  obtain ⟨s₂, polled, ends, program⟩ :=
    Requested.poll (n := n) (s := { s with h := { s.h with program := rest } }) requested idle hlat hans htime ha
  exact ⟨s₁, s₂, (step_of_call h.position hprog).trans ((hcall _).trans scan), polled,
    { ends with kept := { ends.kept with } }, program⟩

/-- After an operation that succeeded H is between two operations again. -/
theorem DmiOpEnds.dmiIdle {k n addr data : Nat} {op : ReqOp} {a : DmiResponse} {ds : List Nat} {as : List DmiResponse}
    {s s' : State} (e : DmiOpEnds (n + pollCycles s) op addr data a ds as s s') (h : DmiIdle k s) : DmiIdle n s' where
  position := e.position
  abits := by rw [e.kept.par]; exact h.abits
  width := by rw [e.kept.width, e.kept.par]; exact h.width
  mask := by rw [e.kept.mask, e.kept.par]; exact h.mask
  access := accessReady_again (by rw [e.kept.pollCycles]; exact e.ready) (by rw [e.kept.par]; exact h.abits) e.lastIr e.state
    e.quiet.noUpdate.allowed
  coherent := fun _ => by rw [settledIr_of_ne_updIR (by rw [e.state]; decide), e.ir]
  quiet := e.quiet
  ok := e.status

end Sys2Proof.Machine

open Sys2Proof Sys2Proof.Machine

/-- Settles O39: each operation takes its two steps (`DmiIdle.dmiOp`), and the first leaves H and the DTM ready for the second. -/
theorem writeThenReadReturnsTheDatum : Obligations.WriteThenReadReturnsTheDatum := by
  intro n d₁ d₂ addr v a₁ a₂ ds as rest s hpos hprog habits hwidth hmask access hcoh hquiet hok hlat hans ht₁ ht₂ ha₁ ha₂ hdata
  rw [hwidth] at access
  have idle : DmiIdle (n + pollCycles s + pollCycles s + pollCycles s) s := by
    refine ⟨hpos, habits, hwidth, hmask, ?_, hcoh, hquiet, hok⟩
    convert access using 1
    rw [pollCycles]
    ring
  obtain ⟨s₁, s₂, e₁, e₂, write, program⟩ := idle.dmiOp hprog (op := .write) (fun _ => rfl) hlat hans ht₁ ha₁
  have idle₂ : DmiIdle (n + pollCycles s₂) s₂ := by
    rw [write.kept.pollCycles]
    exact write.dmiIdle idle
  obtain ⟨s₃, s₄, e₃, e₄, read, program'⟩ := idle₂.dmiOp program (op := .read) (fun _ => rfl) write.latencies write.answers
    (by rw [write.kept.idleCycles]; exact ht₂) ha₂
  refine ⟨s₁, s₂, s₃, s₄, e₁, e₂, e₃, e₄, write.ret, read.ret.trans (congrArg Ret.data hdata), ?_, program',
    read.kept.diag.trans write.kept.diag⟩
  rw [read.requests, write.requests, write.kept.par, List.append_assoc]
  rfl
end

section
/-! The register access of a link that is up, by the register the IR code selects (R121, R125-R132, R142). -/

namespace Sys2Proof.Machine

/-! ### BYPASS -/

/-- The codes that select BYPASS (R125, R131, R132): all but those of IDCODE, DTMCS and the DMI register. -/
def selectsBypass (code : IrCode) : Bool := code != 0x01#5 && code != 0x10#5 && code != 0x11#5

/-- The codes that select BYPASS, in the table's order. -/
def bypassCodes : List IrCode := ((List.range 32).map (BitVec.ofNat 5)).filter selectsBypass

theorem captureDr_of_selectsBypass {t : Device} (h : selectsBypass t.ir = true) : (captureDr t).drSr = [false] := by
  simp only [selectsBypass, Bool.and_eq_true, bne_iff_ne, and_assoc] at h
  obtain ⟨h01, h10, h11⟩ := h
  exact captureDr_bypass h01 h10 h11

/-- The access of a host whose record of the IR is right captures the register of its code (R121). -/
theorem accessReg_coherent {code : IrCode} {wdata : ScanWord} {len n : Nat} {s : State} (h : AccessReady n code len s)
    (hc : Coherent code s) :
    ∃ u d s', accessReg code wdata len s = .next s' ∧ AccessEnds code (captureDr d.t).drSr (natBits len wdata.toNat) s s' ∧
      DtmFrame s s' ∧ Ready n s' ∧ d.t.ir = code ∧ d.t.par = s.t.par ∧ (DtmQuiet s.t → DtmSame s d) ∧
      DtmFall s u ∧ DtmRises (edgesBeforeCapture code s) u d := by
  obtain ⟨u, d, s', e, ends, frame, ready, ir, rest⟩ := accessReg_captures (wdata := wdata) h
  exact ⟨u, d, s', e, ends, frame, ready, ir.trans (scannedIr_of_coherent hc), rest⟩

/-! ### The DTM at the capture -/

/-- A sticky status with no command waiting is the one captured (R143, R147). -/
theorem status_at_capture {k : Nat} {s u d : State} (fall : DtmFall s u) (rises : DtmRises k u d) (hn : NoUpdate s.t)
    (hs : s.t.status ≠ .ok) : d.t.status = s.t.status := by
  have kept : u.t.status = s.t.status := fall.sticky hn hs
  exact (rises.sticky (kept ▸ hs)).trans kept

/-- DTMCS as captured depends on the read-only contents and the status (R127). -/
theorem dtmcsValue_congr {t u : Device} (h : u.par = t.par) : dtmcsValue u = dtmcsValue { t with status := u.status } := by
  unfold dtmcsValue
  rw [h]

/-- The result a capture of the DMI register reports (R142). -/
theorem noteBusy_code (t : Device) :
    (noteBusy t).status.code = if t.inflight ≠ none ∧ t.status = .ok then 3 else t.status.code := by
  split
  case isTrue h => rw [noteBusy_status_of_busy h.1 h.2]; rfl
  case isFalse h => rw [noteBusy_status_of_not_busy (by tauto)]

/-- The DMI register as captured (R142), in the terms of the claims. -/
theorem captureDr_dmi_fields {t : Device} (h : t.ir = 0x11#5) :
    (captureDr t).drSr = natBits 2 (if t.inflight ≠ none ∧ t.status = .ok then 3 else t.status.code) ++
      (natBits 32 t.respData.toNat ++ natBits t.par.abits t.respAddr) := by
  rw [captureDr_dmi h, dmiCapture, noteBusy_code, noteBusy_respData, noteBusy_respAddr, noteBusy_par]

end Sys2Proof.Machine

open Sys2Proof Sys2Proof.Machine

/-- Settles O25: the 29 instructions are what `bypassCodes` decode to, and such an access captures the one bit of BYPASS. -/
theorem bypassAccessDelaysTheScanIn : Obligations.BypassAccessDelaysTheScanIn := by
  intro n len wdata s
  show ∀ p ∈ bypassCodes.map fun code => (code, decodeIr code len wdata), _
  intro p hp h hc
  obtain ⟨code, hcode, rfl⟩ := List.mem_map.mp hp
  obtain ⟨-, hsel⟩ := List.mem_filter.mp hcode
  obtain ⟨-, d, s', e, ends, frame, ready, ir, -⟩ := accessReg_coherent (wdata := wdata) h hc
  rw [captureDr_of_selectsBypass (ir.symm ▸ hsel)] at ends
  exact ⟨s', (exec_decodeIr code len wdata s).trans e, ends, frame, ready⟩

/-- Settles O26: the access captures IDCODE, whose value is a read-only content of the device. -/
theorem idcodeAccessReadsTheIdcode : Obligations.IdcodeAccessReadsTheIdcode := by
  intro n len wdata s h hc
  obtain ⟨-, d, s', e, ends, frame, ready, ir, par, -⟩ := accessReg_coherent (wdata := wdata) h hc
  rw [captureDr_idcode ir, par] at ends
  exact ⟨s', e, ends, frame, ready⟩

/-- Settles O27: the access captures DTMCS with the status of the DTM in Capture-DR, which is the present one where the DTM is at
rest or sticky (`status_at_capture`). -/
theorem dtmcsAccessReadsTheRegister : Obligations.DtmcsAccessReadsTheRegister := by
  intro n len wdata s h hc
  obtain ⟨u, d, s', e, ends, frame, ready, ir, par, quiet, fall, rises⟩ := accessReg_coherent (wdata := wdata) h hc
  rw [captureDr_dtmcs ir, dtmcsValue_congr par] at ends
  exact ⟨u, d, s', e, fall, rises, ends, fun hq => (quiet hq).status, status_at_capture fall rises, frame, ready⟩

/-- Settles O28: the access captures the DMI register with the DTM as it stands in Capture-DR. -/
theorem dmiaccessAccessReadsTheRegister : Obligations.DmiaccessAccessReadsTheRegister := by
  intro n len wdata s h hc
  obtain ⟨u, d, s', e, ends, frame, ready, ir, par, quiet, fall, rises⟩ := accessReg_coherent (wdata := wdata) h hc
  rw [captureDr_dmi_fields ir, par] at ends
  have respAddr : NoUpdate s.t → d.t.respAddr = s.t.respAddr := fun hn => rises.respAddr.trans (fall.noUpdate hn).1
  exact ⟨u, d, s', e, fall, rises, ends, quiet, respAddr, status_at_capture fall rises, frame, ready⟩
end

section
/-! `Tap.reset` (R159, R198, R201, R202): from construction through the reset window, and on a link that is up. -/

namespace Sys2Proof.Machine

/-! ### Through the window -/

/-- The reset window and the first rising edge after it, in main half-periods (R8, R102). -/
theorem ClockOk.window {s : State} (h : ClockOk s) :
    s.g.tckHalf = 2 * s.g.mainHalf ∧ s.g.resetDur = 20 * s.g.mainHalf := by
  have hT : s.g.tckHalf = 2 * s.g.mainHalf := h.tckHalf_eq
  refine ⟨hT, ?_⟩
  rw [h.resetDur_eq, hT, Config.resetTckHalves]
  omega

/-- `Tap.reset` of a held device at tick 0: 20 advances to the end of the window, two more to the rising edge (R159). -/
theorem tapReset_window {b : Nat} {s : State} (t : Timed b s) (hd : Held s.t) (h0 : s.g.tick = 0) (hb : 22 * s.g.mainHalf ≤ b) :
    ∃ u, tapReset s = .next (setRet (.flag true) (mirror false u)) ∧ Steps 22 (drive false false s) u ∧ Released u.t := by
  obtain ⟨hT, hdur⟩ := t.toClockOk.window
  have hm := t.main_pos
  have tick0 : (drive false false s).g.tick = 0 := h0
  have main : (drive false false s).g.mainHalf = s.g.mainHalf := rfl
  have phase0 : phase (drive false false s) = 0 := by rw [phase, tick0, Nat.zero_div]
  obtain ⟨x, e, toEnd, held⟩ := untilOutOfReset_held 19 (s.g.resetDur + 1) b (drive false false s) (t.drive false false)
    (by rw [tick0, main]; omega) hd (by omega) (by omega) rfl
  have xtick := toEnd.tick
  rw [tick0, main] at xtick
  have bound : 2 ≤ edgeBound x := by
    rw [edgeBound, toEnd.kept.tckHalf, show (drive false false s).g.tckHalf = s.g.tckHalf from rfl]
    omega
  obtain ⟨c, u, e', toRise, -, released⟩ := untilPosedge_held 2 (edgeBound x) none b x
    (toEnd.timed b (t.drive false false) (by rw [tick0, main]; omega)) (by rw [xtick, toEnd.kept.mainHalf, main]; omega) held
    (by omega) (by omega) (by rw [toEnd.phase, phase0]) bound toEnd.tms
  refine ⟨u, ?_, toEnd.trans toRise, released ?_⟩
  · unfold tapReset
    rw [e]
    simp only [e']
  · rw [toRise.tick, xtick, toEnd.kept.mainHalf, toEnd.kept.resetDur, main]
    show s.g.resetDur ≤ _
    omega

/-- Nothing of H is in G's consistency (R24). -/
theorem ClockOk.withEngine {s : State} (h : ClockOk s) (k : Engine) : ClockOk { s with h := k } := { h with }

theorem AfterRise.of_phase {s : State} (h : ClockOk s) (hp : phase s % 4 = 2) : AfterRise s := ⟨h, h.risen_iff.mpr hp⟩

/-- A device that has just taken its first rising edge is up once H's record has followed it (R158, R201). -/
theorem LinkUp.of_released {s : State} (h : AfterRise s) (hd : Released s.t) (hp : s.g.resetDur ≤ s.g.tick)
    (hs : s.h.state = .tlr) : LinkUp (mirror false s) where
  toAfterRise := ⟨h.toClockOk.withEngine _, h.risen⟩
  past := hp
  started := hd.fresh
  mirrored := by rw [mirror_h, hs, mirror_t, hd.state]; rfl
  width := fun x => by rw [mirror_t, hd.state] at x; cases x

/-! ### From construction -/

theorem initial_held (p : Params) : Held (State.initial p).t := ⟨rfl, rfl, rfl, rfl, rfl⟩

/-- The machine as construction leaves it does not end before the cap, if there is one: it has no `$finish`. -/
theorem initial_timed {b : Nat} {p : Params} (h : ClockOk (State.initial p)) (hb : p.maxTime = 0 ∨ b < p.maxTime) :
    Timed b (State.initial p) := ⟨h, Nat.zero_le b, rfl, hb, fun k hk => by cases hk⟩

/-- What `Tap.reset` makes of the machine as construction leaves it (R159, R198, R201). -/
structure BroughtUp (n : Nat) (p : Params) (s : State) : Prop where
  ret : s.h.ret = .flag true
  tick : s.g.tick = p.resetDur + p.tckHalf
  device : Released s.t
  hstate : s.h.state = .rti
  lastIr : s.h.lastIr = 0#5
  tms : s.g.tms = false
  tdi : s.g.tdi = false
  m : s.m = (State.initial p).m
  kept : Kept (State.initial p) s
  ready : Ready n s

theorem tapReset_initial {n : Nat} {p : Params} (hv : Params.valid p = true) (ht : p.tckHalfMult = Config.tckHalfMult)
    (hr : p.resetTckHalves = Config.resetTckHalves)
    (hcap : p.maxTime = 0 ∨ p.resetDur + p.tckHalf + n * (2 * p.tckHalf) < p.maxTime) :
    ∃ s, tapReset (State.initial p) = .next s ∧ BroughtUp n p s := by
  have clock := initial_clockOk hv ht hr
  obtain ⟨hT, hdur⟩ : p.tckHalf = 2 * p.mainHalf ∧ p.resetDur = 20 * p.mainHalf := clock.window
  have timed := initial_timed clock hcap
  have inTime : 22 * p.mainHalf ≤ p.resetDur + p.tckHalf + n * (2 * p.tckHalf) := by omega
  obtain ⟨u, e, steps, released⟩ := tapReset_window timed (initial_held p) rfl inTime
  have utick : u.g.tick = p.resetDur + p.tckHalf := by
    rw [steps.tick]
    show 0 + 22 * p.mainHalf = _
    omega
  have uphase : phase u = 22 := by
    rw [steps.phase]
    show 0 / p.mainHalf + 22 = 22
    rw [Nat.zero_div]
  have kept : Kept (State.initial p) u := (kept_drive false false _).trans steps.kept
  have uh : u.h = (drive false false (State.initial p)).h := steps.h
  have past : u.g.resetDur ≤ u.g.tick := by
    rw [utick, kept.resetDur]
    exact Nat.le_add_right _ _
  have up : LinkUp (mirror false u) :=
    .of_released (.of_phase steps.clock (by rw [uphase])) released past (by rw [uh]; rfl)
  have later := steps.timed _ (timed.drive false false) (by rw [drive_g]; show 0 + 22 * p.mainHalf ≤ _; omega)
  have going : NotEnding n (mirror false u) := by
    refine ⟨later.unfinished, ?_, ?_⟩
    · rw [mirror_g, utick, kept.tckHalf]; exact later.cap
    · rw [mirror_g, utick, kept.tckHalf]; exact later.fin
  exact ⟨_, e, rfl, utick, released, by rw [setRet_h, mirror_h, uh]; rfl, by rw [setRet_h, mirror_h, uh]; rfl, steps.tms,
    steps.tdi, steps.m, (kept.mirror false).setRet _, (Ready.mk up going).setRet _⟩

/-- A loaded call is the next step, on the machine with nothing left in the program. -/
theorem step_loadCall_initial (c : HostCall) (p : Params) : step (loadCall c (State.initial p)) = runCall c (State.initial p) := rfl

/-! ### On a link that is up -/

/-- A later `Tap.reset` is a TCK cycle with both pins low (R159, R202). -/
theorem tapReset_of_cycle {n : Nat} {s s' : State} {b : Option Bool} (h : Ready (n + 1) s) (e : cycle false false s = .done b s') :
    tapReset s = .next (setRet (.flag true) s') := by
  rw [tapReset_eq h.toAfterRise h.live, e]

theorem nextTap_startState {x : TapState} (h : startState x = true) : nextTap x false = .rti := by
  rcases startState_cases h with rfl | rfl | rfl <;> rfl

end Sys2Proof.Machine

open Sys2Proof Sys2Proof.Machine

/-- Settles O15: the held device is brought through the window to its first rising edge (`tapReset_window`), which releases it. -/
theorem tapResetBringsTheLinkUp : Obligations.TapResetBringsTheLinkUp := by
  intro n p hv ht hr hcap
  obtain ⟨s, e, b⟩ := tapReset_initial hv ht hr hcap
  exact ⟨s, (step_loadCall_initial .tapReset p).trans e, b.ret, b.tick, b.device.state, b.hstate, b.device.ir, b.lastIr,
    b.device.status, b.device.inflight, b.tms, b.tdi, b.m, b.kept.program, b.ready⟩

/-- Settles O16: the call is one TCK cycle with both pins low (`tapReset_of_cycle`), with the effect of the state it is spent in. -/
theorem laterTapResetIsOneIdleCycle : Obligations.LaterTapResetIsOneIdleCycle := by
  intro n s h ha
  obtain ⟨b, s', e, ready, c⟩ := cycle_effect h ha false false
  have toIdle : startState s.h.state = true → s'.t.state = .rti ∧ s'.h.state = .rti := fun hs =>
    ⟨c.state.trans (nextTap_startState (h.mirrored ▸ hs)), c.hstate.trans (nextTap_startState hs)⟩
  exact ⟨setRet (.flag true) s', tapReset_of_cycle h e, rfl, c.state, c.hstate, toIdle, c.tick,
    fun hs => c.ir.trans (if_neg hs), c.lastIr, fun hq _ => (c.frame.quiet hq).setRet _, c.kept.setRet _, ready.setRet _⟩
end

section
/-! The calls of H that are accesses (R164, R166-R168, R172), H's reaction to the scans of a Dtm operation (R173-R177, R188), and
whatever meets the reserved DMI op (R139). -/

namespace Sys2Proof.Machine

/-! ### The checks of an access -/

section
variable {code : IrCode} {len : Nat} {wdata : ScanWord} {s : State}

theorem accessReg_tooLong (h : Config.maxScanLen < len) : accessReg code wdata len s = .fault (.scanTooLong len) := if_pos h

theorem accessReg_zeroLength : accessReg code wdata 0 s = .refused .zeroLengthScan := rfl

/-- Where the checks of the length pass, the start state is checked next (R160, R184). -/
theorem accessReg_badStart (hpos : 1 ≤ len) (hmax : len ≤ Config.maxScanLen) (hs : startState s.h.state = false) :
    accessReg code wdata len s = .refused .badStartState := by
  unfold accessReg
  rw [if_neg (Nat.not_lt.mpr hmax), if_neg (Nat.one_le_iff_ne_zero.mp hpos), if_pos (by rw [hs]; rfl)]

/-- Where every check passes, a refusal of the scan is the access's. -/
theorem accessReg_of_scan_refused {r : Refusal} (hpos : 1 ≤ len) (hmax : len ≤ Config.maxScanLen)
    (hs : startState s.h.state = true) (e : accessScan code wdata len s = .refused r) :
    accessReg code wdata len s = .refused r := by
  unfold accessReg
  rw [if_neg (Nat.not_lt.mpr hmax), if_neg (Nat.one_le_iff_ne_zero.mp hpos), if_neg (by rw [hs]; decide), e]

theorem startState_eq_false {x : TapState} (h1 : x ≠ .rti) (h2 : x ≠ .updDR) (h3 : x ≠ .updIR) : startState x = false := by
  simp [startState, h1, h2, h3]

end

/-! ### An access whose scan-out is discarded -/

theorem discardOut_of_bits {s : State} {out : Bits} (h : s.h.ret = .bits out) : discardOut (.next s) = .next (setRet .unit s) := by
  simp only [discardOut, h]

theorem discardOut_of_simEnded {s : State} (h : s.h.ret = .simEnded) : discardOut (.next s) = .next s := by
  simp only [discardOut, h]

/-! ### The reserved op -/

theorem dwellPins_eq_cons (n : Nat) : dwellPins n = (false, false) :: List.replicate n (false, false) := by
  rw [dwellPins, Nat.add_comm, List.replicate_succ]

section
variable {n : Nat} {s : State} (h : Ready (n + 1) s) (ha : ¬ UpdateAllowed s.t)
include h ha

theorem runPins_refused (p : PinPair) (ps : List PinPair) : runPins (p :: ps) s = .refused .dmiOpReserved := by
  simp only [runPins, cycle_refused h ha]

/-- Either path of an access begins with the cycle that performs the word that waits (R161, R162). -/
theorem irOrDwell_refused (code : IrCode) : irOrDwell code s = .refused .dmiOpReserved := by
  unfold irOrDwell
  split
  case isTrue => rw [show irPins code = (true, false) :: _ from rfl, runPins_refused h ha]
  case isFalse => rw [dwellPins_eq_cons, runPins_refused h ha]

/-- The word waits in Update-DR, a state an access may start from (R160). -/
theorem accessReg_refused {code : IrCode} {len : Nat} {wdata : ScanWord} (hpos : 1 ≤ len) (hmax : len ≤ Config.maxScanLen) :
    accessReg code wdata len s = .refused .dmiOpReserved := by
  have waits : s.h.state = .updDR := h.mirrored.trans (not_not.mp ha).1
  exact accessReg_of_scan_refused hpos hmax (by rw [waits]; rfl) (by unfold accessScan; rw [irOrDwell_refused h ha])

theorem tapReset_refused : tapReset s = .refused .dmiOpReserved := by
  rw [tapReset_eq h.toAfterRise h.live, cycle_refused h ha]

end

/-- An `eval` that commits a falling edge with `rst_n` high is refused where the falling edge is (R93). -/
theorem eval_refused_of_fall {s : State} (hr : s.g.rstN = true) (hseen : s.t.pins.tck = true) (ht : s.g.tck = false)
    (ha : ¬ UpdateAllowed s.t) : eval s = .refused .dmiOpReserved := by
  apply eval_refused
  have committed : (commitPins s).t.pins.tck = false := ht
  rw [deviceStep_high _ (s := commitPins s) hr, hseen, committed]
  exact negedgeStep_refused ha

/-! ### After a scan of a Dtm operation -/

/-- The simulation ended inside the scan of a position, so the operation is over (R188). -/
theorem runPosition_of_simEnded {p : Position} {s u : State} (h : exec (p.instr s.h) s = .next u) (hr : u.h.ret = .simEnded) :
    runPosition p s = .next { u with h := { u.h with position := none } } := by
  unfold runPosition
  rw [h]
  simp only [hr]

theorem afterPoll_of_retry {r : Bits} (h : respResult r = 3) (op : ReqOp) (addr : Nat) (s : State) :
    afterPoll op addr r s = goTo (.retryReset op addr) s := if_pos h

theorem afterPoll_of_error {r : Bits} (h3 : respResult r ≠ 3) (h0 : respResult r ≠ 0) (op : ReqOp) (addr : Nat) (s : State) :
    afterPoll op addr r s = finishOp (opRet op r) (emit ⟨addr, respResult r⟩ s) := by
  rw [afterPoll, if_neg h3, if_neg h0]

end Sys2Proof.Machine

open Sys2Proof Sys2Proof.Machine

/-- Settles O19: the falling edge that would perform the op is refused, and with it the first cycle of each operation. -/
theorem reservedDmiOpIsRefused : Obligations.ReservedDmiOpIsRefused :=
  ⟨fun _ _ _ => rfl, fun tms tdi _ h ha => execTckCycle_refused (cycle_refused h ha tms tdi),
    fun code len wdata s h ha hpos hmax => (exec_decodeIr code len wdata s).trans (accessReg_refused h ha hpos hmax),
    fun _ h ha => tapReset_refused h ha, fun _ hr hseen ht ha => eval_refused_of_fall hr hseen ht ha⟩

/-- Settles O30: every IR code's instruction is `access_reg` for that code, which makes its checks in this order. -/
theorem accessChecksComeFirst : Obligations.AccessChecksComeFirst := by
  intro code len wdata s
  rw [exec_decodeIr]
  refine ⟨accessReg_tooLong, ?_, fun hpos hmax h1 h2 h3 => accessReg_badStart hpos hmax (startState_eq_false h1 h2 h3)⟩
  rintro rfl
  exact accessReg_zeroLength

/-- Settles O32: `write_reg` is the same access with its outcome passed to `discardOut`. -/
theorem writeRegDiscardsTheScanOut : Obligations.WriteRegDiscardsTheScanOut := by
  intro code wdata len s
  have write : runCall (.writeReg code wdata len) s = discardOut (runCall (.accessReg code wdata len) s) := rfl
  rw [write]
  refine ⟨fun s' out e hr => ?_, fun s' e hr => ?_, fun f e => ?_, fun r e => ?_⟩
  · rw [e, discardOut_of_bits hr, setRet]
  · rw [e, discardOut_of_simEnded hr]
  · rw [e, discardOut]
  · rw [e, discardOut]

/-- Settles O33: the call writes the dwell count and H's result; a field of three bits is below 8. -/
theorem idleCycleCountSetsTheDwell : Obligations.IdleCycleCountSetsTheDwell :=
  ⟨fun _ _ => rfl, fun d _ => ⟨rfl, Nat.le_of_lt_succ (bitsVal_take_lt (d.drop 12) 3)⟩⟩

/-- Settles O36: each step makes the scan of H's position (`runPosition_of_bits`), and `afterPoll` splits on its result. -/
theorem pollsFollowTheRetryPolicy : Obligations.PollsFollowTheRetryPolicy := by
  intro op addr s s'
  refine ⟨fun r hp e hr => ?_, fun r hp e hr => ?_, fun hp e hr => ?_⟩
  · have polled : step s = .next (afterPoll op addr r s') := (step_of_position hp).trans (runPosition_of_bits e hr)
    rw [polled]
    refine ⟨fun h3 => ?_, fun h0 => ?_, fun h12 => ?_⟩
    · rw [afterPoll_of_retry h3, goTo]
    · rw [afterPoll_of_ok h0]
      cases op <;> rfl
    · have result : respResult r = 1 ∨ respResult r = 2 := h12
      rw [afterPoll_of_error (by omega) (by omega)]
      cases op <;> rfl
  · rw [step_of_position hp, runPosition_of_bits (p := .retryReset op addr) e hr, afterScan, goTo]
  · exact (step_of_position hp).trans (runPosition_of_simEnded e hr)

/-- Settles O49: `read_reg` hands over the instruction of its IR code with a scan-in of zeros, `dmi_reset` makes the access of the
`write_reg` it is. -/
theorem readRegAndDmiResetAreAccesses : Obligations.ReadRegAndDmiResetAreAccesses :=
  ⟨fun _ _ _ => ⟨rfl, rfl⟩, fun _ => rfl⟩
end

section
/-! A simulation that ends inside an operation (R178, R188, R189): the TCK cycle, the access, `Tap.reset`, `Dtm.reset`. -/

namespace Sys2Proof.Machine

/-! ### H's result is no part of where the simulation ended -/

theorem DtmFall.setRet {s u : State} (h : DtmFall s u) (r : Ret) : DtmFall s (setRet r u) where
  quiet := fun x => (h.quiet x).setRet r
  word := fun x => by
    obtain ⟨a, w, sa, ir, drSr, par, e, wu⟩ := h.word x
    exact ⟨a, w, sa, ir, drSr, par, e, wu.setRet r⟩

theorem EndedInside.setRet {ps : List PinPair} {k : Nat} {s e : State} (h : EndedInside ps k s e) (r : Ret) :
    EndedInside ps k s (setRet r e) :=
  { h with clock := h.clock.withEngine _, kept := h.kept.setRet r, frame := h.frame.setRet r }

/-- The last advance of a TCK cycle but the one onto its rising edge (R102). -/
theorem ClockOk.beforeRise {s : State} (h : ClockOk s) :
    s.g.tick + 2 * s.g.tckHalf - s.g.mainHalf = s.g.tick + 3 * s.g.mainHalf := by
  have hT : s.g.tckHalf = 2 * s.g.mainHalf := h.tckHalf_eq
  omega

theorem execTckCycle_of_ended {tms tdi : Bool} {s e : State} (h : cycle tms tdi s = .ended e) :
    exec (.tckCycle tms tdi) s = .next (setRet .simEnded e) := by
  show execTckCycle tms tdi s = _
  unfold execTckCycle
  rw [h]

theorem startDtmReset_of_false {s s' : State} (h : tapReset s = .next s') (hr : s'.h.ret = .flag false) :
    startDtmReset s = .next s' := by
  unfold startDtmReset
  rw [h]
  simp only [hr]

/-! ### From construction -/

/-- Without a `$finish` the simulation is over exactly from the cap on (R97). -/
theorem overAt_initial_iff {k : Nat} {p : Params} : OverAt k (State.initial p) ↔ p.maxTime ≠ 0 ∧ p.maxTime ≤ k := by
  constructor
  · rintro (h | ⟨j, hj, -⟩)
    · exact h
    · cases hj
  · exact .inl

/-- `Tap.reset` from construction, where the cap comes before the first rising edge after the window: the device is still held, and
the cap lies within the last advance (R159, R183). -/
theorem tapReset_initial_ends {p : Params} (hv : Params.valid p = true) (ht : p.tckHalfMult = Config.tckHalfMult)
    (hr : p.resetTckHalves = Config.resetTckHalves) (h0 : p.maxTime ≠ 0)
    (hcap : p.maxTime ≤ p.resetDur + p.tckHalf - p.mainHalf) :
    ∃ j e, tapReset (State.initial p) = .next (setRet (.flag false) e) ∧ p.maxTime ≤ e.g.tick ∧
      e.g.tick < p.maxTime + p.mainHalf ∧ Steps j (drive false false (State.initial p)) e ∧ Held e.t := by
  have clock := initial_clockOk hv ht hr
  obtain ⟨hT, hdur⟩ : p.tckHalf = 2 * p.mainHalf ∧ p.resetDur = 20 * p.mainHalf := clock.window
  have capped : OverAt (21 * p.mainHalf) (State.initial p) := overAt_initial_iff.mpr ⟨h0, by omega⟩
  have going : ¬ OverAt 0 (State.initial p) := fun o => h0 (Nat.le_zero.mp (overAt_initial_iff.mp o).2)
  obtain ⟨j, e, run, -, overNow, notBefore, steps, held⟩ := tapReset_ends_window clock (initial_held p) rfl rfl going capped
  have tick : e.g.tick = (j + 1) * p.mainHalf := steps.tick.trans (Nat.zero_add _)
  have reached : p.maxTime ≤ (j + 1) * p.mainHalf := (overAt_initial_iff.mp overNow).2
  have before : j * p.mainHalf < p.maxTime := Nat.lt_of_not_le fun x => notBefore (overAt_initial_iff.mpr ⟨h0, x⟩)
  refine ⟨j + 1, e, run, tick ▸ reached, ?_, steps, held⟩
  rw [tick, Nat.succ_mul]
  omega

end Sys2Proof.Machine

open Sys2Proof Sys2Proof.Machine

/-- Settles O50: by the half-period in which the simulation ends (`cycle_ends`), before or after the falling edge. -/
theorem simulationEndsInsideACycle : Obligations.SimulationEndsInsideACycle := by
  intro tms tdi s h ha ho
  rw [h.toClockOk.beforeRise] at ho
  obtain ⟨e, run, c⟩ := cycle_ends h.toLinkUp h.notEnding ha ho tms tdi
  exact ⟨setRet .simEnded e, execTckCycle_of_ended run, rfl, c.toEndedInside.setRet _, c.state, c.lastIr, c.irSr, c.drSr,
    fun x => (c.early x).imp_left (·.setRet _), fun x => (c.late x).imp_left (·.setRet _)⟩

/-- Settles O51: the access ends in one of its paths (`accessReg_ends_inside`), and a Dtm operation with its scan. -/
theorem simulationEndsInsideAnAccess : Obligations.SimulationEndsInsideAnAccess := by
  refine ⟨fun code len wdata s h hs ha hpos hmax ho => ?_, fun p s s' hp e hr => ?_⟩
  · obtain ⟨k, e, run, ended, lastIr⟩ := accessReg_ends_inside (wdata := wdata) h.toLinkUp h.notEnding hs ha hpos hmax ho
    exact ⟨k, setRet .simEnded e, (exec_decodeIr code len wdata s).trans run, rfl, ended.setRet _, lastIr⟩
  · exact (step_of_position hp).trans (runPosition_of_simEnded e hr)

/-- Settles O52: from construction the device is still held (`tapReset_initial_ends`); on a link that is up the call is a TCK cycle
that the simulation ends inside (`tapReset_ends`). -/
theorem simulationEndsInsideTapReset : Obligations.SimulationEndsInsideTapReset := by
  refine ⟨fun p hv ht hr h0 hcap => ?_, fun s h ha ho => ?_, fun s s' e hr => startDtmReset_of_false e hr⟩
  · obtain ⟨j, e, run, reached, before, steps, held⟩ := tapReset_initial_ends hv ht hr h0 hcap
    have record : e.h = (drive false false (State.initial p)).h := steps.h
    exact ⟨setRet (.flag false) e, (step_loadCall_initial .tapReset p).trans run, rfl, reached, before, steps.clock.withEngine _,
      held.state, by rw [setRet_h, record]; rfl, held.ir, by rw [setRet_h, record]; rfl, held.status, held.inflight, held.fresh,
      steps.tms, steps.tdi, steps.m, steps.kept.program⟩
  · rw [h.toClockOk.beforeRise] at ho
    obtain ⟨e, run, c⟩ := tapReset_ends h.toLinkUp h.notEnding ha ho
    exact ⟨setRet (.flag false) e, run, rfl, c.toEndedInside.setRet _, c.state, c.lastIr⟩
end

section
/-! The DMI operations as calls of a program (R88, R173, R174). -/

namespace Sys2Proof.Machine

/-- The call of a DMI operation (R88). -/
def ReqOp.call (op : ReqOp) (addr data : Nat) : HostCall :=
  match op with
  | .read => .dmiRead addr
  | .write => .dmiWrite addr data

/-- The datum that call scans in with its request: a READ scans in 0 (R173). -/
def ReqOp.scanDatum (op : ReqOp) (data : Nat) : Nat :=
  match op with
  | .read => 0
  | .write => data

theorem runCall_dmiOp (op : ReqOp) (addr data : Nat) (s : State) :
    runCall (op.call addr data) s = runPosition (.request op addr (op.scanDatum data)) s := by
  cases op <;> rfl

theorem ReqOp.datum_scanDatum (op : ReqOp) (data : Nat) :
    op.datum (BitVec.ofNat 32 (op.scanDatum data)) = op.datum (BitVec.ofNat 32 data) := by
  cases op <;> rfl

end Sys2Proof.Machine

open Sys2Proof Sys2Proof.Machine

/-- Settles O38: the request scan, then the poll that hands the request over and reads the answer (`DmiIdle.dmiOp`). -/
theorem dmiOperationReachesM : Obligations.DmiOperationReachesM := by
  intro n d addr data op a ds as rest s hpos hprog habits hwidth hmask access hcoh hquiet hok hlat hans htime ha
  have cycles : s.h.width + s.h.idleCycles + 5 = pollCycles s := by rw [hwidth, pollCycles]
  rw [cycles, hwidth] at access
  have idle : DmiIdle (n + pollCycles s) s := ⟨hpos, habits, hwidth, hmask, access, hcoh, hquiet, hok⟩
  obtain ⟨s₁, s₂, e₁, e₂, ends, program⟩ := idle.dmiOp hprog (runCall_dmiOp op addr data) hlat hans htime ha
  have requests := ends.requests
  rw [op.datum_scanDatum] at requests
  refine ⟨s₁, s₂, e₁, e₂, ends.ret, requests, ends.latencies, ends.answers, ends.position, program, ends.kept.diag, ends.lastIr,
    ends.kept.idleCycles, ends.kept.width, ends.kept.mask, ends.state, ends.ir, ends.status, ends.kept.par, ?_,
    ends.kept.tckHalf, ends.quiet, ends.ready⟩
  rw [cycles, hwidth]
  exact ends.tick
end

section
/-! `Dtm.reset` from construction (R170, R171, R180, R213): `Tap.reset`, then three 32-bit scans of a DTM at rest. -/

namespace Sys2Proof.Machine

/-- Where `Dtm.reset` of a machine constructed with `p` stands after `c` TCK cycles of scans: the next position, the IR code H last
scanned, and what the whole operation keeps. -/
structure DtmResetAt (n : Nat) (p : Params) (next : Option Position) (code : IrCode) (c : Nat) (s : State) : Prop where
  ready : Ready n s
  position : s.h.position = next
  lastIr : s.h.lastIr = code
  tick : s.g.tick = p.resetDur + p.tckHalf + c * (2 * p.tckHalf)
  tckHalf : s.g.tckHalf = p.tckHalf
  par : s.t.par = (State.initial p).t.par
  status : s.t.status = .ok
  inflight : s.t.inflight = none
  requests : s.m.requests = []
  diag : s.h.diag = []

/-- H's reaction to a scan takes the operation on to its next position and keeps the rest. -/
theorem DtmResetAt.goesTo {n c : Nat} {p : Params} {pos pos' : Option Position} {code : IrCode} {s s' : State}
    (h : DtmResetAt n p pos code c s) (hg : s'.g = s.g) (ht : s'.t = s.t) (hm : s'.m = s.m) (hs : s'.h.state = s.h.state)
    (hl : s'.h.lastIr = s.h.lastIr) (hd : s'.h.diag = s.h.diag) (hp : s'.h.position = pos') : DtmResetAt n p pos' code c s' where
  ready := h.ready.congr hg ht hs
  position := hp
  lastIr := hl.trans h.lastIr
  tick := hg ▸ h.tick
  tckHalf := hg ▸ h.tckHalf
  par := ht ▸ h.par
  status := ht ▸ h.status
  inflight := ht ▸ h.inflight
  requests := hm ▸ h.requests
  diag := hd.trans h.diag

/-- `Dtm.reset` begins with `Tap.reset` and goes on to its first scan where that returned true (R170). -/
theorem startDtmReset_of_true {s s' : State} (h : tapReset s = .next s') (hr : s'.h.ret = .flag true) :
    startDtmReset s = .next (goTo .readIdcode s') := by
  unfold startDtmReset
  rw [h]
  simp only [hr]

theorem BroughtUp.toScans {n : Nat} {p : Params} {s : State} (b : BroughtUp n p s) :
    DtmResetAt n p (some .readIdcode) 0#5 0 (goTo .readIdcode s) where
  ready := b.ready.congr rfl rfl rfl
  position := rfl
  lastIr := b.lastIr
  tick := by rw [Nat.zero_mul]; exact b.tick
  tckHalf := b.kept.tckHalf
  par := b.kept.par
  status := b.device.status
  inflight := b.device.inflight
  requests := congrArg DebugModule.requests b.m
  diag := b.kept.diag

/-- A scan of `Dtm.reset` of a DTM at rest: the register comes out whole, the word scanned in waits in Update-DR (R163, R205). -/
theorem DtmResetAt.scan {n c : Nat} {p : Params} {pos : Position} {last code : IrCode} {wdata : ScanWord} {out : Bits} {s : State}
    (h : DtmResetAt (n + accessCycles code 32 s) p (some pos) last c s) (hi : pos.instr s.h = decodeIr code 32 wdata)
    (hs : startState s.t.state = true) (hn : NoUpdate s.t) (hc : Coherent code s) (hlen : out.length = 32)
    (hcap : ∀ t : Device, t.ir = code → t.par = (State.initial p).t.par → t.status = .ok → (captureDr t).drSr = out) :
    ∃ u, step s = .next (afterScan pos out u) ∧ AccessEnds code out (natBits 32 wdata.toNat) s u ∧ u.t.ir = code ∧
      u.t.drSr = natBits 32 wdata.toNat ∧ DtmResetAt n p (some pos) code (c + accessCycles code 32 s) u := by
  have access : AccessReady n code 32 s := ⟨h.ready, h.ready.mirrored ▸ hs, hn.allowed, by decide, by decide⟩
  have rest : DtmQuiet s.t := ⟨h.inflight, hn⟩
  obtain ⟨-, d, u, e, ends, frame, ready, dir, dpar, quiet, -⟩ := accessReg_coherent (wdata := wdata) access hc
  rw [hcap d.t dir (dpar.trans h.par) ((quiet rest).status.trans h.status)] at ends
  obtain ⟨ret, drSr⟩ := ends.of_dmiLength (hlen.trans (natBits_length ..).symm)
  have same := frame.quiet rest
  have scanned : exec (pos.instr s.h) s = .next u := by rw [hi, exec_decodeIr, e]
  refine ⟨u, (step_of_position h.position).trans (runPosition_of_bits scanned ret), ends,
    ends.ir.trans (scannedIr_of_coherent hc), drSr, ready, ends.kept.position.trans h.position, ends.lastIr, ?_,
    ends.kept.tckHalf.trans h.tckHalf, ends.kept.par.trans h.par, same.status.trans h.status, same.inflight.trans h.inflight,
    (congrArg DebugModule.requests same.m).trans h.requests, ends.kept.diag.trans h.diag⟩
  rw [ends.tick, h.tick, h.tckHalf, natBits_length]
  ring

theorem accessCycles_otherIr {code : IrCode} {s : State} (h : code ≠ s.h.lastIr) (len : Nat) :
    accessCycles code len s = len + 14 := if_pos h

/-- Where H scans the IR, it need not hold what H recorded (R44). -/
theorem coherent_of_ne {code : IrCode} {s : State} (h : s.h.lastIr ≠ code) : Coherent code s := fun e => absurd e h

theorem noUpdate_of_state {t : Device} (h : t.state ≠ .updDR) : NoUpdate t := fun x => absurd x h

/-- IDCODE and BYPASS have no update (R125, R126). -/
theorem noUpdate_of_ir {t : Device} (h11 : t.ir ≠ 0x11#5) (h10 : t.ir ≠ 0x10#5) : NoUpdate t :=
  fun _ => ⟨fun x => absurd x h11, fun x => absurd x h10⟩

/-- A DTMCS word of zeros carries no command (R128). -/
theorem noUpdate_dtmcs_zeros {t : Device} (hir : t.ir = 0x10#5) (hdr : t.drSr = natBits 32 (0#32).toNat) : NoUpdate t := by
  refine fun _ => ⟨fun x => ?_, fun _ => ?_⟩
  · rw [hir] at x; cases x
  · rw [hdr, dtmcsField_natBits]; decide

/-- DTMCS as `Dtm.reset` reads it: the status is still OK (R127). -/
def dtmcsAtReset (p : Params) : Bits := natBits 32 (dtmcsValue (State.initial p).t).toNat

theorem captureDr_dtmcsAtReset {p : Params} (t : Device) (hir : t.ir = 0x10#5) (hpar : t.par = (State.initial p).t.par)
    (hs : t.status = .ok) : (captureDr t).drSr = dtmcsAtReset p := by
  rw [captureDr_dtmcs hir, dtmcsValue_congr hpar, hs]
  rfl

/-- H learns the parameters of the device (R171). -/
theorem learnDtmcs_atReset {p : Params} (hv : Params.valid p = true) (s : State) :
    learnDtmcs (dtmcsAtReset p) s =
      { s with h := { s.h with idleCycles := p.idle, width := 34 + p.abits, mask := 2 ^ p.abits - 1 } } := by
  obtain ⟨-, -, -, -, -, habits, hidle, -⟩ := (valid_iff p).mp hv
  have abits : (State.initial p).t.par.abits < 64 := Nat.lt_of_le_of_lt habits (by decide)
  exact (dtmcsReadTeachesTheHost (State.initial p).t s abits (Nat.lt_succ_of_le hidle)).2

/-- The first scan records the IDCODE (R170). -/
theorem DtmResetAt.readIdcode {n c : Nat} {p : Params} {s : State} (h : DtmResetAt (n + 46) p (some .readIdcode) 0#5 c s)
    (hs : s.t.state = .rti) :
    ∃ s', step s = .next s' ∧ DtmResetAt n p (some .readDtmcs) 0x01#5 (c + 46) s' ∧ s'.t.state = .updDR ∧ s'.t.ir = 0x01#5 ∧
      s'.h.idcode = some p.idcode := by
  have other : (0x01#5 : IrCode) ≠ s.h.lastIr := by rw [h.lastIr]; decide
  have cycles : accessCycles 0x01#5 32 s = 46 := accessCycles_otherIr other 32
  obtain ⟨u, e, ends, ir, -, after⟩ := DtmResetAt.scan (n := n) (code := 0x01#5) (wdata := 0#64)
    (out := natBits 32 p.idcode.toNat) (cycles ▸ h) rfl (by rw [hs]; rfl) (noUpdate_of_state (by rw [hs]; decide))
    (coherent_of_ne other.symm) (natBits_length ..) (fun t hir hpar _ => by rw [captureDr_idcode hir, hpar]; rfl)
  rw [cycles] at after
  exact ⟨_, e, after.goesTo rfl rfl rfl rfl rfl rfl rfl, ends.state, ir, congrArg some (ofNat_bitsVal_natBits p.idcode.isLt)⟩

/-- The second scan learns the widths and the dwell (R171). -/
theorem DtmResetAt.readDtmcs {n c : Nat} {p : Params} {s : State} (hv : Params.valid p = true)
    (h : DtmResetAt (n + 46) p (some .readDtmcs) 0x01#5 c s) (hs : s.t.state = .updDR) (hir : s.t.ir = 0x01#5) :
    ∃ s', step s = .next s' ∧ DtmResetAt n p (some .clearStatus) 0x10#5 (c + 46) s' ∧ s'.t.state = .updDR ∧ s'.t.ir = 0x10#5 ∧
      NoUpdate s'.t ∧ s'.h.idleCycles = p.idle ∧ s'.h.width = 34 + p.abits ∧ s'.h.mask = 2 ^ p.abits - 1 ∧
      s'.h.idcode = s.h.idcode := by
  have other : (0x10#5 : IrCode) ≠ s.h.lastIr := by rw [h.lastIr]; decide
  have cycles : accessCycles 0x10#5 32 s = 46 := accessCycles_otherIr other 32
  obtain ⟨u, e, ends, ir, drSr, after⟩ := DtmResetAt.scan (n := n) (code := 0x10#5) (wdata := 0#64) (out := dtmcsAtReset p)
    (cycles ▸ h) rfl (by rw [hs]; rfl) (noUpdate_of_ir (by rw [hir]; decide) (by rw [hir]; decide)) (coherent_of_ne other.symm)
    (natBits_length ..) captureDr_dtmcsAtReset
  rw [cycles] at after
  rw [afterScan, learnDtmcs_atReset hv] at e
  exact ⟨_, e, after.goesTo rfl rfl rfl rfl rfl rfl rfl, ends.state, ir, noUpdate_dtmcs_zeros ir drSr, rfl, rfl, rfl,
    ends.kept.idcode⟩

/-- The third scan leaves the DMI reset waiting in Update-DR (R82, R170, R205). -/
theorem DtmResetAt.clearStatus {n c : Nat} {p : Params} {s : State}
    (h : DtmResetAt (n + (37 + p.idle)) p (some .clearStatus) 0x10#5 c s) (hs : s.t.state = .updDR) (hir : s.t.ir = 0x10#5)
    (hn : NoUpdate s.t) (hidle : s.h.idleCycles = p.idle) :
    ∃ s', step s = .next s' ∧ DtmResetAt n p none 0x10#5 (c + (37 + p.idle)) s' ∧ s'.t.state = .updDR ∧ s'.t.ir = 0x10#5 ∧
      s'.t.drSr = natBits 32 dmiResetWord.toNat ∧ s'.h.ret = .flag true ∧ s'.h.idleCycles = s.h.idleCycles ∧
      s'.h.width = s.h.width ∧ s'.h.mask = s.h.mask ∧ s'.h.idcode = s.h.idcode := by
  have cycles : accessCycles 0x10#5 32 s = 37 + p.idle := by
    rw [accessCycles_sameIr h.lastIr, hidle]
    omega
  obtain ⟨u, e, ends, ir, drSr, after⟩ := DtmResetAt.scan (n := n) (code := 0x10#5) (wdata := dmiResetWord)
    (out := dtmcsAtReset p) (cycles ▸ h) rfl (by rw [hs]; rfl) hn
    (fun _ => (settledIr_of_ne_updIR (by rw [hs]; decide)).trans hir) (natBits_length ..) captureDr_dtmcsAtReset
  rw [cycles] at after
  exact ⟨_, e, after.goesTo rfl rfl rfl rfl rfl rfl rfl, ends.state, ir, drSr, rfl, ends.kept.idleCycles, ends.kept.hwidth,
    ends.kept.mask, ends.kept.idcode⟩

end Sys2Proof.Machine

open Sys2Proof Sys2Proof.Machine

/-- Settles O40: `Tap.reset` brings the link up (`tapReset_initial`), and each scan takes the operation on to the next position. -/
theorem dtmResetLearnsTheDevice : Obligations.DtmResetLearnsTheDevice := by
  intro n p hv ht hr hcap
  obtain ⟨s, e, up⟩ := tapReset_initial (n := n + (37 + p.idle) + 46 + 46) hv ht hr
    (hcap.imp_right fun x => by rwa [show n + (37 + p.idle) + 46 + 46 = n + (46 + 46 + (37 + p.idle)) by omega])
  obtain ⟨s₂, e₂, at₂, state₂, ir₂, idcode₂⟩ := up.toScans.readIdcode up.device.state
  obtain ⟨s₃, e₃, at₃, state₃, ir₃, noUpdate₃, idle₃, width₃, mask₃, idcode₃⟩ := at₂.readDtmcs hv state₂ ir₂
  obtain ⟨s₄, e₄, at₄, state₄, ir₄, drSr₄, ret₄, idle₄, width₄, mask₄, idcode₄⟩ := at₃.clearStatus state₃ ir₃ noUpdate₃ idle₃
  refine ⟨goTo .readIdcode s, s₂, s₃, s₄, (step_loadCall_initial .dtmReset p).trans (startDtmReset_of_true e up.ret), e₂, e₃, e₄,
    ret₄, at₄.position, idcode₄.trans (idcode₃.trans idcode₂), idle₄.trans idle₃, width₄.trans width₃, mask₄.trans mask₃,
    at₄.lastIr, ir₄, at₄.ready.mirrored.trans state₄, state₄, at₄.status, at₄.inflight, at₄.requests, at₄.diag, ?_, ?_, at₄.ready⟩
  · rw [drSr₄]
    exact congrArg BitVec.toNat (dtmcsField_natBits 0x00010000#32)
  · rw [at₄.tick, Nat.zero_add]
end

section
/-! A same-IR poll of a request that waits in Update-DR, for every latency and every answer of M (R142, R147, R206). -/

namespace Sys2Proof.Machine

theorem ReqOp.exists_code {c : Nat} (h : c = 1 ∨ c = 2) : ∃ op : ReqOp, c = op.code := by
  obtain rfl | rfl := h
  · exact ⟨.read, rfl⟩
  · exact ⟨.write, rfl⟩

theorem ReqOp.eq_read_of_code {op : ReqOp} (h : op.code = 1) : op = .read := by
  cases op with
  | read => rfl
  | write => cases h

/-- The result a capture reports of a request with latency `l`, where the answer `a` counts if `l` is at most `k`: OK or ERROR by
the answer, RETRY without it (R142, R147). -/
def pollResult (l k : Nat) (a : DmiResponse) : Nat :=
  if l ≤ k then (if a.ok then 0 else 2) else 3

theorem pollResult_le (l k : Nat) (a : DmiResponse) : pollResult l k a ≤ 3 := by
  unfold pollResult
  split
  · split <;> decide
  · exact le_rfl

/-- Of a request in flight under status OK, `k + 1` rising edges bring the answer exactly if its latency is at most `k`; the left
side of the result is what the capture reports then (`captureDr_dmi_fields`). -/
theorem DtmRises.pollResult_eq {k l : Nat} {q : DmiRequest} {a : DmiResponse} {as : List DmiResponse} {x v : State}
    (d : DtmRises (k + 1) x v) (hi : x.t.inflight = some ⟨q, l⟩) (hok : x.t.status = .ok) (hans : x.m.answers = a :: as) :
    (if v.t.inflight ≠ none ∧ v.t.status = .ok then 3 else v.t.status.code) = pollResult l k a ∧
      (l ≤ k → q.op = .read → v.t.respData = a.rdata) := by
  unfold pollResult
  by_cases hl : l ≤ k
  · obtain ⟨gone, -, b, drawn, data, status⟩ := d.answered q l hi (Nat.lt_succ_of_le hl)
    obtain rfl : b = a := drawn.head hans
    refine ⟨?_, fun _ => data⟩
    rw [if_neg fun busy => busy.1 gone, if_pos hl, status, hok]
    cases b.ok <;> rfl
  · obtain ⟨waiting, status, -⟩ := d.waits q l hi (Nat.not_le.mp hl)
    refine ⟨?_, fun h => absurd h hl⟩
    rw [if_pos ⟨by rw [waiting]; exact Option.some_ne_none _, status.trans hok⟩, if_neg hl]

/-- The same-IR access of the DMI register's length whose first falling edge hands over the request that waits in Update-DR (R205):
it captures `idle + 3` rising edges later, so with M's answer exactly if the latency is at most `idle + 2` (R206). -/
theorem accessReg_dmi_polled {n d : Nat} {op : ReqOp} {a : DmiResponse} {ds : List Nat} {as : List DmiResponse}
    {wdata : ScanWord} {s : State} (h : AccessReady n 0x11#5 (34 + s.t.par.abits) s) (hlast : s.h.lastIr = 0x11#5)
    (hstate : s.t.state = .updDR) (hir : s.t.ir = 0x11#5) (hop : dmiOpField s.t.drSr = op.code) (hok : s.t.status = .ok)
    (hidle : s.t.inflight = none) (hlat : s.m.latencies = d :: ds) (hans : s.m.answers = a :: as) :
    ∃ (x : Word32) (s' : State), accessReg 0x11#5 wdata (34 + s.t.par.abits) s = .next s' ∧
      s'.h.ret = .bits (natBits 2 (pollResult d (s.h.idleCycles + 2) a) ++
        (natBits 32 x.toNat ++ natBits s.t.par.abits (wordRequest op s.t).addr)) ∧
      (d ≤ s.h.idleCycles + 2 → op = .read → x = a.rdata) ∧
      s'.m.requests = s.m.requests ++ [wordRequest op s.t] := by
  obtain ⟨u, c, e, s', run, eq⟩ := accessReg_done (wdata := wdata) h
  -- the falling edge of the first cycle hands the request over
  obtain ⟨sent, addr, sok, requests, -, answers⟩ := run.fall.sends hstate hir hop hok hidle hlat
  -- the rising edges before the capture bring the answer, or do not
  have before := run.before.cast (k := s.h.idleCycles + 2 + 1) (if_neg (by simp [hlast]))
  obtain ⟨result, datum⟩ := before.pollResult_eq sent sok (answers.trans hans)
  -- the capture reports what they leave
  have cir : c.t.ir = 0x11#5 := run.capIr.trans (scannedIr_of_coherent fun _ => by
    rw [settledIr_of_ne_updIR (by rw [hstate]; decide), hir])
  have ends := run.ends
  rw [natBits_length] at ends
  obtain ⟨ret, -⟩ := ends.of_dmiLength (by rw [captureDr_dmi_length cir, run.capPar, natBits_length])
  refine ⟨c.t.respData, _, eq, ?_, datum, ?_⟩
  · rw [ret, captureDr_dmi_fields cir, result, run.capPar, before.respAddr, addr]
  · rw [setRet_m, run.after.requests, run.capture.requests, before.requests, requests]

end Sys2Proof.Machine

open Sys2Proof Sys2Proof.Machine

/-- Settles O37: the poll reads the capture of `accessReg_dmi_polled`, field by field. -/
theorem sameIrPollSeesTheAnswerInTime : Obligations.SameIrPollSeesTheAnswerInTime := by
  intro n d a ds as wdata s h hlast hstate hir hop hok hidle hlat hans
  obtain ⟨op, hop⟩ := ReqOp.exists_code hop
  obtain ⟨x, s', e, ret, datum, requests⟩ := accessReg_dmi_polled (wdata := wdata) h hlast hstate hir hop hok hidle hlat hans
  refine ⟨_, s', e, ret, respResult_word _ _ _ _ (pollResult_le _ _ a), fun hd h1 => ?_, respAddress_word .., ?_⟩
  · rw [respDatum_word]
    exact datum hd (ReqOp.eq_read_of_code (hop.symm.trans h1))
  · rw [requests, List.length_append, List.length_singleton]
end
